-- ==== Sys2Proof/Word.lean ====
section
/-! DEFINITION. The word types of the M•CORE: 32-bit words, 16-bit instruction words, bytes, and the
register fields of an encoded instruction (R2, R102). -/

namespace Sys2Proof

/-- A register, an address or a datum: 32 bits (R2). -/
abbrev Word := BitVec 32

/-- An instruction word (R100) or the datum of a halfword access (R75). -/
abbrev Half := BitVec 16

/-- One byte of memory (R70). -/
abbrev Byte := BitVec 8

/-- A 4-bit register field: the register number in binary (R102). -/
abbrev Reg := BitVec 4

/-- The 5-bit control register field CRegY of `mfcr` and `mtcr` (R109). -/
abbrev CregField := BitVec 5

/-- Register R0: base of `ldm` and `stm` (R23). -/
abbrev r0 : Reg := 0#4

/-- Register R1: divisor of `divs`, `divu`, destination of `xtrb0` to `xtrb3` (R23). -/
abbrev r1 : Reg := 1#4

/-- Register R15: the link register (R23). -/
abbrev r15 : Reg := 15#4

end Sys2Proof
end

