-- ==== Sys2Proof/Syntax.lean ====
section
/-! DEFINITION. The instructions: one constructor for each row of spec/opcode_table.json, in the
table's order, its operands being the row's fields (R102, R121). Register fields are `Reg`; immediates
and displacements keep the width of their field. OIMM5 fields hold the written value less one (R107). -/

namespace Sys2Proof

/-- The instruction set of R121. Field names are those of R102. -/
inductive Instr where
  | bkpt
  | sync
  | rte
  | rfi
  | stop
  | wait
  | doze
  | trap (vec2 : BitVec 2)
  | mvc (rx : Reg)
  | mvcv (rx : Reg)
  | ldq (rx : Reg)
  | stq (rx : Reg)
  | ldm (rf : Reg)
  | stm (rf : Reg)
  | dect (rx : Reg)
  | decf (rx : Reg)
  | inct (rx : Reg)
  | incf (rx : Reg)
  | jmp (rx : Reg)
  | jsr (rx : Reg)
  | ff1 (rx : Reg)
  | brev (rx : Reg)
  | xtrb3 (rx : Reg)
  | xtrb2 (rx : Reg)
  | xtrb1 (rx : Reg)
  | xtrb0 (rx : Reg)
  | zextb (rx : Reg)
  | sextb (rx : Reg)
  | zexth (rx : Reg)
  | sexth (rx : Reg)
  | declt (rx : Reg)
  | tstnbz (rx : Reg)
  | decgt (rx : Reg)
  | decne (rx : Reg)
  | clrt (rx : Reg)
  | clrf (rx : Reg)
  | abs (rx : Reg)
  | not (rx : Reg)
  | movt (ry rx : Reg)
  | mult (ry rx : Reg)
  | loopt (ry : Reg) (disp4 : BitVec 4)
  | subu (ry rx : Reg)
  | addc (ry rx : Reg)
  | subc (ry rx : Reg)
  | movf (ry rx : Reg)
  | lsr (ry rx : Reg)
  | cmphs (ry rx : Reg)
  | cmplt (ry rx : Reg)
  | tst (ry rx : Reg)
  | cmpne (ry rx : Reg)
  | mfcr (creg : CregField) (rx : Reg)
  | mov (ry rx : Reg)
  | bgenr (ry rx : Reg)
  | rsub (ry rx : Reg)
  | ixw (ry rx : Reg)
  | and (ry rx : Reg)
  | xor (ry rx : Reg)
  | mtcr (creg : CregField) (rx : Reg)
  | asr (ry rx : Reg)
  | lsl (ry rx : Reg)
  | addu (ry rx : Reg)
  | ixh (ry rx : Reg)
  | or (ry rx : Reg)
  | andn (ry rx : Reg)
  | addi (oimm5 : BitVec 5) (rx : Reg)
  | cmplti (oimm5 : BitVec 5) (rx : Reg)
  | subi (oimm5 : BitVec 5) (rx : Reg)
  | rsubi (imm5 : BitVec 5) (rx : Reg)
  | cmpnei (imm5 : BitVec 5) (rx : Reg)
  | bmaski (imm5 : BitVec 5) (rx : Reg)
  | divu (rx : Reg)
  | andi (imm5 : BitVec 5) (rx : Reg)
  | bclri (imm5 : BitVec 5) (rx : Reg)
  | bgeni (imm5 : BitVec 5) (rx : Reg)
  | divs (rx : Reg)
  | bseti (imm5 : BitVec 5) (rx : Reg)
  | btsti (imm5 : BitVec 5) (rx : Reg)
  | rotli (imm5 : BitVec 5) (rx : Reg)
  | xsr (rx : Reg)
  | asri (imm5 : BitVec 5) (rx : Reg)
  | asrc (rx : Reg)
  | lsli (imm5 : BitVec 5) (rx : Reg)
  | lslc (rx : Reg)
  | lsri (imm5 : BitVec 5) (rx : Reg)
  | lsrc (rx : Reg)
  | hai (uu : BitVec 2) (x : BitVec 10)
  | movi (imm7 : BitVec 7) (rx : Reg)
  | lrw (rz : Reg) (disp8 : BitVec 8)
  | jmpi (disp8 : BitVec 8)
  | jsri (disp8 : BitVec 8)
  | ldW (rz : Reg) (imm4 : BitVec 4) (rx : Reg)
  | stW (rz : Reg) (imm4 : BitVec 4) (rx : Reg)
  | ldB (rz : Reg) (imm4 : BitVec 4) (rx : Reg)
  | stB (rz : Reg) (imm4 : BitVec 4) (rx : Reg)
  | ldH (rz : Reg) (imm4 : BitVec 4) (rx : Reg)
  | stH (rz : Reg) (imm4 : BitVec 4) (rx : Reg)
  | bt (disp11 : BitVec 11)
  | bf (disp11 : BitVec 11)
  | br (disp11 : BitVec 11)
  | bsr (disp11 : BitVec 11)
deriving DecidableEq, Repr

end Sys2Proof
end

