-- ==== Sys2Proof/WellFormed.lean ====
section
/-! DEFINITION. Which instructions an encoding exists for. The fields of `Instr` have the widths of
their encoding, so the only checks left are the field values that the opcode map gives to another
instruction or reserves (R116, R122, R123). The forbidden register specifiers of R392 (`jsr r15` and
the like) are well formed: they decode, and it is their meaning that stops. -/

namespace Sys2Proof

/-- A shift or rotate count of the IMM5 field: 1 to 31, for field 0 is another instruction (R123). -/
def shiftCountOk (imm5 : BitVec 5) : Bool := imm5 != 0#5

/-- The IMM5 field of `bmaski`: 0 (written 32) or 8 to 31 (R181). -/
def maskWidthOk (imm5 : BitVec 5) : Bool := imm5 == 0#5 || decide (8#5 ≤ imm5)

/-- The IMM5 field of `bgeni`: 7 to 31 (R179). -/
def bitNumberOk (imm5 : BitVec 5) : Bool := decide (7#5 ≤ imm5)

/-- The RZ field of `lrw`: R1 to R14, for R0 and R15 encode `jmpi` and `jsri` (R116). -/
def literalDestOk (rz : Reg) : Bool := rz != r0 && rz != r15

/-- The instruction has an encoding of its own. -/
def Instr.wf : Instr → Bool
  | .rotli imm5 _ | .asri imm5 _ | .lsli imm5 _ | .lsri imm5 _ => shiftCountOk imm5
  | .bmaski imm5 _ => maskWidthOk imm5
  | .bgeni imm5 _ => bitNumberOk imm5
  | .lrw rz _ => literalDestOk rz
  | .bkpt | .sync | .rte | .rfi | .stop | .wait | .doze | .trap _ | .mvc _ | .mvcv _ | .ldq _
  | .stq _ | .ldm _ | .stm _ | .dect _ | .decf _ | .inct _ | .incf _ | .jmp _ | .jsr _ | .ff1 _
  | .brev _ | .xtrb3 _ | .xtrb2 _ | .xtrb1 _ | .xtrb0 _ | .zextb _ | .sextb _ | .zexth _
  | .sexth _ | .declt _ | .tstnbz _ | .decgt _ | .decne _ | .clrt _ | .clrf _ | .abs _ | .not _
  | .movt _ _ | .mult _ _ | .loopt _ _ | .subu _ _ | .addc _ _ | .subc _ _ | .movf _ _ | .lsr _ _
  | .cmphs _ _ | .cmplt _ _ | .tst _ _ | .cmpne _ _ | .mfcr _ _ | .mov _ _ | .bgenr _ _
  | .rsub _ _ | .ixw _ _ | .and _ _ | .xor _ _ | .mtcr _ _ | .asr _ _ | .lsl _ _ | .addu _ _
  | .ixh _ _ | .or _ _ | .andn _ _ | .addi _ _ | .cmplti _ _ | .subi _ _ | .rsubi _ _
  | .cmpnei _ _ | .divu _ | .andi _ _ | .bclri _ _ | .divs _ | .bseti _ _ | .btsti _ _ | .xsr _
  | .asrc _ | .lslc _ | .lsrc _ | .hai _ _ | .movi _ _ | .jmpi _ | .jsri _ | .ldW _ _ _
  | .stW _ _ _ | .ldB _ _ _ | .stB _ _ _ | .ldH _ _ _ | .stH _ _ _ | .bt _ | .bf _ | .br _
  | .bsr _ => true

end Sys2Proof
end

