-- ==== Sys2Proof/Decode.lean ====
section
/-! DEFINITION. Decoding (R120 to R123) and encoding (R103, R121) of the 16-bit instruction words.
`decode` is total: a word that the opcode map assigns to no instruction is rejected under the name of
its reserved slot (R122). The opcode values marked G in R121 come from general knowledge of the family
(PRESUMED, entry 9; unsafe). -/

namespace Sys2Proof

/-! ## Fields of an instruction word (R102) -/

/-- RX, RFirst: bits 3:0. -/
def fieldRx (w : Half) : Reg := w.extractLsb' 0 4

/-- RY, IMM4: bits 7:4. -/
def fieldRy (w : Half) : Reg := w.extractLsb' 4 4

/-- RZ: bits 11:8. -/
def fieldRz (w : Half) : Reg := w.extractLsb' 8 4

/-- IMM5, OIMM5, CRegY: bits 8:4. -/
def fieldImm5 (w : Half) : BitVec 5 := w.extractLsb' 4 5

/-- IMM7: bits 10:4. -/
def fieldImm7 (w : Half) : BitVec 7 := w.extractLsb' 4 7

/-- DISP_8: bits 7:0. -/
def fieldDisp8 (w : Half) : BitVec 8 := w.extractLsb' 0 8

/-- The branch displacement: bits 10:0. -/
def fieldDisp11 (w : Half) : BitVec 11 := w.extractLsb' 0 11

/-- Vec2: bits 1:0. -/
def fieldVec2 (w : Half) : BitVec 2 := w.extractLsb' 0 2

/-- The accelerator unit number: bits 11:10. -/
def fieldUu (w : Half) : BitVec 2 := w.extractLsb' 10 2

/-- The rest of an accelerator opcode: bits 9:0. -/
def fieldHai (w : Half) : BitVec 10 := w.extractLsb' 0 10

/-- The major opcode: bits 15:12. -/
def op4 (w : Half) : BitVec 4 := w.extractLsb' 12 4

/-- The opcode of the BR and IMM7 formats: bits 15:11. -/
def op5 (w : Half) : BitVec 5 := w.extractLsb' 11 5

/-- The opcode of the CREG, IMM5 and OIMM5 formats: bits 15:9. -/
def op7 (w : Half) : BitVec 7 := w.extractLsb' 9 7

/-- The opcode of the DYADIC, LOOPT and IND formats: bits 15:8. -/
def op8 (w : Half) : BitVec 8 := w.extractLsb' 8 8

/-- The opcode of the MONADIC, QUAD and MULTI formats: bits 15:4. -/
def op12 (w : Half) : BitVec 12 := w.extractLsb' 4 12

/-- The opcode of the TRAP format: bits 15:2. -/
def op14 (w : Half) : BitVec 14 := w.extractLsb' 2 14

/-! ## Decoding -/

/-- Why no instruction is read: fewer than two bytes, or a word of one of the reserved slots of R122. -/
inductive Reject where
  /-- fewer than two bytes were given -/
  | truncated
  /-- 0x0007 -/
  | slot0007
  /-- 0x000C to 0x000F -/
  | slot000C
  /-- 0x0010 to 0x001F -/
  | slot0010
  /-- 0x0800 to 0x09FF -/
  | slot0800
  /-- 0x2600 to 0x27FF -/
  | slot2600
  /-- 0x2C20 to 0x2C7F: `bmaski` fields 2 to 7 -/
  | slotBmaski
  /-- 0x3200 to 0x320F and 0x3220 to 0x326F: `bgeni` fields 0 and 2 to 6 -/
  | slotBgeni
  /-- 0x5000 to 0x5FFF -/
  | slot5000
  /-- 0x6800 to 0x6FFF -/
  | slot6800
deriving DecidableEq, Repr

/-- The words 0x0000 to 0x001F: FIXED and TRAP formats (R120). -/
def decodeFixed (w : Half) : Except Reject Instr :=
  if w = 0x0000#16 then .ok .bkpt
  else if w = 0x0001#16 then .ok .sync
  else if w = 0x0002#16 then .ok .rte
  else if w = 0x0003#16 then .ok .rfi
  else if w = 0x0004#16 then .ok .stop
  else if w = 0x0005#16 then .ok .wait
  else if w = 0x0006#16 then .ok .doze
  else if w = 0x0007#16 then .error .slot0007
  else if op14 w = 0x0002#14 then .ok (.trap (fieldVec2 w))
  else if op14 w = 0x0003#14 then .error .slot000C
  else .error .slot0010

/-- The words 0x0020 to 0x01FF: MONADIC, QUAD and MULTI formats (R120, R121). -/
def decodeMonadic (w : Half) : Except Reject Instr :=
  let op := op12 w
  let rx := fieldRx w
  if op = 0x002#12 then .ok (.mvc rx)
  else if op = 0x003#12 then .ok (.mvcv rx)
  else if op = 0x004#12 then .ok (.ldq rx)
  else if op = 0x005#12 then .ok (.stq rx)
  else if op = 0x006#12 then .ok (.ldm rx)
  else if op = 0x007#12 then .ok (.stm rx)
  else if op = 0x008#12 then .ok (.dect rx)
  else if op = 0x009#12 then .ok (.decf rx)
  else if op = 0x00A#12 then .ok (.inct rx)
  else if op = 0x00B#12 then .ok (.incf rx)
  else if op = 0x00C#12 then .ok (.jmp rx)
  else if op = 0x00D#12 then .ok (.jsr rx)
  else if op = 0x00E#12 then .ok (.ff1 rx)
  else if op = 0x00F#12 then .ok (.brev rx)
  else if op = 0x010#12 then .ok (.xtrb3 rx)
  else if op = 0x011#12 then .ok (.xtrb2 rx)
  else if op = 0x012#12 then .ok (.xtrb1 rx)
  else if op = 0x013#12 then .ok (.xtrb0 rx)
  else if op = 0x014#12 then .ok (.zextb rx)
  else if op = 0x015#12 then .ok (.sextb rx)
  else if op = 0x016#12 then .ok (.zexth rx)
  else if op = 0x017#12 then .ok (.sexth rx)
  else if op = 0x018#12 then .ok (.declt rx)
  else if op = 0x019#12 then .ok (.tstnbz rx)
  else if op = 0x01A#12 then .ok (.decgt rx)
  else if op = 0x01B#12 then .ok (.decne rx)
  else if op = 0x01C#12 then .ok (.clrt rx)
  else if op = 0x01D#12 then .ok (.clrf rx)
  else if op = 0x01E#12 then .ok (.abs rx)
  else if op = 0x01F#12 then .ok (.not rx)
  else decodeFixed w

/-- The words 0x0000 to 0x0FFF: DYADIC and LOOPT formats, and the shorter ones below 0x0200 (R120). -/
def decode0 (w : Half) : Except Reject Instr :=
  let op := op8 w
  let ry := fieldRy w
  let rx := fieldRx w
  if op = 0x02#8 then .ok (.movt ry rx)
  else if op = 0x03#8 then .ok (.mult ry rx)
  else if op = 0x04#8 then .ok (.loopt ry rx)
  else if op = 0x05#8 then .ok (.subu ry rx)
  else if op = 0x06#8 then .ok (.addc ry rx)
  else if op = 0x07#8 then .ok (.subc ry rx)
  else if op = 0x08#8 then .error .slot0800
  else if op = 0x09#8 then .error .slot0800
  else if op = 0x0A#8 then .ok (.movf ry rx)
  else if op = 0x0B#8 then .ok (.lsr ry rx)
  else if op = 0x0C#8 then .ok (.cmphs ry rx)
  else if op = 0x0D#8 then .ok (.cmplt ry rx)
  else if op = 0x0E#8 then .ok (.tst ry rx)
  else if op = 0x0F#8 then .ok (.cmpne ry rx)
  else decodeMonadic w

/-- The words 0x1000 to 0x1FFF: CREG and DYADIC formats (R120). -/
def decode1 (w : Half) : Except Reject Instr :=
  let op := op8 w
  let ry := fieldRy w
  let rx := fieldRx w
  if op7 w = 0x08#7 then .ok (.mfcr (fieldImm5 w) rx)
  else if op7 w = 0x0C#7 then .ok (.mtcr (fieldImm5 w) rx)
  else if op = 0x12#8 then .ok (.mov ry rx)
  else if op = 0x13#8 then .ok (.bgenr ry rx)
  else if op = 0x14#8 then .ok (.rsub ry rx)
  else if op = 0x15#8 then .ok (.ixw ry rx)
  else if op = 0x16#8 then .ok (.and ry rx)
  else if op = 0x17#8 then .ok (.xor ry rx)
  else if op = 0x1A#8 then .ok (.asr ry rx)
  else if op = 0x1B#8 then .ok (.lsl ry rx)
  else if op = 0x1C#8 then .ok (.addu ry rx)
  else if op = 0x1D#8 then .ok (.ixh ry rx)
  else if op = 0x1E#8 then .ok (.or ry rx)
  else .ok (.andn ry rx)

/-- The words 0x2000 to 0x2FFF: IMM5 and OIMM5 formats, with `divu` inside `bmaski` (R120, R123). -/
def decode2 (w : Half) : Except Reject Instr :=
  let op := op7 w
  let imm := fieldImm5 w
  let rx := fieldRx w
  if op = 0x10#7 then .ok (.addi imm rx)
  else if op = 0x11#7 then .ok (.cmplti imm rx)
  else if op = 0x12#7 then .ok (.subi imm rx)
  else if op = 0x13#7 then .error .slot2600
  else if op = 0x14#7 then .ok (.rsubi imm rx)
  else if op = 0x15#7 then .ok (.cmpnei imm rx)
  else if op = 0x16#7 then
    if imm = 1#5 then .ok (.divu rx)
    else if maskWidthOk imm then .ok (.bmaski imm rx)
    else .error .slotBmaski
  else .ok (.andi imm rx)

/-- The words 0x3000 to 0x3FFF: IMM5 formats, with `divs`, `xsr`, `asrc`, `lslc` and `lsrc` inside
(R120, R123). -/
def decode3 (w : Half) : Except Reject Instr :=
  let op := op7 w
  let imm := fieldImm5 w
  let rx := fieldRx w
  if op = 0x18#7 then .ok (.bclri imm rx)
  else if op = 0x19#7 then
    if imm = 1#5 then .ok (.divs rx)
    else if bitNumberOk imm then .ok (.bgeni imm rx)
    else .error .slotBgeni
  else if op = 0x1A#7 then .ok (.bseti imm rx)
  else if op = 0x1B#7 then .ok (.btsti imm rx)
  else if op = 0x1C#7 then
    if shiftCountOk imm then .ok (.rotli imm rx) else .ok (.xsr rx)
  else if op = 0x1D#7 then
    if shiftCountOk imm then .ok (.asri imm rx) else .ok (.asrc rx)
  else if op = 0x1E#7 then
    if shiftCountOk imm then .ok (.lsli imm rx) else .ok (.lslc rx)
  else
    if shiftCountOk imm then .ok (.lsri imm rx) else .ok (.lsrc rx)

/-- The words 0x7000 to 0x7FFF: `jmpi`, `jsri` and `lrw` by the RZ field (R116). -/
def decode7 (w : Half) : Except Reject Instr :=
  if fieldRz w = r0 then .ok (.jmpi (fieldDisp8 w))
  else if fieldRz w = r15 then .ok (.jsri (fieldDisp8 w))
  else .ok (.lrw (fieldRz w) (fieldDisp8 w))

/-- The words 0xE000 to 0xFFFF: BR format (R113, R120). -/
def decodeBranch (w : Half) : Except Reject Instr :=
  let op := op5 w
  let d := fieldDisp11 w
  if op = 0x1C#5 then .ok (.bt d)
  else if op = 0x1D#5 then .ok (.bf d)
  else if op = 0x1E#5 then .ok (.br d)
  else .ok (.bsr d)

/-- The instruction of a 16-bit word, or the reserved slot it lies in (R120). -/
def decode (w : Half) : Except Reject Instr :=
  let op := op4 w
  if op = 0x0#4 then decode0 w
  else if op = 0x1#4 then decode1 w
  else if op = 0x2#4 then decode2 w
  else if op = 0x3#4 then decode3 w
  else if op = 0x4#4 then .ok (.hai (fieldUu w) (fieldHai w))
  else if op = 0x5#4 then .error .slot5000
  else if op = 0x6#4 then
    if op5 w = 0x0C#5 then .ok (.movi (fieldImm7 w) (fieldRx w)) else .error .slot6800
  else if op = 0x7#4 then decode7 w
  else if op = 0x8#4 then .ok (.ldW (fieldRz w) (fieldRy w) (fieldRx w))
  else if op = 0x9#4 then .ok (.stW (fieldRz w) (fieldRy w) (fieldRx w))
  else if op = 0xA#4 then .ok (.ldB (fieldRz w) (fieldRy w) (fieldRx w))
  else if op = 0xB#4 then .ok (.stB (fieldRz w) (fieldRy w) (fieldRx w))
  else if op = 0xC#4 then .ok (.ldH (fieldRz w) (fieldRy w) (fieldRx w))
  else if op = 0xD#4 then .ok (.stH (fieldRz w) (fieldRy w) (fieldRx w))
  else decodeBranch w

/-- The instruction at the head of a list of bytes, big-endian (R74), and the bytes after it. -/
def decodeBytes : List Byte → Except Reject (Instr × List Byte)
  | hi :: lo :: rest =>
    match decode (hi ++ lo) with
    | .ok i => .ok (i, rest)
    | .error e => .error e
  | _ => .error .truncated

/-! ## Encoding: the formats of R103 -/

/-- TRAP format. -/
def trapWord (op : BitVec 14) (v : BitVec 2) : Half := op ++ v

/-- MONADIC, QUAD and MULTI formats. -/
def monadicWord (op : BitVec 12) (rx : Reg) : Half := op ++ rx

/-- DYADIC and LOOPT formats. -/
def dyadicWord (op : BitVec 8) (ry rx : Reg) : Half := op ++ ry ++ rx

/-- CREG, IMM5 and OIMM5 formats. -/
def imm5Word (op : BitVec 7) (imm : BitVec 5) (rx : Reg) : Half := op ++ imm ++ rx

/-- IMM7 format. -/
def imm7Word (op : BitVec 5) (imm : BitVec 7) (rx : Reg) : Half := op ++ imm ++ rx

/-- HAI format. -/
def haiWord (op : BitVec 4) (uu : BitVec 2) (x : BitVec 10) : Half := op ++ uu ++ x

/-- LRW and IND formats. -/
def literalWord (op rz : BitVec 4) (d : BitVec 8) : Half := op ++ rz ++ d

/-- LDST format. -/
def loadStoreWord (op : BitVec 4) (rz : Reg) (imm : BitVec 4) (rx : Reg) : Half := op ++ rz ++ imm ++ rx

/-- BR format. -/
def branchWord (op : BitVec 5) (d : BitVec 11) : Half := op ++ d

/-- The word of a well-formed instruction, from the opcode map (R121). -/
def encode : Instr → Half
  | .bkpt => 0x0000#16
  | .sync => 0x0001#16
  | .rte => 0x0002#16
  | .rfi => 0x0003#16
  | .stop => 0x0004#16
  | .wait => 0x0005#16
  | .doze => 0x0006#16
  | .trap v => trapWord 0x0002#14 v
  | .mvc rx => monadicWord 0x002#12 rx
  | .mvcv rx => monadicWord 0x003#12 rx
  | .ldq rx => monadicWord 0x004#12 rx
  | .stq rx => monadicWord 0x005#12 rx
  | .ldm rf => monadicWord 0x006#12 rf
  | .stm rf => monadicWord 0x007#12 rf
  | .dect rx => monadicWord 0x008#12 rx
  | .decf rx => monadicWord 0x009#12 rx
  | .inct rx => monadicWord 0x00A#12 rx
  | .incf rx => monadicWord 0x00B#12 rx
  | .jmp rx => monadicWord 0x00C#12 rx
  | .jsr rx => monadicWord 0x00D#12 rx
  | .ff1 rx => monadicWord 0x00E#12 rx
  | .brev rx => monadicWord 0x00F#12 rx
  | .xtrb3 rx => monadicWord 0x010#12 rx
  | .xtrb2 rx => monadicWord 0x011#12 rx
  | .xtrb1 rx => monadicWord 0x012#12 rx
  | .xtrb0 rx => monadicWord 0x013#12 rx
  | .zextb rx => monadicWord 0x014#12 rx
  | .sextb rx => monadicWord 0x015#12 rx
  | .zexth rx => monadicWord 0x016#12 rx
  | .sexth rx => monadicWord 0x017#12 rx
  | .declt rx => monadicWord 0x018#12 rx
  | .tstnbz rx => monadicWord 0x019#12 rx
  | .decgt rx => monadicWord 0x01A#12 rx
  | .decne rx => monadicWord 0x01B#12 rx
  | .clrt rx => monadicWord 0x01C#12 rx
  | .clrf rx => monadicWord 0x01D#12 rx
  | .abs rx => monadicWord 0x01E#12 rx
  | .not rx => monadicWord 0x01F#12 rx
  | .movt ry rx => dyadicWord 0x02#8 ry rx
  | .mult ry rx => dyadicWord 0x03#8 ry rx
  | .loopt ry b => dyadicWord 0x04#8 ry b
  | .subu ry rx => dyadicWord 0x05#8 ry rx
  | .addc ry rx => dyadicWord 0x06#8 ry rx
  | .subc ry rx => dyadicWord 0x07#8 ry rx
  | .movf ry rx => dyadicWord 0x0A#8 ry rx
  | .lsr ry rx => dyadicWord 0x0B#8 ry rx
  | .cmphs ry rx => dyadicWord 0x0C#8 ry rx
  | .cmplt ry rx => dyadicWord 0x0D#8 ry rx
  | .tst ry rx => dyadicWord 0x0E#8 ry rx
  | .cmpne ry rx => dyadicWord 0x0F#8 ry rx
  | .mfcr c rx => imm5Word 0x08#7 c rx
  | .mov ry rx => dyadicWord 0x12#8 ry rx
  | .bgenr ry rx => dyadicWord 0x13#8 ry rx
  | .rsub ry rx => dyadicWord 0x14#8 ry rx
  | .ixw ry rx => dyadicWord 0x15#8 ry rx
  | .and ry rx => dyadicWord 0x16#8 ry rx
  | .xor ry rx => dyadicWord 0x17#8 ry rx
  | .mtcr c rx => imm5Word 0x0C#7 c rx
  | .asr ry rx => dyadicWord 0x1A#8 ry rx
  | .lsl ry rx => dyadicWord 0x1B#8 ry rx
  | .addu ry rx => dyadicWord 0x1C#8 ry rx
  | .ixh ry rx => dyadicWord 0x1D#8 ry rx
  | .or ry rx => dyadicWord 0x1E#8 ry rx
  | .andn ry rx => dyadicWord 0x1F#8 ry rx
  | .addi n rx => imm5Word 0x10#7 n rx
  | .cmplti n rx => imm5Word 0x11#7 n rx
  | .subi n rx => imm5Word 0x12#7 n rx
  | .rsubi n rx => imm5Word 0x14#7 n rx
  | .cmpnei n rx => imm5Word 0x15#7 n rx
  | .bmaski n rx => imm5Word 0x16#7 n rx
  | .divu rx => monadicWord 0x2C1#12 rx
  | .andi n rx => imm5Word 0x17#7 n rx
  | .bclri n rx => imm5Word 0x18#7 n rx
  | .bgeni n rx => imm5Word 0x19#7 n rx
  | .divs rx => monadicWord 0x321#12 rx
  | .bseti n rx => imm5Word 0x1A#7 n rx
  | .btsti n rx => imm5Word 0x1B#7 n rx
  | .rotli n rx => imm5Word 0x1C#7 n rx
  | .xsr rx => monadicWord 0x380#12 rx
  | .asri n rx => imm5Word 0x1D#7 n rx
  | .asrc rx => monadicWord 0x3A0#12 rx
  | .lsli n rx => imm5Word 0x1E#7 n rx
  | .lslc rx => monadicWord 0x3C0#12 rx
  | .lsri n rx => imm5Word 0x1F#7 n rx
  | .lsrc rx => monadicWord 0x3E0#12 rx
  | .hai uu x => haiWord 0x4#4 uu x
  | .movi n rx => imm7Word 0x0C#5 n rx
  | .lrw rz d => literalWord 0x7#4 rz d
  | .jmpi d => literalWord 0x7#4 0x0#4 d
  | .jsri d => literalWord 0x7#4 0xF#4 d
  | .ldW rz n rx => loadStoreWord 0x8#4 rz n rx
  | .stW rz n rx => loadStoreWord 0x9#4 rz n rx
  | .ldB rz n rx => loadStoreWord 0xA#4 rz n rx
  | .stB rz n rx => loadStoreWord 0xB#4 rz n rx
  | .ldH rz n rx => loadStoreWord 0xC#4 rz n rx
  | .stH rz n rx => loadStoreWord 0xD#4 rz n rx
  | .bt d => branchWord 0x1C#5 d
  | .bf d => branchWord 0x1D#5 d
  | .br d => branchWord 0x1E#5 d
  | .bsr d => branchWord 0x1F#5 d

/-- The two bytes of an instruction word as memory holds them, the high byte first (R74). -/
def wordBytes (w : Half) : List Byte := [w.extractLsb' 8 8, w.extractLsb' 0 8]

/-- The bytes of a well-formed instruction. -/
def encodeBytes (i : Instr) : List Byte := wordBytes (encode i)

/-- The instruction the decoder reads from an opcode-table word: its low `nbits` bits, laid out in
memory order. -/
def decodeTableWord (nbits w : Nat) : Option Instr :=
  match decodeBytes (wordBytes (BitVec.ofNat 16 (w % 2 ^ nbits))) with
  | .ok (i, _) => some i
  | .error _ => none

end Sys2Proof
end

