-- ==== Sys2Proof/Config.lean ====
section
/-! DEFINITION. What an implementation fixes and the spec leaves open, and the free values (R8 `draw`).
None of these constants has a body: no proof can learn a value of one, so a theorem that mentions one
holds whatever the value is. -/

namespace Sys2Proof

/-- A free bit, one for each use: the `draw` of one bit of R8. The counter `State.free` numbers the uses
(DESIGN CHOICE, entry 7; safe). -/
opaque Config.freeBit : Nat → Bool

/-- A free 32-bit value, one for each use: the `draw` of a word of R8 (DESIGN CHOICE, entry 7; safe). -/
opaque Config.freeWord : Nat → Word

/-- The parameter `WakeOnMasked` (R293, D14): whether an interrupt request that is masked ends a
low-power state (entry 32; safe). -/
opaque Config.wakeOnMasked : Bool

/-- Whether the literal reads of `lrw`, `jmpi` and `jsri` carry the program attribute, which the spec leaves
open (R71, N8; entry 18; safe). -/
opaque Config.literalIsProgram : Bool

end Sys2Proof
end

