-- ==== Sys2Proof/Machine/State.lean ====
section
/-! DEFINITION. The state of one M•CORE core: the registers of R20, the hidden state of R62, and the
platform's input levels (R330, `92_eei_decisions.md`), all plain data; the reasons a step stops; and
the state after reset (R63, R381). -/

namespace Sys2Proof.Machine

/-- The processor status register (CR0) by its fields (R32). Bits 30, 23, 11, 5, 3 and 2 are hardwired
to zero (R48) and so is TP in the PSR itself (R38): they have no storage. There is no DB bit (R61, the spec's
D7). `Psr.toWord` and `Psr.ofWord` give the 32-bit view (entry 10). -/
structure Psr where
  /-- S, bit 31: supervisor mode (R33) -/
  s : Bool
  /-- SP, bits 29:28: spare, zero (R34) -/
  sp : BitVec 2
  /-- U3 to U0, bits 27:24: accelerator unit enables (R35) -/
  u : BitVec 4
  /-- VEC, bits 22:16: number of the last vector taken (R36) -/
  vec : BitVec 7
  /-- TM, bits 15:14: trace mode (R37) -/
  tm : BitVec 2
  /-- TC, bit 12: translation control (R39) -/
  tc : Bool
  /-- SC, bit 10: spare control (R40) -/
  sc : Bool
  /-- MM, bit 9: misalignment exception mask (R41) -/
  mm : Bool
  /-- EE, bit 8: exception enable (R42) -/
  ee : Bool
  /-- IC, bit 7: interrupt control (R43) -/
  ic : Bool
  /-- IE, bit 6: interrupt enable (R44) -/
  ie : Bool
  /-- FE, bit 4: fast interrupt enable (R45) -/
  fe : Bool
  /-- AF, bit 1: alternate file enable (R46) -/
  af : Bool
  /-- C, bit 0: condition code and carry (R47) -/
  c : Bool
deriving DecidableEq, Repr

/-- The control registers that have a name (R30). -/
inductive CtrlReg where
  | psr
  | vbr
  | epsr
  | fpsr
  | epc
  | fpc
  /-- SS0 to SS4 -/
  | ss (k : Fin 5)
  | gcr
  | gsr
deriving DecidableEq, Repr

/-- The three low-power states (R293). -/
inductive LowPower where
  | stop
  | wait
  | doze
deriving DecidableEq, Repr

/-- What the core is doing. -/
inductive Activity where
  /-- executing instructions -/
  | running
  /-- in a low-power state, waiting for an interrupt (R293) -/
  | asleep (mode : LowPower)
  /-- no further step until hard reset, after a bus error on the read of vector 8 (R314) -/
  | stuck
deriving DecidableEq, Repr

/-- The older values that S, TM, TC, EE and AF may still be seen with after an `mtcr` to CR0, oldest
first; an empty list is a closed window (R390). -/
structure Windows where
  s : List Bool
  tm : List (BitVec 2)
  tc : List Bool
  ee : List Bool
  af : List Bool
deriving DecidableEq, Repr

/-- The kinds of bus access that `BusError` distinguishes (R79). -/
inductive AccessKind where
  | fetch
  | read
  | write
  | vector
deriving DecidableEq, Repr

/-- Access widths: byte, halfword, word (R75). -/
inductive Width where
  | byte
  | half
  | word
deriving DecidableEq, Repr

/-- Where an interrupt's vector comes from: the AVEC input, or the seven-bit vector number input (R330). -/
inductive VectorSource where
  | avec
  | number (n : BitVec 7)
deriving DecidableEq, Repr

/-- One row of the platform's `BusError` predicate: accesses of this width, kind and mode whose address
lies in `base` to `base + size - 1` end with TEA (R79). -/
structure BusErrorRow where
  base : Nat
  size : Nat
  width : Width
  kind : AccessKind
  supervisor : Bool
deriving DecidableEq, Repr

/-- One row of the platform's `BrkReqFetch` and `BrkReqData` predicates: accesses of this width and kind
whose address lies in `base` to `base + size - 1` are marked with BRKREQ (R325). -/
structure BrkReqRow where
  base : Nat
  size : Nat
  width : Width
  kind : AccessKind
deriving DecidableEq, Repr

/-- What answers at an address (`MemMap`, D19; entry 38). -/
inductive Answer where
  /-- memory that stores change -/
  | ram
  /-- memory that stores do not change -/
  | rom
  /-- a device: what a read of it gives is not the core's to say -/
  | device
  /-- nothing -/
  | nothing
deriving DecidableEq, Repr

/-- One row of the platform's `MemMap`: what answers accesses with these attributes (R71) in the words whose
address lies in `base` to `base + size - 1`. -/
structure MapRow where
  base : Nat
  size : Nat
  supervisor : Bool
  program : Bool
  answer : Answer
deriving DecidableEq, Repr

/-- The levels on the core's inputs at one recognition point (R330, R334, `92_eei_decisions.md`). -/
structure Inputs where
  /-- hard reset (R380), with the contents memory has after it (R63: the platform's; entry 21) -/
  hardReset : Option (List Host.Cell)
  /-- SRST (R351) -/
  srst : Bool
  /-- INT with its vector source (R331) -/
  int : Option VectorSource
  /-- FINT with its vector source (R332) -/
  fint : Option VectorSource
  /-- the 32 GSR input lines (R57) -/
  gsr : Word
  /-- `BusError` (R79) -/
  busErrors : List BusErrorRow
  /-- `BrkReqFetch` and `BrkReqData` (R325) -/
  brkReqs : List BrkReqRow
  /-- `MemMap` (R6, R87): the first row that covers an access says what answers it, RAM where none does
  (entry 38) -/
  memMap : List MapRow
deriving DecidableEq, Repr

/-- Memory: the bytes that differ from what an unlisted address reads as, addresses strictly rising. -/
abbrev Memory := List Host.Cell

/-- The machine's state. -/
structure State where
  /-- the general file R0 to R15 (R21) -/
  regs : Vector Word 16
  /-- the alternate file (R25) -/
  altRegs : Vector Word 16
  /-- the program counter (R26) -/
  pc : Word
  /-- CR0 (R32) -/
  psr : Psr
  /-- CR1, bits 31:10; bits 9:0 are hardwired to zero (R52) -/
  vbr : BitVec 22
  /-- CR2 (R53) -/
  epsr : Word
  /-- CR4 (R53) -/
  epc : Word
  /-- CR3 (R54) -/
  fpsr : Word
  /-- CR5 (R54) -/
  fpc : Word
  /-- CR6 to CR10 (R55) -/
  ss : Vector Word 5
  /-- CR11 (R56) -/
  gcr : Word
  /-- memory (R70) -/
  mem : Memory
  /-- running, asleep or stuck (R293, R314) -/
  activity : Activity
  /-- T: a trace exception is due at the next boundary (R343) -/
  tracePending : Bool
  /-- B: a data breakpoint is due at the next boundary (R325) -/
  brkPending : Bool
  /-- SRST has been seen and soft reset processing waits for its negation (R351) -/
  softResetSeen : Bool
  /-- the `mtcr` hazard (R390) -/
  windows : Windows
  /-- addresses of the bytes stored since the last pipeline refill (R86) -/
  stale : List Nat
  /-- the input levels in force -/
  inputs : Inputs
  /-- the input levels of the coming steps, the next one first; after the last they hold (entry 13) -/
  upcoming : List Inputs
  /-- the model's own: how many free values have been drawn (entry 7) -/
  free : Nat
deriving DecidableEq, Repr

/-- The reasons a step stops with a fault: none. Every fault of the manual is an exception, which the
core takes and goes on from (R300); a core that is stuck (R314) waits for hard reset in a state of its
own. An empty type is safe: nothing can be hidden behind a fault. -/
inductive Fault where
deriving DecidableEq, Repr

/-- The reasons a step stops without a next state. Each is a situation that the spec gives no behaviour
(`refuse`); stopping is safe, for no claim about what follows can be proved. -/
inductive Refusal where
  /-- raised by `exec`'s arm of an instruction that has no meaning yet; safe -/
  | notModelled (mnemonic : String)
  /-- raised by `mfcr` and `mtcr` of CR13 to CR31 in supervisor mode (R60, D4); safe -/
  | unnamedControlRegister
  /-- raised by `mtcr` to CR0, CR2 or CR3 with an SP or reserved bit set, and by `rte` and `rfi` from such
  a shadow PSR (R34, R48, D3); safe -/
  | reservedPsrBits
  /-- raised by `mtcr` to CR0 with TM = 10, and by `rte` and `rfi` from such a shadow PSR (R340, D18); safe -/
  | reservedTraceMode
  /-- raised by `jsr r15` (R392, D27); safe -/
  | jsrLinkRegister
  /-- raised by `ldm` and `stm` with Rf = R0 or R15 (R392, D27); safe -/
  | multipleFirstRegister
  /-- raised by `ldq` with a base in R4 to R7 (R392, D27); safe -/
  | quadrantBase
  /-- raised by an accelerator opcode whose unit is enabled (R292, D15); safe -/
  | acceleratorUnit
  /-- raised by `step` where the instruction lies in bytes stored since the last pipeline refill
  (R86, D11); safe -/
  | staleFetch
deriving DecidableEq, Repr

/-- What a meaning answers. -/
abbrev Result := Host.Outcome State Fault Refusal

/-- All windows closed (R390). -/
def Windows.closed : Windows := { s := [], tm := [], tc := [], ee := [], af := [] }

/-- Inputs with nothing asserted and RAM at every address (DESIGN CHOICE for reset, entries 6 and 38). -/
def Inputs.quiet : Inputs :=
  { hardReset := none, srst := false, int := none, fint := none, gsr := 0, busErrors := [], brkReqs := [],
    memMap := [] }

/-- The PSR after hard reset: S set, every other field zero (R63, R381). C is undefined there and zero
here (DESIGN CHOICE, entry 4; unsafe), AF is bit 0 of the reset vector. -/
def Psr.reset : Psr :=
  { s := true, sp := 0, u := 0, vec := 0, tm := 0, tc := false, sc := false, mm := false, ee := false,
    ic := false, ie := false, fe := false, af := false, c := false }

/-- The machine right after hard reset over memory that lists nothing (R63, R381): the reset vector reads
as zero, so AF and PC are zero (entries 1 and 5). The registers the spec gives no value hold zero
(DESIGN CHOICE, entries 2 and 3; unsafe). -/
def State.reset : State :=
  { regs := Vector.replicate 16 0
    altRegs := Vector.replicate 16 0
    pc := 0
    psr := Psr.reset
    vbr := 0
    epsr := 0
    epc := 0
    fpsr := 0
    fpc := 0
    ss := Vector.replicate 5 0
    gcr := 0
    mem := []
    activity := .running
    tracePending := false
    brkPending := false
    softResetSeen := false
    windows := Windows.closed
    stale := []
    inputs := Inputs.quiet
    upcoming := []
    free := 0 }

end Sys2Proof.Machine
end

