-- ==== Sys2Proof/Machine/Flags.lean ====
section
/-! DEFINITION. The values written to C, the one condition bit (R28). -/

namespace Sys2Proof.Machine

/-- The 33-bit sum of two words and a carry (R140). -/
def add33 (x y : Word) (c : Bool) : BitVec 33 :=
  x.setWidth 33 + y.setWidth 33 + (BitVec.ofBool c).setWidth 33

/-- The 33-bit difference with C as the inverse of a borrow: `x + ~y + C` (R144). -/
def sub33 (x y : Word) (c : Bool) : BitVec 33 := add33 x (~~~y) c

/-- The 32-bit result of a 33-bit sum. -/
def low32 (d : BitVec 33) : Word := d.extractLsb' 0 32

/-- The carry out of a 33-bit sum (R140, R144). -/
def carryOut (d : BitVec 33) : Bool := d.getLsbD 32

/-- Signed greater than zero (R160, R269). -/
def gtZero (r : Word) : Bool := BitVec.slt 0#32 r

/-- Signed less than zero: bit 31 (R161). -/
def ltZero (r : Word) : Bool := r.getLsbD 31

/-- Not zero (R162, R221). -/
def neZero (r : Word) : Bool := r != 0#32

/-- Unsigned higher or same (R225). -/
def higherSame (x y : Word) : Bool := BitVec.ule y x

/-- Signed less than (R226, R227). -/
def signedLess (x y : Word) : Bool := BitVec.slt x y

/-- Not equal (R228, R229). -/
def notEqual (x y : Word) : Bool := x != y

/-- The conjunction of two words is not zero (R231). -/
def commonBit (x y : Word) : Bool := x &&& y != 0#32

/-- Byte `k` of a word, byte 0 the most significant (R7). -/
def byteOf (x : Word) (k : Nat) : Byte := x.extractLsb' (8 * (3 - k)) 8

/-- No byte of the word is zero (R232). -/
def noZeroByte (x : Word) : Bool :=
  byteOf x 0 != 0#8 && byteOf x 1 != 0#8 && byteOf x 2 != 0#8 && byteOf x 3 != 0#8

end Sys2Proof.Machine
end

