-- ==== Sys2Proof/Machine/Ops.lean ====
section
/-! DEFINITION. The named operations over memory, registers and the status register; the completion of
an instruction; data accesses; taking an exception and returning from one; the two resets. -/

namespace Sys2Proof.Machine

/-! ## Memory (R70 to R73) -/

/-- What an address that memory does not list reads as (DESIGN CHOICE, entry 1; unsafe). -/
def Memory.unlisted : Byte := 0#8

/-- The byte at an address. -/
def Memory.get : Memory → Nat → Byte
  | [], _ => Memory.unlisted
  | (a, b) :: rest, k => if k = a then b else Memory.get rest k

/-- Lists a byte at its place, in place of an older entry of the same address. -/
def Memory.insertCell : Memory → Nat → Byte → Memory
  | [], k, v => [(k, v)]
  | (a, b) :: rest, k, v =>
    if k < a then (k, v) :: (a, b) :: rest
    else if k = a then (k, v) :: rest
    else (a, b) :: Memory.insertCell rest k v

/-- Writes one byte, keeping the canonical form. -/
def Memory.set (m : Memory) (k : Nat) (v : Byte) : Memory :=
  if v = Memory.unlisted then m.filter (fun c => c.1 != k) else m.insertCell k v

/-- The canonical form: addresses strictly rising and below 2^32, no entry equal to what an unlisted
address reads as. -/
def Memory.wf (m : Memory) : Bool :=
  decide (m.Pairwise (fun c d => c.1 < d.1)) &&
    m.all (fun c => decide (c.1 < 4294967296) && c.2 != Memory.unlisted)

/-- The canonical memory that holds the given cells, later cells winning (the image a hard reset
brings, entry 21). -/
def Memory.ofCells (cells : List Host.Cell) : Memory :=
  cells.foldl (fun m c => if c.1 < 4294967296 then Memory.set m c.1 c.2 else m) []

/-- The byte at a 32-bit address (R70). -/
def Memory.byte (m : Memory) (a : Word) : Byte := Memory.get m a.toNat

/-- Writes the byte at a 32-bit address. -/
def Memory.setByte (m : Memory) (a : Word) (v : Byte) : Memory := Memory.set m a.toNat v

/-- `MemRead` (R72): big-endian, a byte or halfword zero-extended to 32 bits (R75). -/
def Memory.read (w : Width) (m : Memory) (a : Word) : Word :=
  match w with
  | .byte => (m.byte a).setWidth 32
  | .half => (m.byte a ++ m.byte (a + 1)).setWidth 32
  | .word => m.byte a ++ m.byte (a + 1) ++ m.byte (a + 2) ++ m.byte (a + 3)

/-- `MemWrite` (R73): big-endian, the low byte or halfword of the value for the narrow widths. -/
def Memory.write (w : Width) (m : Memory) (a v : Word) : Memory :=
  match w with
  | .byte => m.setByte a (v.extractLsb' 0 8)
  | .half => (m.setByte a (v.extractLsb' 8 8)).setByte (a + 1) (v.extractLsb' 0 8)
  | .word =>
    (((m.setByte a (v.extractLsb' 24 8)).setByte (a + 1) (v.extractLsb' 16 8)).setByte (a + 2)
      (v.extractLsb' 8 8)).setByte (a + 3) (v.extractLsb' 0 8)

/-- How many bytes an access of this width moves (R75). -/
def Width.bytes : Width → Nat
  | .byte => 1
  | .half => 2
  | .word => 4

/-- "The next lower natural boundary" of an address (R76). -/
def Width.floor : Width → Word → Word
  | .byte, a => a
  | .half, a => a &&& 0xFFFFFFFE#32
  | .word, a => a &&& 0xFFFFFFFC#32

/-- The address lies on the natural boundary of the width (R76). -/
def Width.aligned (w : Width) (a : Word) : Bool := w.floor a == a

/-- The addresses an access of this width at this address covers. -/
def Width.footprint (w : Width) (a : Word) : List Nat :=
  (List.range w.bytes).map (fun k => (a + BitVec.ofNat 32 k).toNat)

/-- The low bits of a value that an access of this width moves, zero-extended (R75). -/
def Width.zext : Width → Word → Word
  | .byte, v => v &&& 0x000000FF#32
  | .half, v => v &&& 0x0000FFFF#32
  | .word, v => v

/-- An address with bit 0 cleared: every value the PC takes (R26). -/
def evenAddr (a : Word) : Word := a &&& 0xFFFFFFFE#32

/-! ## The status register as a word (R32) -/

/-- The 32-bit view of the PSR, TP and the reserved bits reading zero (R32, R38, R48). -/
def Psr.toWord (p : Psr) : Word :=
  BitVec.ofBool p.s ++ 0#1 ++ p.sp ++ p.u ++ 0#1 ++ p.vec ++ p.tm ++ 0#1 ++ BitVec.ofBool p.tc ++ 0#1 ++
    BitVec.ofBool p.sc ++ BitVec.ofBool p.mm ++ BitVec.ofBool p.ee ++ BitVec.ofBool p.ic ++
    BitVec.ofBool p.ie ++ 0#1 ++ BitVec.ofBool p.fe ++ 0#2 ++ BitVec.ofBool p.af ++ BitVec.ofBool p.c

/-- The PSR that a 32-bit word denotes, TP and the reserved bits dropped (R32, R38, R48). -/
def Psr.ofWord (w : Word) : Psr :=
  { s := w.getLsbD 31, sp := w.extractLsb' 28 2, u := w.extractLsb' 24 4, vec := w.extractLsb' 16 7,
    tm := w.extractLsb' 14 2, tc := w.getLsbD 12, sc := w.getLsbD 10, mm := w.getLsbD 9,
    ee := w.getLsbD 8, ic := w.getLsbD 7, ie := w.getLsbD 6, fe := w.getLsbD 4, af := w.getLsbD 1,
    c := w.getLsbD 0 }

/-- TP, bit 13 of a shadow PSR (R38). -/
def shadowTp (w : Word) : Bool := w.getLsbD 13

/-- The copy of the PSR an exception saves, with the trace-pending bit given (R310, R344). -/
def Psr.toShadow (p : Psr) (tp : Bool) : Word := p.toWord ||| (if tp then 0x00002000#32 else 0#32)

/-- The bits of a PSR image that must be zero: SP (29:28) and the reserved bits 30, 23, 11, 5, 3, 2
(R34, R48). -/
def psrZeroBits : Word := 0x7080082C#32

/-- The image has no SP and no reserved bit set (R34, R48). -/
def psrBitsOk (w : Word) : Bool := w &&& psrZeroBits == 0#32

/-- The image's TM is not the reserved value 10 (R37, R340). -/
def traceModeOk (w : Word) : Bool := w.extractLsb' 14 2 != 2#2

/-- A free value for a register with the PSR's layout: its reserved and SP bits read zero (R48). -/
def freePsrImage (n : Nat) : Word := Config.freeWord n &&& ~~~psrZeroBits

/-! ## Values in effect (R390)

While a window is open a field is seen with an older value; `settle` (Boundary.lean) decides at each
step how long. With the windows closed these are the fields of the PSR. -/

/-- S in effect. -/
def State.supervisor (s : State) : Bool := s.windows.s.headD s.psr.s

/-- TM in effect. -/
def State.traceMode (s : State) : BitVec 2 := s.windows.tm.headD s.psr.tm

/-- TC in effect: the TE output (R39). -/
def State.teOutput (s : State) : Bool := s.windows.tc.headD s.psr.tc

/-- EE in effect. -/
def State.shadowsFree (s : State) : Bool := s.windows.ee.headD s.psr.ee

/-- AF in effect. -/
def State.altFile (s : State) : Bool := s.windows.af.headD s.psr.af

/-! ## Registers (R22) -/

/-- `x[i]`: register Ri of the file that AF selects (R8, R22). -/
def State.reg (s : State) (i : Reg) : Word :=
  if s.altFile then s.altRegs[i.toNat]'i.isLt else s.regs[i.toNat]'i.isLt

/-- `x[i] <- v` (R8, R22). -/
def State.setReg (s : State) (i : Reg) (v : Word) : State :=
  { s with
    regs := if s.altFile then s.regs else s.regs.set i.toNat v i.isLt
    altRegs := if s.altFile then s.altRegs.set i.toNat v i.isLt else s.altRegs }

/-- `C <- b` (R8). -/
def State.setC (s : State) (b : Bool) : State := { s with psr := { s.psr with c := b } }

/-- Counts `n` free values as drawn. -/
def State.drawn (s : State) (n : Nat) : State := { s with free := s.free + n }

/-! ## Control registers (R30) -/

/-- The 32-bit value of VBR, its low ten bits zero (R52). -/
def State.vbrWord (s : State) : Word := s.vbr ++ 0#10

/-- What `mfcr` reads (R286). -/
def State.readCtrl (s : State) : CtrlReg → Word
  | .psr => s.psr.toWord
  | .vbr => s.vbrWord
  | .epsr => s.epsr
  | .fpsr => s.fpsr
  | .epc => s.epc
  | .fpc => s.fpc
  | .ss k => s.ss[k.val]'k.isLt
  | .gcr => s.gcr
  | .gsr => s.inputs.gsr

/-- The window of a field after an `mtcr` that may have changed it: a changed value leaves the old one
behind (R390). -/
def pushOld {α : Type} [DecidableEq α] (old new : α) (older : List α) : List α :=
  if old = new then older else older ++ [old]

/-- `mtcr` to CR0: the PSR at once, and a window for each of S, TM, TC, EE, AF whose value it changes
(R287, R390). -/
def State.writePsr (s : State) (v : Word) : State :=
  { s with
    psr := Psr.ofWord v
    windows :=
      { s := pushOld s.psr.s (Psr.ofWord v).s s.windows.s
        tm := pushOld s.psr.tm (Psr.ofWord v).tm s.windows.tm
        tc := pushOld s.psr.tc (Psr.ofWord v).tc s.windows.tc
        ee := pushOld s.psr.ee (Psr.ofWord v).ee s.windows.ee
        af := pushOld s.psr.af (Psr.ofWord v).af s.windows.af } }

/-- What `mtcr` writes (R287): all 32 bits but for PSR (R51), VBR (R52) and the read-only GSR (R57). -/
def State.writeCtrl (s : State) (v : Word) : CtrlReg → State
  | .psr => s.writePsr v
  | .vbr => { s with vbr := v.extractLsb' 10 22 }
  | .epsr => { s with epsr := v }
  | .fpsr => { s with fpsr := v }
  | .epc => { s with epc := v }
  | .fpc => { s with fpc := v }
  | .ss k => { s with ss := s.ss.set k.val v k.isLt }
  | .gcr => { s with gcr := v }
  | .gsr => s

/-- Why a value written to a control register has no defined effect, if so: SP or reserved bits in a PSR
image (R34, R48), TM = 10 in the PSR (R340). -/
def ctrlWriteRefusal (v : Word) : CtrlReg → Option Refusal
  | .psr =>
    if !psrBitsOk v then some .reservedPsrBits
    else if !traceModeOk v then some .reservedTraceMode
    else none
  | .epsr => if psrBitsOk v then none else some .reservedPsrBits
  | .fpsr => if psrBitsOk v then none else some .reservedPsrBits
  | .vbr | .epc | .fpc | .ss _ | .gcr | .gsr => none

/-! ## Completing an instruction (R27, R343, R363) -/

/-- The instruction in execution is to be traced when it completes: instruction trace mode, or change of
flow trace mode and an instruction of R266 (R340, R341). -/
def State.traced (s : State) (flow : Bool) : Bool :=
  s.traceMode == 1#2 || (flow && s.traceMode == 3#2)

/-- Completes an instruction that does not change flow: the next one is at `pc + 2` (R27). -/
def State.advance (s : State) : State :=
  { s with pc := s.pc + 2, tracePending := s.traced false }

/-- Completes an instruction that is never traced and does not change flow (R346). -/
def State.advanceUntraced (s : State) : State := { s with pc := s.pc + 2, tracePending := false }

/-- Completes a change of flow that is not taken (R341). -/
def State.fallThrough (s : State) : State :=
  { s with pc := s.pc + 2, tracePending := s.traced true }

/-- Completes a taken change of flow, which refills the pipeline (R86, R266). -/
def State.flowTo (s : State) (target : Word) : State :=
  { s with pc := target, tracePending := s.traced true, stale := [] }

/-- Writes a register and completes. -/
def State.completeReg (s : State) (i : Reg) (v : Word) : Result := .next (s.setReg i v).advance

/-- Writes C and completes. -/
def State.completeC (s : State) (b : Bool) : Result := .next (s.setC b).advance

/-- Writes a register and C and completes. -/
def State.completeRegC (s : State) (i : Reg) (v : Word) (b : Bool) : Result :=
  .next ((s.setReg i v).setC b).advance

/-- Writes a register if the condition holds, and completes (R28: conditional execution). -/
def State.completeRegIf (s : State) (cond : Bool) (i : Reg) (v : Word) : Result :=
  if cond then s.completeReg i v else .next s.advance

/-! ## The platform's answers to an access (R79, R325) -/

/-- The row covers this access. -/
def BusErrorRow.covers (r : BusErrorRow) (a : Word) (w : Width) (k : AccessKind) (supervisor : Bool) :
    Bool :=
  decide (r.base ≤ a.toNat) && decide (a.toNat < r.base + r.size) && r.width == w && r.kind == k &&
    r.supervisor == supervisor

/-- The row covers this access. -/
def BrkReqRow.covers (r : BrkReqRow) (a : Word) (w : Width) (k : AccessKind) : Bool :=
  decide (r.base ≤ a.toNat) && decide (a.toNat < r.base + r.size) && r.width == w && r.kind == k

/-- `BusError` (R79): TEA ends this access, made in the mode in effect (R71). -/
def State.busError (s : State) (a : Word) (w : Width) (k : AccessKind) : Bool :=
  s.inputs.busErrors.any (fun r => r.covers a w k s.supervisor)

/-- `BrkReqFetch`, `BrkReqData` (R325): BRKREQ marks this access. -/
def State.brkReq (s : State) (a : Word) (w : Width) (k : AccessKind) : Bool :=
  s.inputs.brkReqs.any (fun r => r.covers a w k)

/-! ## What answers an access (`MemMap`: R6, R87, D19; entry 38) -/

/-- The row covers the word that the access lies in, under these attributes (R71). -/
def MapRow.covers (r : MapRow) (a : Word) (supervisor program : Bool) : Bool :=
  decide (r.base ≤ (Width.word.floor a).toNat) && decide ((Width.word.floor a).toNat < r.base + r.size) &&
    r.supervisor == supervisor && r.program == program

/-- What answers at an address: the first row that covers it, RAM where none does. -/
def platformAnswer (rows : List MapRow) (a : Word) (supervisor program : Bool) : Answer :=
  match rows.find? (fun r => r.covers a supervisor program) with
  | some r => r.answer
  | none => .ram

/-- A read gives what memory holds. -/
def Answer.reads : Answer → Bool
  | .ram => true
  | .rom => true
  | .device => false
  | .nothing => false

/-- A store changes memory. -/
def Answer.writes : Answer → Bool
  | .ram => true
  | .rom => false
  | .device => false
  | .nothing => false

/-- What answers an access made in the mode in effect (R71). -/
def State.answer (s : State) (a : Word) (program : Bool) : Answer :=
  platformAnswer s.inputs.memMap a s.supervisor program

/-- What a read gives: the bytes of memory, or a free value where memory does not answer. -/
def State.busRead (s : State) (w : Width) (a : Word) (program : Bool) : Word :=
  if (s.answer a program).reads then s.mem.read w a else w.zext (Config.freeWord s.free)

/-- The state after that read: a free value has been drawn where memory does not answer. -/
def State.afterRead (s : State) (a : Word) (program : Bool) : State :=
  s.drawn (if (s.answer a program).reads then 0 else 1)

/-! ## Taking an exception (R300, R310, R313, R314) -/

/-- Vector numbers of Table 4-1 (R300). -/
def vecMisaligned : BitVec 7 := 1#7
/-- Access error (R300). -/
def vecAccessError : BitVec 7 := 2#7
/-- Divide by zero (R300). -/
def vecDivideByZero : BitVec 7 := 3#7
/-- Illegal instruction (R300). -/
def vecIllegal : BitVec 7 := 4#7
/-- Privilege violation (R300). -/
def vecPrivilege : BitVec 7 := 5#7
/-- Trace (R300). -/
def vecTrace : BitVec 7 := 6#7
/-- Breakpoint (R300). -/
def vecBreakpoint : BitVec 7 := 7#7
/-- Unrecoverable error (R300). -/
def vecUnrecoverable : BitVec 7 := 8#7
/-- Soft reset (R300). -/
def vecSoftReset : BitVec 7 := 9#7
/-- INT autovector (R300). -/
def vecInt : BitVec 7 := 10#7
/-- FINT autovector (R300). -/
def vecFint : BitVec 7 := 11#7
/-- Hardware accelerator (R300). -/
def vecAccelerator : BitVec 7 := 12#7
/-- `trap #n`: 16 + n (R281, R300). -/
def vecTrap (n : BitVec 2) : BitVec 7 := 16#7 + n.setWidth 7

/-- The address of vector table entry `n`: `VBR + 4 n` (R301). -/
def State.vectorAddr (s : State) (n : BitVec 7) : Word := s.vbrWord + (n.setWidth 32 <<< 2)

/-- Loads PC and AF from a vector word (R313). -/
def State.loadVector (s : State) (w : Word) : State :=
  { s with pc := evenAddr w, psr := { s.psr with af := w.getLsbD 0 } }

/-- Reads the word of vector `n`, a program access (R71), and goes to its handler (R313). -/
def State.goToHandler (s : State) (n : BitVec 7) : State :=
  (s.afterRead (s.vectorAddr n) true).loadVector (s.busRead .word (s.vectorAddr n) true)

/-- The state in which vector 8 is fetched after a bus error on another vector: EPSR and EPC are free
values, VEC is 8 (R314). -/
def State.unrecoverable (s : State) : State :=
  { s with
    epsr := freePsrImage s.free
    epc := Config.freeWord (s.free + 1)
    psr := { s.psr with vec := vecUnrecoverable }
    free := s.free + 2 }

/-- The core is stuck until hard reset (R314). -/
def State.getStuck (s : State) : State := { s with activity := .stuck }

/-- Step 3 of exception processing: the vector fetch, and what a bus error on it does (R313, R314). -/
def State.vectorFetch (s : State) (n : BitVec 7) : State :=
  if s.busError (s.vectorAddr n) .word .vector then
    if n = vecUnrecoverable then s.getStuck
    else if s.unrecoverable.busError (s.vectorAddr vecUnrecoverable) .word .vector then
      s.unrecoverable.getStuck
    else s.unrecoverable.goToHandler vecUnrecoverable
  else s.goToHandler n

/-- The vector really taken: 8 for any exception but a fast interrupt while EE is clear (R310, R323). -/
def State.vectorTaken (s : State) (n : BitVec 7) (fast : Bool) : BitVec 7 :=
  if !fast && !s.shadowsFree then vecUnrecoverable else n

/-- Steps 1 and 2 of exception processing: the PSR with `tp` in TP and the return PC go to the shadow
pair, then S is set and EE, TM, IE, TC, SC (and FE for a fast interrupt) are cleared, VEC is written and
C becomes a free value (R310, R315). The windows close (R390), the pipeline is refilled (R86), the
pending flags are cleared (R310) and a low-power state is left (R293). -/
def State.saveContext (s : State) (n : BitVec 7) (ret : Word) (fast tp : Bool) : State :=
  { s with
    epsr := if fast then s.epsr else s.psr.toShadow tp
    epc := if fast then s.epc else ret
    fpsr := if fast then s.psr.toShadow tp else s.fpsr
    fpc := if fast then ret else s.fpc
    psr :=
      { s.psr with
        s := true, vec := n, tm := 0, tc := false, sc := false, ee := false, ie := false
        fe := s.psr.fe && !fast
        c := Config.freeBit s.free }
    free := s.free + 1
    tracePending := false
    brkPending := false
    windows := Windows.closed
    stale := []
    activity := .running }

/-- `Enter(n, ret, fast, tp)` (R310): TAKING AN EXCEPTION. -/
def State.enter (s : State) (n : BitVec 7) (ret : Word) (fast tp : Bool) : State :=
  (s.saveContext (s.vectorTaken n fast) ret fast tp).vectorFetch (s.vectorTaken n fast)

/-- `raise E(ret)` (R8, R363): an exception of the instruction in execution. -/
def State.raise (s : State) (n : BitVec 7) (ret : Word) : State := s.enter n ret false false

/-- The PSR and the PC of a shadow pair, restored together; TP in the shadow PSR makes a trace exception
due (R282, R283, R345). -/
def State.restored (s : State) (shadow ret : Word) : State :=
  { s with
    psr := Psr.ofWord shadow
    pc := evenAddr ret
    tracePending := shadowTp shadow
    windows := Windows.closed
    stale := [] }

/-- RETURNING FROM AN EXCEPTION through a shadow pair (R282, R283): an image with SP or reserved bits set
(R34, R48) or the reserved trace mode (R340) has no meaning. -/
def State.returnThrough (s : State) (shadow ret : Word) : Result :=
  if !psrBitsOk shadow then .refused .reservedPsrBits
  else if !traceModeOk shadow then .refused .reservedTraceMode
  else .next (s.restored shadow ret)

/-- Runs a privileged instruction in supervisor mode and raises privilege violation in user mode (R284). -/
def State.privileged (s : State) (run : Result) : Result :=
  if s.supervisor then run else .next (s.raise vecPrivilege s.pc)

/-! ## Data accesses (R76, R79, R251) -/

/-- The outcome of a data access: done with a value, or an exception to raise with its return PC. -/
inductive Access (α : Type) where
  | done (x : α) (s : State)
  | raised (n : BitVec 7) (ret : Word) (s : State)

/-- Completes an instruction after its accesses, or raises the exception. -/
def Access.finish {α : Type} (r : Access α) (f : α → State → State) : Result :=
  match r with
  | .done x s => .next (f x s)
  | .raised n ret s => .next (s.raise n ret)

/-- The state an access sequence ends in, whether or not it raised an exception. -/
def Access.reached {α : Type} : Access α → State
  | .done _ s => s
  | .raised _ _ s => s

/-- `DataAddr(ea, n)` (R76): nothing where the access is misaligned and MM is clear. -/
def State.dataAddr (s : State) (w : Width) (ea : Word) : Option Word :=
  if w.aligned ea then some ea else if s.psr.mm then some (w.floor ea) else none

/-- The exception of an access that TEA ends: access error (R318), or breakpoint when BRKREQ marks the same
access (R362; entry 16). A mark on an earlier access of the instruction is dropped with the entry (R310). -/
def State.busFault (s : State) (a : Word) (w : Width) (k : AccessKind) : BitVec 7 :=
  if s.brkReq a w k then vecBreakpoint else vecAccessError

/-- Records a BRKREQ mark on an access that completed (R325). -/
def State.noteAccess (s : State) (a : Word) (w : Width) (k : AccessKind) : State :=
  { s with brkPending := s.brkPending || s.brkReq a w k }

/-- A read at an aligned address, with its program or data attribute (R71, R72, R79). -/
def State.readAt (s : State) (w : Width) (a : Word) (program : Bool) : Access Word :=
  if s.busError a w .read then .raised (s.busFault a w .read) s.pc s
  else .done (s.busRead w a program) ((s.afterRead a program).noteAccess a w .read)

/-- The bytes of a store, which memory takes where RAM answers (entry 38), and their entry in the list of
stale bytes (R73, R86). -/
def State.store (s : State) (w : Width) (a v : Word) : State :=
  { s with
    mem := if (s.answer a false).writes then s.mem.write w a v else s.mem
    stale := w.footprint a ++ s.stale }

/-- A write at an aligned address (R73, R79). -/
def State.writeAt (s : State) (w : Width) (a v : Word) : Access Unit :=
  if s.busError a w .write then .raised (s.busFault a w .write) s.pc s
  else .done () ((s.store w a v).noteAccess a w .write)

/-- A load access: alignment, then the read (R251). -/
def State.loadData (s : State) (w : Width) (ea : Word) : Access Word :=
  match s.dataAddr w ea with
  | none => .raised vecMisaligned s.pc s
  | some a => s.readAt w a false

/-- A store access: alignment, then the write (R251). -/
def State.storeData (s : State) (w : Width) (ea v : Word) : Access Unit :=
  match s.dataAddr w ea with
  | none => .raised vecMisaligned s.pc s
  | some a => s.writeAt w a v

/-- Loads registers from ascending words up to the first access error (R246, R248). -/
def loadWords : List Reg → Word → State → Access Unit
  | [], _, s => .done () s
  | r :: rs, a, s =>
    match s.readAt .word a false with
    | .done v t => loadWords rs (a + 4) (t.setReg r v)
    | .raised n ret t => .raised n ret t

/-- Stores values to ascending words up to the first access error (R247, R249). -/
def storeWords : List Word → Word → State → Access Unit
  | [], _, s => .done () s
  | v :: vs, a, s =>
    match s.writeAt .word a v with
    | .done _ t => storeWords vs (a + 4) t
    | .raised n ret t => .raised n ret t

/-- A transfer `whole` from the state `s`; where an access error ends it, a free number of the accesses before
that one have been made (R83, U28). `part k` makes the first `k` of them and stops where `whole` does, so that
the access in error is never among them (DEDUCED, entry 39). -/
def Access.cutShort (whole : Access Unit) (s : State) (part : Nat → State → Access Unit) : Access Unit :=
  match whole with
  | .done x t => .done x t
  | .raised n ret _ => .raised n ret (part (Config.freeWord s.free).toNat (s.drawn 1)).reached

/-- `ldm` and `ldq` after their form check: alignment of the base once, then the words (R76, R246). -/
def State.loadMultiple (s : State) (base : Word) (rs : List Reg) : Access Unit :=
  match s.dataAddr .word base with
  | none => .raised vecMisaligned s.pc s
  | some a => (loadWords rs a s).cutShort s (fun k => loadWords (rs.take k) a)

/-- `stm` and `stq`: alignment of the base once, then the words (R76, R247). -/
def State.storeMultiple (s : State) (base : Word) (vs : List Word) : Access Unit :=
  match s.dataAddr .word base with
  | none => .raised vecMisaligned s.pc s
  | some a => (storeWords vs a s).cutShort s (fun k => storeWords (vs.take k) a)

/-! ## The resets (R380 to R384) -/

/-- The state in which hard reset fetches its vector (R381): every register without a stated value is a
free value, memory is what the platform presents (entry 21). -/
def State.hardCleared (s : State) (cells : List Host.Cell) : State :=
  { s with
    regs := Vector.ofFn (fun i => Config.freeWord (s.free + i.val))
    altRegs := Vector.ofFn (fun i => Config.freeWord (s.free + 16 + i.val))
    psr := { Psr.reset with c := Config.freeBit s.free }
    vbr := 0
    epsr := freePsrImage (s.free + 32)
    epc := Config.freeWord (s.free + 33)
    fpsr := freePsrImage (s.free + 34)
    fpc := Config.freeWord (s.free + 35)
    ss := Vector.ofFn (fun i => Config.freeWord (s.free + 36 + i.val))
    gcr := Config.freeWord (s.free + 41)
    mem := Memory.ofCells cells
    activity := .running
    tracePending := false
    brkPending := false
    softResetSeen := false
    windows := Windows.closed
    stale := []
    free := s.free + 42 }

/-- Hard reset processing (R381). -/
def State.hardReset (s : State) (cells : List Host.Cell) : State := (s.hardCleared cells).vectorFetch 0#7

/-- The state in which soft reset fetches its vector (R382, R383): U3 to U0, MM, C, EPSR and EPC are free
values; general registers, the other control registers and memory keep theirs. -/
def State.softCleared (s : State) : State :=
  { s with
    psr :=
      { s.psr with
        s := true, sp := 0, vec := vecSoftReset, tm := 0, tc := false, sc := false, ee := false
        ic := false, ie := false, fe := false
        u := (Config.freeWord s.free).setWidth 4
        mm := Config.freeBit s.free
        c := Config.freeBit (s.free + 1) }
    vbr := 0
    epsr := freePsrImage (s.free + 1)
    epc := Config.freeWord (s.free + 2)
    activity := .running
    tracePending := false
    brkPending := false
    softResetSeen := false
    windows := Windows.closed
    stale := []
    free := s.free + 3 }

/-- Soft reset processing (R382). -/
def State.softReset (s : State) : State := s.softCleared.vectorFetch vecSoftReset

end Sys2Proof.Machine
end

