-- ==== Sys2Proof/Machine/Operands.lean ====
section
/-! DEFINITION. The operand forms of R104 to R117: immediates, effective addresses, branch targets,
register lists, control register numbers. -/

namespace Sys2Proof.Machine

/-! ## Immediates -/

/-- IMM5: 0 to 31 (R106). -/
def imm5Value (f : BitVec 5) : Word := f.setWidth 32

/-- OIMM5: the field plus one, 1 to 32 (R107). -/
def oimm5Value (f : BitVec 5) : Word := f.setWidth 32 + 1

/-- IMM7: 0 to 127 (R108). -/
def imm7Value (f : BitVec 7) : Word := f.setWidth 32

/-! ## Register operands -/

/-- The count of a dynamic shift: the low six bits of RY, 0 to 63 (R201). -/
def State.shiftCount (s : State) (ry : Reg) : Nat := ((s.reg ry).extractLsb' 0 6).toNat

/-- The sixteen register numbers in order. -/
def allRegs : List Reg :=
  [0#4, 1#4, 2#4, 3#4, 4#4, 5#4, 6#4, 7#4, 8#4, 9#4, 10#4, 11#4, 12#4, 13#4, 14#4, 15#4]

/-- The registers Rf to R15 that `ldm` and `stm` transfer (R111). -/
def regsFrom (rf : Reg) : List Reg := allRegs.drop rf.toNat

/-- The quadrant R4 to R7 that `ldq` and `stq` transfer (R111). -/
def quadRegs : List Reg := [4#4, 5#4, 6#4, 7#4]

/-- The register lies in the quadrant R4 to R7. -/
def inQuad (r : Reg) : Bool := decide (4#4 ≤ r) && decide (r ≤ 7#4)

/-- The first register of a valid `ldm` or `stm`: R1 to R14 (R246, R392). -/
def firstRegOk (rf : Reg) : Bool := rf != r0 && rf != r15

/-- The words `stq` stores: R4 to R7, but a free value for the base register where it is one of them
(R249, R392; U25). -/
def State.quadValues (s : State) (rx : Reg) : List Word :=
  quadRegs.map (fun r => if r = rx then Config.freeWord s.free else s.reg r)

/-- The control register a field names; none for CR13 to CR31 (R30, R60). -/
def ctrlReg (c : CregField) : Option CtrlReg :=
  if c = 0#5 then some .psr
  else if c = 1#5 then some .vbr
  else if c = 2#5 then some .epsr
  else if c = 3#5 then some .fpsr
  else if c = 4#5 then some .epc
  else if c = 5#5 then some .fpc
  else if c = 6#5 then some (.ss 0)
  else if c = 7#5 then some (.ss 1)
  else if c = 8#5 then some (.ss 2)
  else if c = 9#5 then some (.ss 3)
  else if c = 10#5 then some (.ss 4)
  else if c = 11#5 then some .gcr
  else if c = 12#5 then some .gsr
  else none

/-! ## Effective addresses and targets -/

/-- How far IMM4 is shifted left for an access width (R110). -/
def Width.scale : Width → Nat
  | .byte => 0
  | .half => 1
  | .word => 2

/-- Scaled 4-bit immediate mode: `x[rx] + (IMM4 << k)` (R110). -/
def State.scaledAddr (s : State) (w : Width) (rx : Reg) (imm4 : BitVec 4) : Word :=
  s.reg rx + (imm4.setWidth 32 <<< w.scale)

/-- Load relative word and indirect modes: `(pc + 2 + (DISP_8 << 2)) & 0xFFFFFFFC` (R112, R115). -/
def State.literalAddr (s : State) (disp8 : BitVec 8) : Word :=
  (s.pc + 2#32 + (disp8.setWidth 32 <<< 2)) &&& 0xFFFFFFFC#32

/-- The literal word of `lrw`, `jmpi` and `jsri`; its program or data attribute is not said (R71, N8;
entry 18). -/
def State.readLiteral (s : State) (disp8 : BitVec 8) : Access Word :=
  s.readAt .word (s.literalAddr disp8) Config.literalIsProgram

/-- Scaled 11-bit displacement mode: `pc + 2 + (sext(d) << 1)` (R113). -/
def State.branchTarget (s : State) (disp11 : BitVec 11) : Word :=
  s.pc + 2#32 + (disp11.signExtend 32 <<< 1)

/-- Register with 4-bit negative displacement mode: DISP_4 extended with ones and shifted left by one
(R117). -/
def State.loopTarget (s : State) (disp4 : BitVec 4) : Word :=
  s.pc + 2#32 + (((0xFFFFFFF#28 ++ disp4 : BitVec 32)) <<< 1)

/-- Register mode: the register with bit 0 cleared (R114). -/
def State.jumpTarget (s : State) (rx : Reg) : Word := evenAddr (s.reg rx)

/-- The return address a subroutine call leaves in R15 (R27). -/
def State.linkValue (s : State) : Word := s.pc + 2

end Sys2Proof.Machine
end

