-- ==== Sys2Proof/Machine/Arith.lean ====
section
/-! DEFINITION. Integer arithmetic instructions (R140 to R162). Every sum, difference and product is
modulo 2^32 (R148). -/

namespace Sys2Proof.Machine

/-! ## Add and subtract -/

/-- `addc` (R140). -/
def execAddc (ry rx : Reg) (s : State) : Result :=
  let d := add33 (s.reg rx) (s.reg ry) s.psr.c
  s.completeRegC rx (low32 d) (carryOut d)

/-- `addi` (R141). -/
def execAddi (oimm5 : BitVec 5) (rx : Reg) (s : State) : Result :=
  s.completeReg rx (s.reg rx + oimm5Value oimm5)

/-- `addu` (R142). -/
def execAddu (ry rx : Reg) (s : State) : Result := s.completeReg rx (s.reg rx + s.reg ry)

/-- `subu` (R143). -/
def execSubu (ry rx : Reg) (s : State) : Result := s.completeReg rx (s.reg rx - s.reg ry)

/-- `subc` (R144). -/
def execSubc (ry rx : Reg) (s : State) : Result :=
  let d := sub33 (s.reg rx) (s.reg ry) s.psr.c
  s.completeRegC rx (low32 d) (carryOut d)

/-- `rsub` (R145). -/
def execRsub (ry rx : Reg) (s : State) : Result := s.completeReg rx (s.reg ry - s.reg rx)

/-- `subi` (R146). -/
def execSubi (oimm5 : BitVec 5) (rx : Reg) (s : State) : Result :=
  s.completeReg rx (s.reg rx - oimm5Value oimm5)

/-- `rsubi` (R149). -/
def execRsubi (imm5 : BitVec 5) (rx : Reg) (s : State) : Result :=
  s.completeReg rx (imm5Value imm5 - s.reg rx)

/-- `abs` (R150): the most negative number is its own absolute value. -/
def execAbs (rx : Reg) (s : State) : Result :=
  s.completeReg rx (if ltZero (s.reg rx) then 0#32 - s.reg rx else s.reg rx)

/-! ## Multiply and divide -/

/-- `mult` (R147): the low 32 bits of the product. -/
def execMult (ry rx : Reg) (s : State) : Result := s.completeReg rx (s.reg rx * s.reg ry)

/-- The divisor of `divs` and `divu` is R1; a zero one raises divide by zero before anything is written
(R153, R319). After a completed divide C is a free value (R153, D31); `draws` counts the free values
the quotient used. -/
def State.divide (s : State) (rx : Reg) (quotient : Word) (draws : Nat) : Result :=
  if s.reg r1 = 0#32 then .next (s.raise vecDivideByZero s.pc)
  else (s.drawn (draws + 1)).completeRegC rx quotient (Config.freeBit s.free)

/-- The signed quotient, truncated toward zero (R151, R153; D8). -/
def signedQuotient (x y : Word) : Word := BitVec.ofInt 32 (Int.tdiv x.toInt y.toInt)

/-- The one signed division whose result is undefined (R151). -/
def signedOverflow (x y : Word) : Bool := x == 0x80000000#32 && y == 0xFFFFFFFF#32

/-- `divs` (R151): the quotient of 0x80000000 by 0xFFFFFFFF is a free value (U6). -/
def execDivs (rx : Reg) (s : State) : Result :=
  if signedOverflow (s.reg rx) (s.reg r1) then s.divide rx (Config.freeWord s.free) 1
  else s.divide rx (signedQuotient (s.reg rx) (s.reg r1)) 0

/-- `divu` (R152): defined for every nonzero divisor (C16). -/
def execDivu (rx : Reg) (s : State) : Result := s.divide rx (s.reg rx / s.reg r1) 0

/-! ## Index -/

/-- `ixh` (R154). -/
def execIxh (ry rx : Reg) (s : State) : Result := s.completeReg rx (s.reg rx + (s.reg ry <<< 1))

/-- `ixw` (R155). -/
def execIxw (ry rx : Reg) (s : State) : Result := s.completeReg rx (s.reg rx + (s.reg ry <<< 2))

/-! ## Conditional increment and decrement -/

/-- `incf` (R156). -/
def execIncf (rx : Reg) (s : State) : Result := s.completeRegIf (!s.psr.c) rx (s.reg rx + 1)

/-- `inct` (R157). -/
def execInct (rx : Reg) (s : State) : Result := s.completeRegIf s.psr.c rx (s.reg rx + 1)

/-- `decf` (R158). -/
def execDecf (rx : Reg) (s : State) : Result := s.completeRegIf (!s.psr.c) rx (s.reg rx - 1)

/-- `dect` (R159). -/
def execDect (rx : Reg) (s : State) : Result := s.completeRegIf s.psr.c rx (s.reg rx - 1)

/-! ## Decrement and test -/

/-- `decgt` (R160): the comparison is signed. -/
def execDecgt (rx : Reg) (s : State) : Result :=
  s.completeRegC rx (s.reg rx - 1) (gtZero (s.reg rx - 1))

/-- `declt` (R161). -/
def execDeclt (rx : Reg) (s : State) : Result :=
  s.completeRegC rx (s.reg rx - 1) (ltZero (s.reg rx - 1))

/-- `decne` (R162). -/
def execDecne (rx : Reg) (s : State) : Result :=
  s.completeRegC rx (s.reg rx - 1) (neZero (s.reg rx - 1))

end Sys2Proof.Machine
end

