-- ==== Sys2Proof/Machine/Control.lean ====
section
/-! DEFINITION. System instructions (R280 to R293). -/

namespace Sys2Proof.Machine

/-- `bkpt` (R280, R324). -/
def execBkpt (s : State) : Result := .next (s.raise vecBreakpoint s.pc)

/-- `trap` (R281, R327). -/
def execTrap (vec2 : BitVec 2) (s : State) : Result := .next (s.raise (vecTrap vec2) s.pc)

/-- `rte` (R282). -/
def execRte (s : State) : Result := s.privileged (s.returnThrough s.epsr s.epc)

/-- `rfi` (R283). -/
def execRfi (s : State) : Result := s.privileged (s.returnThrough s.fpsr s.fpc)

/-- `mfcr` (R286): CR13 to CR31 have no meaning in supervisor mode (R60). -/
def execMfcr (creg : CregField) (rx : Reg) (s : State) : Result :=
  s.privileged
    (match ctrlReg creg with
    | none => .refused .unnamedControlRegister
    | some c => s.completeReg rx (s.readCtrl c))

/-- `mtcr` (R287): the instruction completes, and is traced, under the TM it began with (R342). -/
def execMtcr (creg : CregField) (rx : Reg) (s : State) : Result :=
  s.privileged
    (match ctrlReg creg with
    | none => .refused .unnamedControlRegister
    | some c =>
      match ctrlWriteRefusal (s.reg rx) c with
      | some r => .refused r
      | none => .next (s.advance.writeCtrl (s.reg rx) c))

/-- Enters a low-power state (R293): the instruction has completed, no register and no flag changes. -/
def State.fallAsleep (s : State) (mode : LowPower) : State :=
  { s.advanceUntraced with activity := .asleep mode }

/-- `stop` (R288). -/
def execStop (s : State) : Result := s.privileged (.next (s.fallAsleep .stop))

/-- `wait` (R289). -/
def execWait (s : State) : Result := s.privileged (.next (s.fallAsleep .wait))

/-- `doze` (R290). -/
def execDoze (s : State) : Result := s.privileged (.next (s.fallAsleep .doze))

/-- `sync` (R291): every earlier operation has completed (R84), so only the PC advances. -/
def execSync (s : State) : Result := .next s.advance

/-- An accelerator opcode (R292, R326): a disabled unit raises vector 12; what an enabled unit does is
outside the spec (R5). -/
def execHai (uu : BitVec 2) (_x : BitVec 10) (s : State) : Result :=
  if s.psr.u.getLsbD uu.toNat then .refused .acceleratorUnit
  else .next (s.raise vecAccelerator s.pc)

end Sys2Proof.Machine
end

