-- ==== Sys2Proof/Machine/Flow.lean ====
section
/-! DEFINITION. Flow control instructions (R260 to R270). -/

namespace Sys2Proof.Machine

/-- A branch taken on a condition (R261, R262). -/
def State.branchIf (s : State) (cond : Bool) (target : Word) : State :=
  if cond then s.flowTo target else s.fallThrough

/-- `br` (R260). It closes the windows of an earlier `mtcr` to CR0 for the instructions after it (R390). -/
def execBr (disp11 : BitVec 11) (s : State) : Result :=
  .next { s.flowTo (s.branchTarget disp11) with windows := Windows.closed }

/-- `bt` (R261). -/
def execBt (disp11 : BitVec 11) (s : State) : Result :=
  .next (s.branchIf s.psr.c (s.branchTarget disp11))

/-- `bf` (R262). -/
def execBf (disp11 : BitVec 11) (s : State) : Result :=
  .next (s.branchIf (!s.psr.c) (s.branchTarget disp11))

/-- `bsr` (R263). -/
def execBsr (disp11 : BitVec 11) (s : State) : Result :=
  .next ((s.setReg r15 s.linkValue).flowTo (s.branchTarget disp11))

/-- `jmp` (R264). -/
def execJmp (rx : Reg) (s : State) : Result := .next (s.flowTo (s.jumpTarget rx))

/-- `jsr` (R265): `jsr r15` has no meaning (R392). -/
def execJsr (rx : Reg) (s : State) : Result :=
  if rx = r15 then .refused .jsrLinkRegister
  else .next ((s.setReg r15 s.linkValue).flowTo (s.jumpTarget rx))

/-- `jmpi` (R267): an odd word raises misaligned access with the word as return PC, whatever MM is. -/
def execJmpi (disp8 : BitVec 8) (s : State) : Result :=
  match s.readLiteral disp8 with
  | .raised n ret t => .next (t.raise n ret)
  | .done v t => if v.getLsbD 0 then .next (t.raise vecMisaligned v) else .next (t.flowTo v)

/-- R15 when a `jsri` faults: its old value or the return address, a free choice (R268, D16). -/
def State.maybeLinked (s : State) : State :=
  (s.setReg r15 (if Config.freeBit s.free then s.linkValue else s.reg r15)).drawn 1

/-- `jsri` (R268). -/
def execJsri (disp8 : BitVec 8) (s : State) : Result :=
  match s.readLiteral disp8 with
  | .raised n ret t => .next (t.maybeLinked.raise n ret)
  | .done v t =>
    if v.getLsbD 0 then .next (t.maybeLinked.raise vecMisaligned v)
    else .next ((t.setReg r15 t.linkValue).flowTo v)

/-- `loopt` (R269): the branch looks at the old C; the count and C are written either way. -/
def execLoopt (ry : Reg) (disp4 : BitVec 4) (s : State) : Result :=
  .next (((s.setReg ry (s.reg ry - 1)).setC (gtZero (s.reg ry - 1))).branchIf s.psr.c
    (s.loopTarget disp4))

end Sys2Proof.Machine
end

