-- ==== Sys2Proof/Machine/LoadStore.lean ====
section
/-! DEFINITION. Load and store instructions (R240 to R252). -/

namespace Sys2Proof.Machine

/-- A load into RZ from the scaled address (R251): the value read is already zero-extended (R75). -/
def State.loadReg (s : State) (w : Width) (rz rx : Reg) (imm4 : BitVec 4) : Result :=
  (s.loadData w (s.scaledAddr w rx imm4)).finish (fun v t => (t.setReg rz v).advance)

/-- A store of RZ to the scaled address (R251). -/
def State.storeReg (s : State) (w : Width) (rz rx : Reg) (imm4 : BitVec 4) : Result :=
  (s.storeData w (s.scaledAddr w rx imm4) (s.reg rz)).finish (fun _ t => t.advance)

/-- `ld.w` (R240). -/
def execLdW (rz : Reg) (imm4 : BitVec 4) (rx : Reg) (s : State) : Result := s.loadReg .word rz rx imm4

/-- `ld.b` (R241). -/
def execLdB (rz : Reg) (imm4 : BitVec 4) (rx : Reg) (s : State) : Result := s.loadReg .byte rz rx imm4

/-- `ld.h` (R242). -/
def execLdH (rz : Reg) (imm4 : BitVec 4) (rx : Reg) (s : State) : Result := s.loadReg .half rz rx imm4

/-- `st.w` (R245). -/
def execStW (rz : Reg) (imm4 : BitVec 4) (rx : Reg) (s : State) : Result := s.storeReg .word rz rx imm4

/-- `st.b` (R243). -/
def execStB (rz : Reg) (imm4 : BitVec 4) (rx : Reg) (s : State) : Result := s.storeReg .byte rz rx imm4

/-- `st.h` (R244). -/
def execStH (rz : Reg) (imm4 : BitVec 4) (rx : Reg) (s : State) : Result := s.storeReg .half rz rx imm4

/-- `ldm` (R246): Rf = R0 or R15 has no meaning (R392). -/
def execLdm (rf : Reg) (s : State) : Result :=
  if firstRegOk rf then
    (s.loadMultiple (s.reg r0) (regsFrom rf)).finish (fun _ t => t.advance)
  else .refused .multipleFirstRegister

/-- `stm` (R247): Rf = R0 or R15 has no meaning (R392). -/
def execStm (rf : Reg) (s : State) : Result :=
  if firstRegOk rf then
    (s.storeMultiple (s.reg r0) ((regsFrom rf).map s.reg)).finish (fun _ t => t.advance)
  else .refused .multipleFirstRegister

/-- `ldq` (R248): a base in R4 to R7 has no meaning (R392). -/
def execLdq (rx : Reg) (s : State) : Result :=
  if inQuad rx then .refused .quadrantBase
  else (s.loadMultiple (s.reg rx) quadRegs).finish (fun _ t => t.advance)

/-- The state in which `stq` stores: one free value is drawn where the base is in R4 to R7 (R249). -/
def State.quadDrawn (s : State) (rx : Reg) : State := if inQuad rx then s.drawn 1 else s

/-- `stq` (R249): a base in R4 to R7 is stored as a free value, the other three words as they are. -/
def execStq (rx : Reg) (s : State) : Result :=
  ((s.quadDrawn rx).storeMultiple (s.reg rx) (s.quadValues rx)).finish (fun _ t => t.advance)

/-- `lrw` (R250): the literal address is always aligned (R77). -/
def execLrw (rz : Reg) (disp8 : BitVec 8) (s : State) : Result :=
  (s.readLiteral disp8).finish (fun v t => (t.setReg rz v).advance)

end Sys2Proof.Machine
end

