-- ==== Sys2Proof/Machine/Logic.lean ====
section
/-! DEFINITION. Logical and bit-manipulation instructions (R170 to R183). -/

namespace Sys2Proof.Machine

/-- The word with bit `n` set and all others clear. -/
def oneBit (n : BitVec 5) : Word := 1#32 <<< n.toNat

/-- `and` (R170). -/
def execAnd (ry rx : Reg) (s : State) : Result := s.completeReg rx (s.reg rx &&& s.reg ry)

/-- `andi` (R171). -/
def execAndi (imm5 : BitVec 5) (rx : Reg) (s : State) : Result :=
  s.completeReg rx (s.reg rx &&& imm5Value imm5)

/-- `andn` (R172). -/
def execAndn (ry rx : Reg) (s : State) : Result := s.completeReg rx (s.reg rx &&& ~~~s.reg ry)

/-- `or` (R173). -/
def execOr (ry rx : Reg) (s : State) : Result := s.completeReg rx (s.reg rx ||| s.reg ry)

/-- `xor` (R174). -/
def execXor (ry rx : Reg) (s : State) : Result := s.completeReg rx (s.reg rx ^^^ s.reg ry)

/-- `not` (R175). -/
def execNot (rx : Reg) (s : State) : Result := s.completeReg rx (~~~s.reg rx)

/-- `bclri` (R176). -/
def execBclri (imm5 : BitVec 5) (rx : Reg) (s : State) : Result :=
  s.completeReg rx (s.reg rx &&& ~~~oneBit imm5)

/-- `bseti` (R177). -/
def execBseti (imm5 : BitVec 5) (rx : Reg) (s : State) : Result :=
  s.completeReg rx (s.reg rx ||| oneBit imm5)

/-- `btsti` (R178). -/
def execBtsti (imm5 : BitVec 5) (rx : Reg) (s : State) : Result :=
  s.completeC ((s.reg rx).getLsbD imm5.toNat)

/-- `bgeni` (R179). -/
def execBgeni (imm5 : BitVec 5) (rx : Reg) (s : State) : Result := s.completeReg rx (oneBit imm5)

/-- The word `bgenr` generates (R180): bits 31:6 of RY are ignored, bit 5 set gives zero. -/
def generatedBit (y : Word) : Word := if y.getLsbD 5 then 0#32 else oneBit (y.extractLsb' 0 5)

/-- `bgenr` (R180). -/
def execBgenr (ry rx : Reg) (s : State) : Result := s.completeReg rx (generatedBit (s.reg ry))

/-- The mask `bmaski` generates (R181): field 0 stands for 32. -/
def maskOf (imm5 : BitVec 5) : Word := if imm5 = 0#5 then 0xFFFFFFFF#32 else oneBit imm5 - 1#32

/-- `bmaski` (R181). -/
def execBmaski (imm5 : BitVec 5) (rx : Reg) (s : State) : Result := s.completeReg rx (maskOf imm5)

/-- `brev` (R182): bit `i` goes to bit `31 - i`. -/
def execBrev (rx : Reg) (s : State) : Result := s.completeReg rx (s.reg rx).reverse

/-- How many of the `n` lowest bits, taken from the highest of them down, are clear before the first set
one. -/
def clearAbove (x : Word) : Nat → Nat
  | 0 => 0
  | n + 1 => if x.getLsbD n then 0 else clearAbove x n + 1

/-- `ff1` (R183): the number of leading zeros, 32 for zero. -/
def execFf1 (rx : Reg) (s : State) : Result :=
  s.completeReg rx (BitVec.ofNat 32 (clearAbove (s.reg rx) 32))

end Sys2Proof.Machine
end

