-- ==== Sys2Proof/Machine/Move.lean ====
section
/-! DEFINITION. Move, extend, extract, compare and test instructions (R210 to R233). -/

namespace Sys2Proof.Machine

/-! ## Moves and conditional clears -/

/-- `mov` (R210). -/
def execMov (ry rx : Reg) (s : State) : Result := s.completeReg rx (s.reg ry)

/-- `movf` (R211). -/
def execMovf (ry rx : Reg) (s : State) : Result := s.completeRegIf (!s.psr.c) rx (s.reg ry)

/-- `movt` (R212). -/
def execMovt (ry rx : Reg) (s : State) : Result := s.completeRegIf s.psr.c rx (s.reg ry)

/-- `movi` (R233). -/
def execMovi (imm7 : BitVec 7) (rx : Reg) (s : State) : Result := s.completeReg rx (imm7Value imm7)

/-- `clrf` (R213). -/
def execClrf (rx : Reg) (s : State) : Result := s.completeRegIf (!s.psr.c) rx 0#32

/-- `clrt` (R214). -/
def execClrt (rx : Reg) (s : State) : Result := s.completeRegIf s.psr.c rx 0#32

/-- `mvc` (R215). -/
def execMvc (rx : Reg) (s : State) : Result :=
  s.completeReg rx ((BitVec.ofBool s.psr.c).setWidth 32)

/-- `mvcv` (R216). -/
def execMvcv (rx : Reg) (s : State) : Result :=
  s.completeReg rx ((BitVec.ofBool (!s.psr.c)).setWidth 32)

/-! ## Extensions -/

/-- `sextb` (R217). -/
def execSextb (rx : Reg) (s : State) : Result :=
  s.completeReg rx (((s.reg rx).extractLsb' 0 8).signExtend 32)

/-- `sexth` (R218). -/
def execSexth (rx : Reg) (s : State) : Result :=
  s.completeReg rx (((s.reg rx).extractLsb' 0 16).signExtend 32)

/-- `zextb` (R219). -/
def execZextb (rx : Reg) (s : State) : Result :=
  s.completeReg rx (((s.reg rx).extractLsb' 0 8).setWidth 32)

/-- `zexth` (R220). -/
def execZexth (rx : Reg) (s : State) : Result :=
  s.completeReg rx (((s.reg rx).extractLsb' 0 16).setWidth 32)

/-! ## Byte extraction into R1 -/

/-- Puts byte `k` of RX, zero-extended, into R1 and whether it is nonzero into C (R221 to R224). -/
def State.extractByte (s : State) (k : Nat) (rx : Reg) : Result :=
  s.completeRegC r1 ((byteOf (s.reg rx) k).setWidth 32) (byteOf (s.reg rx) k != 0#8)

/-- `xtrb0` (R221). -/
def execXtrb0 (rx : Reg) (s : State) : Result := s.extractByte 0 rx

/-- `xtrb1` (R222). -/
def execXtrb1 (rx : Reg) (s : State) : Result := s.extractByte 1 rx

/-- `xtrb2` (R223). -/
def execXtrb2 (rx : Reg) (s : State) : Result := s.extractByte 2 rx

/-- `xtrb3` (R224). -/
def execXtrb3 (rx : Reg) (s : State) : Result := s.extractByte 3 rx

/-! ## Compares and tests: C is all they write -/

/-- `cmphs` (R225). -/
def execCmphs (ry rx : Reg) (s : State) : Result := s.completeC (higherSame (s.reg rx) (s.reg ry))

/-- `cmplt` (R226). -/
def execCmplt (ry rx : Reg) (s : State) : Result := s.completeC (signedLess (s.reg rx) (s.reg ry))

/-- `cmplti` (R227). -/
def execCmplti (oimm5 : BitVec 5) (rx : Reg) (s : State) : Result :=
  s.completeC (signedLess (s.reg rx) (oimm5Value oimm5))

/-- `cmpne` (R228). -/
def execCmpne (ry rx : Reg) (s : State) : Result := s.completeC (notEqual (s.reg rx) (s.reg ry))

/-- `cmpnei` (R229). -/
def execCmpnei (imm5 : BitVec 5) (rx : Reg) (s : State) : Result :=
  s.completeC (notEqual (s.reg rx) (imm5Value imm5))

/-- `tst` (R231). -/
def execTst (ry rx : Reg) (s : State) : Result := s.completeC (commonBit (s.reg rx) (s.reg ry))

/-- `tstnbz` (R232). -/
def execTstnbz (rx : Reg) (s : State) : Result := s.completeC (noZeroByte (s.reg rx))

end Sys2Proof.Machine
end

