-- ==== Sys2Proof/Machine/Shift.lean ====
section
/-! DEFINITION. Shift and rotate instructions (R190 to R201). Shifting a 32-bit value left or right by 32
or more gives zero, and an arithmetic right shift by 31 or more gives 32 sign bits, as R190, R193 and
R196 ask for counts above 30 or 31. -/

namespace Sys2Proof.Machine

/-- `asr` (R190). -/
def execAsr (ry rx : Reg) (s : State) : Result :=
  s.completeReg rx ((s.reg rx).sshiftRight (s.shiftCount ry))

/-- `asrc` (R191): the old bit 0 goes to C. -/
def execAsrc (rx : Reg) (s : State) : Result :=
  s.completeRegC rx ((s.reg rx).sshiftRight 1) ((s.reg rx).getLsbD 0)

/-- `asri` (R192). -/
def execAsri (imm5 : BitVec 5) (rx : Reg) (s : State) : Result :=
  s.completeReg rx ((s.reg rx).sshiftRight imm5.toNat)

/-- `lsl` (R193). -/
def execLsl (ry rx : Reg) (s : State) : Result :=
  s.completeReg rx (s.reg rx <<< s.shiftCount ry)

/-- `lslc` (R194): the old bit 31 goes to C. -/
def execLslc (rx : Reg) (s : State) : Result :=
  s.completeRegC rx (s.reg rx <<< 1) ((s.reg rx).getLsbD 31)

/-- `lsli` (R195). -/
def execLsli (imm5 : BitVec 5) (rx : Reg) (s : State) : Result :=
  s.completeReg rx (s.reg rx <<< imm5.toNat)

/-- `lsr` (R196). -/
def execLsr (ry rx : Reg) (s : State) : Result :=
  s.completeReg rx (s.reg rx >>> s.shiftCount ry)

/-- `lsrc` (R197): the old bit 0 goes to C. -/
def execLsrc (rx : Reg) (s : State) : Result :=
  s.completeRegC rx (s.reg rx >>> 1) ((s.reg rx).getLsbD 0)

/-- `lsri` (R198). -/
def execLsri (imm5 : BitVec 5) (rx : Reg) (s : State) : Result :=
  s.completeReg rx (s.reg rx >>> imm5.toNat)

/-- `rotli` (R199). -/
def execRotli (imm5 : BitVec 5) (rx : Reg) (s : State) : Result :=
  s.completeReg rx ((s.reg rx <<< imm5.toNat) ||| (s.reg rx >>> (32 - imm5.toNat)))

/-- `xsr` (R200): the old C goes to bit 31, the old bit 0 to C. -/
def execXsr (rx : Reg) (s : State) : Result :=
  s.completeRegC rx (BitVec.ofBool s.psr.c ++ (s.reg rx).extractLsb' 1 31) ((s.reg rx).getLsbD 0)

end Sys2Proof.Machine
end

