-- ==== Sys2Proof/Machine/Dispatch.lean ====
section
/-! DEFINITION. One arm for each instruction, in the order of the opcode table. -/

namespace Sys2Proof.Machine

/-- What an instruction does to the state. -/
def exec (i : Instr) (s : State) : Host.Outcome State Fault Refusal :=
  match i with
  | .bkpt => Sys2Proof.Machine.execBkpt s
  | .sync => Sys2Proof.Machine.execSync s
  | .rte => Sys2Proof.Machine.execRte s
  | .rfi => Sys2Proof.Machine.execRfi s
  | .stop => Sys2Proof.Machine.execStop s
  | .wait => Sys2Proof.Machine.execWait s
  | .doze => Sys2Proof.Machine.execDoze s
  | .trap vec2 => Sys2Proof.Machine.execTrap vec2 s
  | .mvc rx => Sys2Proof.Machine.execMvc rx s
  | .mvcv rx => Sys2Proof.Machine.execMvcv rx s
  | .ldq rx => Sys2Proof.Machine.execLdq rx s
  | .stq rx => Sys2Proof.Machine.execStq rx s
  | .ldm rf => Sys2Proof.Machine.execLdm rf s
  | .stm rf => Sys2Proof.Machine.execStm rf s
  | .dect rx => Sys2Proof.Machine.execDect rx s
  | .decf rx => Sys2Proof.Machine.execDecf rx s
  | .inct rx => Sys2Proof.Machine.execInct rx s
  | .incf rx => Sys2Proof.Machine.execIncf rx s
  | .jmp rx => Sys2Proof.Machine.execJmp rx s
  | .jsr rx => Sys2Proof.Machine.execJsr rx s
  | .ff1 rx => Sys2Proof.Machine.execFf1 rx s
  | .brev rx => Sys2Proof.Machine.execBrev rx s
  | .xtrb3 rx => Sys2Proof.Machine.execXtrb3 rx s
  | .xtrb2 rx => Sys2Proof.Machine.execXtrb2 rx s
  | .xtrb1 rx => Sys2Proof.Machine.execXtrb1 rx s
  | .xtrb0 rx => Sys2Proof.Machine.execXtrb0 rx s
  | .zextb rx => Sys2Proof.Machine.execZextb rx s
  | .sextb rx => Sys2Proof.Machine.execSextb rx s
  | .zexth rx => Sys2Proof.Machine.execZexth rx s
  | .sexth rx => Sys2Proof.Machine.execSexth rx s
  | .declt rx => Sys2Proof.Machine.execDeclt rx s
  | .tstnbz rx => Sys2Proof.Machine.execTstnbz rx s
  | .decgt rx => Sys2Proof.Machine.execDecgt rx s
  | .decne rx => Sys2Proof.Machine.execDecne rx s
  | .clrt rx => Sys2Proof.Machine.execClrt rx s
  | .clrf rx => Sys2Proof.Machine.execClrf rx s
  | .abs rx => Sys2Proof.Machine.execAbs rx s
  | .not rx => Sys2Proof.Machine.execNot rx s
  | .movt ry rx => Sys2Proof.Machine.execMovt ry rx s
  | .mult ry rx => Sys2Proof.Machine.execMult ry rx s
  | .loopt ry disp4 => Sys2Proof.Machine.execLoopt ry disp4 s
  | .subu ry rx => Sys2Proof.Machine.execSubu ry rx s
  | .addc ry rx => Sys2Proof.Machine.execAddc ry rx s
  | .subc ry rx => Sys2Proof.Machine.execSubc ry rx s
  | .movf ry rx => Sys2Proof.Machine.execMovf ry rx s
  | .lsr ry rx => Sys2Proof.Machine.execLsr ry rx s
  | .cmphs ry rx => Sys2Proof.Machine.execCmphs ry rx s
  | .cmplt ry rx => Sys2Proof.Machine.execCmplt ry rx s
  | .tst ry rx => Sys2Proof.Machine.execTst ry rx s
  | .cmpne ry rx => Sys2Proof.Machine.execCmpne ry rx s
  | .mfcr creg rx => Sys2Proof.Machine.execMfcr creg rx s
  | .mov ry rx => Sys2Proof.Machine.execMov ry rx s
  | .bgenr ry rx => Sys2Proof.Machine.execBgenr ry rx s
  | .rsub ry rx => Sys2Proof.Machine.execRsub ry rx s
  | .ixw ry rx => Sys2Proof.Machine.execIxw ry rx s
  | .and ry rx => Sys2Proof.Machine.execAnd ry rx s
  | .xor ry rx => Sys2Proof.Machine.execXor ry rx s
  | .mtcr creg rx => Sys2Proof.Machine.execMtcr creg rx s
  | .asr ry rx => Sys2Proof.Machine.execAsr ry rx s
  | .lsl ry rx => Sys2Proof.Machine.execLsl ry rx s
  | .addu ry rx => Sys2Proof.Machine.execAddu ry rx s
  | .ixh ry rx => Sys2Proof.Machine.execIxh ry rx s
  | .or ry rx => Sys2Proof.Machine.execOr ry rx s
  | .andn ry rx => Sys2Proof.Machine.execAndn ry rx s
  | .addi oimm5 rx => Sys2Proof.Machine.execAddi oimm5 rx s
  | .cmplti oimm5 rx => Sys2Proof.Machine.execCmplti oimm5 rx s
  | .subi oimm5 rx => Sys2Proof.Machine.execSubi oimm5 rx s
  | .rsubi imm5 rx => Sys2Proof.Machine.execRsubi imm5 rx s
  | .cmpnei imm5 rx => Sys2Proof.Machine.execCmpnei imm5 rx s
  | .bmaski imm5 rx => Sys2Proof.Machine.execBmaski imm5 rx s
  | .divu rx => Sys2Proof.Machine.execDivu rx s
  | .andi imm5 rx => Sys2Proof.Machine.execAndi imm5 rx s
  | .bclri imm5 rx => Sys2Proof.Machine.execBclri imm5 rx s
  | .bgeni imm5 rx => Sys2Proof.Machine.execBgeni imm5 rx s
  | .divs rx => Sys2Proof.Machine.execDivs rx s
  | .bseti imm5 rx => Sys2Proof.Machine.execBseti imm5 rx s
  | .btsti imm5 rx => Sys2Proof.Machine.execBtsti imm5 rx s
  | .rotli imm5 rx => Sys2Proof.Machine.execRotli imm5 rx s
  | .xsr rx => Sys2Proof.Machine.execXsr rx s
  | .asri imm5 rx => Sys2Proof.Machine.execAsri imm5 rx s
  | .asrc rx => Sys2Proof.Machine.execAsrc rx s
  | .lsli imm5 rx => Sys2Proof.Machine.execLsli imm5 rx s
  | .lslc rx => Sys2Proof.Machine.execLslc rx s
  | .lsri imm5 rx => Sys2Proof.Machine.execLsri imm5 rx s
  | .lsrc rx => Sys2Proof.Machine.execLsrc rx s
  | .hai uu x => Sys2Proof.Machine.execHai uu x s
  | .movi imm7 rx => Sys2Proof.Machine.execMovi imm7 rx s
  | .lrw rz disp8 => Sys2Proof.Machine.execLrw rz disp8 s
  | .jmpi disp8 => Sys2Proof.Machine.execJmpi disp8 s
  | .jsri disp8 => Sys2Proof.Machine.execJsri disp8 s
  | .ldW rz imm4 rx => Sys2Proof.Machine.execLdW rz imm4 rx s
  | .stW rz imm4 rx => Sys2Proof.Machine.execStW rz imm4 rx s
  | .ldB rz imm4 rx => Sys2Proof.Machine.execLdB rz imm4 rx s
  | .stB rz imm4 rx => Sys2Proof.Machine.execStB rz imm4 rx s
  | .ldH rz imm4 rx => Sys2Proof.Machine.execLdH rz imm4 rx s
  | .stH rz imm4 rx => Sys2Proof.Machine.execStH rz imm4 rx s
  | .bt disp11 => Sys2Proof.Machine.execBt disp11 s
  | .bf disp11 => Sys2Proof.Machine.execBf disp11 s
  | .br disp11 => Sys2Proof.Machine.execBr disp11 s
  | .bsr disp11 => Sys2Proof.Machine.execBsr disp11 s

end Sys2Proof.Machine
end

