-- ==== Sys2Proof/Machine/Boundary.lean ====
section
/-! DEFINITION. What one step does around the meaning of an instruction (R363): the inputs, the resets,
the `mtcr` windows, breakpoints, interrupts, trace, low power, the fetch, and the abandoning of a
multi-cycle instruction (R335). -/

namespace Sys2Proof.Machine

/-! ## Inputs and windows -/

/-- Takes the next sample of the input levels; after the last sample the levels hold (R334, entry 13). -/
def State.sample (s : State) : State :=
  match s.upcoming with
  | [] => s
  | i :: rest => { s with inputs := i, upcoming := rest }

/-- The levels at the next recognition point: they may have arrived during the instruction (R335). -/
def State.nextInputs (s : State) : Inputs := s.upcoming.headD s.inputs

/-- How much of a window is left in this step: older values are given up one after the other, as free
bits decide, and never come back (R390). The second result counts the free bits drawn. -/
def settleWindow {α : Type} : List α → Nat → List α × Nat
  | [], n => ([], n)
  | x :: rest, n => if Config.freeBit n then settleWindow rest (n + 1) else (x :: rest, n + 1)

/-- Decides for this step which value of S, TM, TC, EE and AF is in effect (R390). -/
def State.settle (s : State) : State :=
  let ws := settleWindow s.windows.s s.free
  let wtm := settleWindow s.windows.tm ws.2
  let wtc := settleWindow s.windows.tc wtm.2
  let wee := settleWindow s.windows.ee wtc.2
  let waf := settleWindow s.windows.af wee.2
  { s with
    windows := { s := ws.1, tm := wtm.1, tc := wtc.1, ee := wee.1, af := waf.1 }
    free := waf.2 }

/-! ## Interrupts (R330 to R333) -/

/-- The vector of an interrupt: the autovector under AVEC, else the number supplied, whatever it is
(R333). -/
def VectorSource.vector (v : VectorSource) (auto : BitVec 7) : BitVec 7 :=
  match v with
  | .avec => auto
  | .number n => n

/-- The INT request that is accepted, if any: IE and EE set (R331). -/
def State.acceptedInt (s : State) (inp : Inputs) : Option (BitVec 7 × Bool) :=
  match inp.int with
  | some v => if s.psr.ie && s.shadowsFree then some (v.vector vecInt, false) else none
  | none => none

/-- The interrupt request that is accepted, if any, with its vector and whether it is the fast one: FINT
if FE is set, before INT (R331, R332). -/
def State.accepted (s : State) (inp : Inputs) : Option (BitVec 7 × Bool) :=
  match inp.fint with
  | some v => if s.psr.fe then some (v.vector vecFint, true) else s.acceptedInt inp
  | none => s.acceptedInt inp

/-! ## Abandoning an instruction (R335, R83) -/

/-- The seven instructions that PSR.IC = 1 lets an interrupt abandon, in the forms that have a meaning
(R335, R392). -/
def interruptible : Instr → Bool
  | .divs _ => true
  | .divu _ => true
  | .mult _ _ => true
  | .ldm rf => firstRegOk rf
  | .stm rf => firstRegOk rf
  | .ldq rx => !inQuad rx
  | .stq _ => true
  | _ => false

/-- The four of them that transfer registers, in the forms that have a meaning (R83). -/
def transfers : Instr → Bool
  | .ldm rf => firstRegOk rf
  | .stm rf => firstRegOk rf
  | .ldq rx => !inQuad rx
  | .stq _ => true
  | _ => false

/-- What can end an instruction before it completes. -/
inductive MidEvent where
  /-- a soft reset aborts it (R382) -/
  | softReset
  /-- an interrupt abandons it (R335) -/
  | interrupt (n : BitVec 7) (fast : Bool)
deriving DecidableEq, Repr

/-- What arrives during this instruction and may end it. Where the next sample holds both SRST and a request that
is accepted, the spec does not say which arrives first: only the reset ends a transfer early, and only the
interrupt one of the other three (DESIGN CHOICE, entry 40; unsafe). -/
def State.midEvent (s : State) (i : Instr) : Option MidEvent :=
  if s.nextInputs.srst && transfers i then some .softReset
  else if s.psr.ic && interruptible i then
    match s.accepted s.nextInputs with
    | some (n, fast) => some (.interrupt n fast)
    | none => none
  else none

/-- The first `k` accesses of a multi-register transfer, in ascending order (R83, D25), or fewer where TEA ends
one of them (entry 39); nothing for the other instructions. -/
def State.partialTransfer (s : State) (i : Instr) (k : Nat) : Access Unit :=
  match i with
  | .ldm rf => s.loadMultiple (s.reg r0) ((regsFrom rf).take k)
  | .stm rf => s.storeMultiple (s.reg r0) (((regsFrom rf).map s.reg).take k)
  | .ldq rx => s.loadMultiple (s.reg rx) (quadRegs.take k)
  | .stq rx => (s.quadDrawn rx).storeMultiple (s.reg rx) ((s.quadValues rx).take k)
  | _ => .done () s

/-- BRKREQ marked one of the accesses made (R362). -/
def Access.breaks {α : Type} : Access α → Bool
  | .done _ s => s.brkPending
  | .raised n _ s => s.brkPending || n == vecBreakpoint

/-- The instruction is given up after some of its accesses, a free number of them (U28): the soft reset
follows, or the interrupt is taken with the address of the instruction as return PC and TP clear, or in
its place the breakpoint that BRKREQ asked for on one of those accesses (R335, R346, R362). -/
def State.abandon (s : State) (i : Instr) (e : MidEvent) : State :=
  let r := (s.drawn 1).partialTransfer i (Config.freeWord s.free).toNat
  match e with
  | .softReset => r.reached
  | .interrupt n fast =>
    if r.breaks then r.reached.enter vecBreakpoint s.pc false false
    else r.reached.enter n s.pc fast false

/-- Executes the instruction, or abandons it where something arrives that may end it, as a free bit
decides (U29). -/
def State.execOrAbandon (s : State) (i : Instr) : Result :=
  match s.midEvent i with
  | none => exec i s
  | some e => if Config.freeBit s.free then .next ((s.drawn 1).abandon i e) else exec i (s.drawn 1)

/-! ## The fetch (R74, R80, R86) -/

/-- The two bytes of the instruction at PC, a program read of a halfword (R71, R74). -/
def State.fetchBytes (s : State) : List Byte :=
  [(s.busRead .half s.pc true).extractLsb' 8 8, (s.busRead .half s.pc true).extractLsb' 0 8]

/-- The state after that read. -/
def State.afterFetch (s : State) : State := s.afterRead s.pc true

/-- One of those bytes was stored since the last pipeline refill (R86). -/
def State.fetchStale (s : State) : Bool :=
  s.stale.contains s.pc.toNat || s.stale.contains (s.pc + 1).toNat

/-- Fetches, decodes and executes the instruction at PC: a fetch that TEA ends is an access error (R322),
an unassigned word an illegal instruction (R320, D5), a stale byte has no behaviour (R86, D11). -/
def State.executeNext (s : State) : Result :=
  if s.busError s.pc .half .fetch then .next (s.raise vecAccessError s.pc)
  else if s.fetchStale then .refused .staleFetch
  else
    match decodeBytes s.fetchBytes with
    | .error _ => .next (s.afterFetch.raise vecIllegal s.pc)
    | .ok (i, _) => s.afterFetch.execOrAbandon i

/-! ## The boundary between instructions (R363) -/

/-- Breakpoint, interrupts and trace in the order of R360, then the instruction at PC. -/
def State.boundary (s : State) : Result :=
  if s.brkPending || s.brkReq s.pc .half .fetch then
    .next (s.enter vecBreakpoint s.pc false s.tracePending)
  else
    match s.accepted s.inputs with
    | some (n, fast) => .next (s.enter n s.pc fast s.tracePending)
    | none =>
      if s.tracePending then .next (s.enter vecTrace s.pc false false)
      else s.executeNext

/-- The core out of its low-power state (R293). -/
def State.awake (s : State) : State := { s with activity := .running }

/-- A step of a low-power state (R293): a request that is accepted ends it, and the boundary follows with its
own order of events, breakpoint before interrupt (R360, R363); a masked request wakes the core where the
implementation has it so; else the core goes on sleeping. -/
def State.sleepStep (s : State) : Result :=
  match s.accepted s.inputs with
  | some _ => s.awake.boundary
  | none =>
    if (s.inputs.int.isSome || s.inputs.fint.isSome) && Config.wakeOnMasked then .next s.awake
    else .next s

/-- A step of a core that no reset concerns. -/
def State.coreStep (s : State) : Result :=
  match s.activity with
  | .stuck => .next s
  | .asleep _ => s.settle.sleepStep
  | .running => s.settle.boundary

/-- A step once the inputs are sampled (R363): hard reset first (R380); a stuck core waits for it (R314);
SRST stops all processing while it is asserted, and the soft reset follows its negation (R351). -/
def State.sampledStep (s : State) : Result :=
  match s.inputs.hardReset with
  | some cells => .next (s.hardReset cells)
  | none =>
    if s.activity = .stuck then .next s
    else if s.inputs.srst then .next { s with softResetSeen := true }
    else if s.softResetSeen then .next s.softReset
    else s.coreStep

/-- Memory with an instruction word at an address, as the host loads a program. -/
def Memory.placeWord (m : Memory) (a : Word) (w : Half) : Memory := m.write .half a (w.setWidth 32)

end Sys2Proof.Machine
end

