-- ==== Sys2Proof/Machine/Step.lean ====
section
/-! DEFINITION. One step of the machine, and the host's way to place an instruction where it fetches. -/

namespace Sys2Proof.Machine

/-- One step: take the input levels, then R363. -/
def step (s : State) : Host.Outcome State Fault Refusal := s.sample.sampledStep

/-- The state with an opcode-table word stored at PC, where `step` fetches, and no stale byte in the way of
the fetch. It stands for the load of a program from outside (entry 5). -/
def State.withFetchWord (s : State) (nbits w : Nat) : State :=
  { s with mem := s.mem.placeWord s.pc (BitVec.ofNat 16 (w % 2 ^ nbits)), stale := [] }

end Sys2Proof.Machine
end

