-- ==== Sys2Proof/Safety.lean ====
section
/-! DEFINITION. The terms that statements about the machine use: what an instruction leaves alone, how it
completes, what taking an exception leaves, when nothing stands between a step and the instruction at
PC, and the invariant of every step. -/

namespace Sys2Proof.Machine

/-! ## Frames -/

/-- Register `r` of the alternate file (`alt`) or of the general file, whichever PSR.AF selects
(R21, R25). -/
def State.fileReg (s : State) (alt : Bool) (r : Reg) : Word :=
  if alt then s.altRegs[r.toNat]'r.isLt else s.regs[r.toNat]'r.isLt

/-- Both register files are as before. -/
def SameRegs (s t : State) : Prop := ∀ (alt : Bool) (r : Reg), t.fileReg alt r = s.fileReg alt r

/-- Register `d` of the file in effect holds `v`; every other register of both files is as before. -/
def RegWritten (s t : State) (d : Reg) (v : Word) : Prop :=
  ∀ (alt : Bool) (r : Reg),
    t.fileReg alt r = if alt = s.altFile ∧ r = d then v else s.fileReg alt r

/-- Every byte of memory is as before. -/
def SameMemory (s t : State) : Prop := ∀ a : Word, t.mem.byte a = s.mem.byte a

/-- Exactly the bytes of an access of width `w` at `a` are written, with the low bits of `v`, the most
significant byte first (R73); every other byte of memory is as before. -/
def BytesStored (s t : State) (w : Width) (a v : Word) : Prop :=
  ∀ b : Word,
    t.mem.byte b =
      if (b - a).toNat < w.bytes then v.extractLsb' (8 * (w.bytes - 1 - (b - a).toNat)) 8
      else s.mem.byte b

/-- Exactly the first `k` registers from R`first` on, in the file in effect, are loaded from ascending words at
`a`: each holds its word where memory answers the read (entry 38), every other register is as before. -/
def WordsLoaded (s t : State) (first k : Nat) (a : Word) : Prop :=
  (∀ (alt : Bool) (r : Reg), ¬ (alt = s.altFile ∧ first ≤ r.toNat ∧ r.toNat < first + k) →
    t.fileReg alt r = s.fileReg alt r) ∧
  ∀ r : Reg, first ≤ r.toNat → r.toNat < first + k →
    (s.answer (a + BitVec.ofNat 32 (4 * (r.toNat - first))) false).reads = true →
    t.fileReg s.altFile r = s.mem.read .word (a + BitVec.ofNat 32 (4 * (r.toNat - first)))

/-- Exactly the first `k` registers from R`first` on are stored to ascending words at `a`, most significant
byte first (R73), where RAM answers (entry 38), and those words are stale for the fetch (R86); every other
byte is as before. The words that `unsaid` names hold a value that is not said. -/
def WordsStored (s t : State) (first k : Nat) (a : Word) (unsaid : Nat → Prop) : Prop :=
  (∀ b : Word, ¬ ((b - a).toNat < 4 * k ∧ unsaid ((b - a).toNat / 4)) → t.mem.byte b =
    if (b - a).toNat < 4 * k ∧
      (s.answer (a + BitVec.ofNat 32 (4 * ((b - a).toNat / 4))) false).writes = true then
      (s.reg (BitVec.ofNat 4 (first + (b - a).toNat / 4))).extractLsb' (8 * (3 - (b - a).toNat % 4)) 8
    else s.mem.byte b) ∧
  ∀ b : Word, b.toNat ∈ t.stale ↔ (b - a).toNat < 4 * k ∨ b.toNat ∈ s.stale

/-- VBR, the shadow registers, SS0 to SS4, GCR, the low-power state and the inputs are as before. -/
def SameSpecials (s t : State) : Prop :=
  t.vbr = s.vbr ∧ t.epsr = s.epsr ∧ t.epc = s.epc ∧ t.fpsr = s.fpsr ∧ t.fpc = s.fpc ∧ t.ss = s.ss ∧
    t.gcr = s.gcr ∧ t.activity = s.activity ∧ t.softResetSeen = s.softResetSeen ∧
    t.inputs = s.inputs ∧ t.upcoming = s.upcoming

/-! ## Completion

PC arithmetic is modulo 2^32 (DESIGN CHOICE of the spec, D6; entry 29). -/

/-- The instruction is traced in instruction trace mode (R340, R342). -/
def TracedAlways (s t : State) : Prop := t.tracePending = decide (s.traceMode = 1#2)

/-- The instruction is traced in both trace modes (R341). -/
def TracedFlow (s t : State) : Prop :=
  t.tracePending = (decide (s.traceMode = 1#2) || decide (s.traceMode = 3#2))

/-- The instruction completed without a change of flow (R27); `marked` says whether BRKREQ marked one of
its data accesses (R325). -/
def AdvancedMarked (s t : State) (marked : Bool) : Prop :=
  t.pc = s.pc + 2 ∧ TracedAlways s t ∧ t.brkPending = (s.brkPending || marked) ∧
    t.windows = s.windows

/-- An instruction that accesses no memory completed without a change of flow (R27). -/
def Advanced (s t : State) : Prop := AdvancedMarked s t false ∧ t.stale = s.stale

/-- A conditional change of flow completed without being taken (R341). -/
def FellThrough (s t : State) : Prop :=
  t.pc = s.pc + 2 ∧ TracedFlow s t ∧ t.brkPending = s.brkPending ∧ t.stale = s.stale ∧
    t.windows = s.windows

/-- A change of flow to `target` completed (R266) and refilled the pipeline: no byte stored is stale for the
fetch any more (R86, the spec's D11; entry 36). -/
def Jumped (s t : State) (target : Word) (marked : Bool) : Prop :=
  t.pc = target ∧ TracedFlow s t ∧ t.brkPending = (s.brkPending || marked) ∧ t.stale = []

/-- The instruction completes, writes `v` to register `d` and `c` to C, and changes nothing else. -/
def WritesRegAndC (i : Instr) (s : State) (d : Reg) (v : Word) (c : Bool) : Prop :=
  ∃ t, exec i s = .next t ∧ RegWritten s t d v ∧ t.psr = { s.psr with c := c } ∧
    SameSpecials s t ∧ SameMemory s t ∧ Advanced s t

/-- The instruction completes, writes `v` to register `d`, and changes nothing else, C included. -/
def WritesReg (i : Instr) (s : State) (d : Reg) (v : Word) : Prop :=
  WritesRegAndC i s d v s.psr.c

/-- The bits of a word. -/
def HasBits (v : Word) (f : Nat → Bool) : Prop := ∀ k, k < 32 → v.getLsbD k = f k

/-- As `WritesRegAndC`, the value given bit by bit. -/
def WritesBitsAndC (i : Instr) (s : State) (d : Reg) (f : Nat → Bool) (c : Bool) : Prop :=
  ∃ v, HasBits v f ∧ WritesRegAndC i s d v c

/-- As `WritesReg`, the value given bit by bit. -/
def WritesBits (i : Instr) (s : State) (d : Reg) (f : Nat → Bool) : Prop :=
  WritesBitsAndC i s d f s.psr.c

/-- The instruction completes, writes `c` to C, and changes nothing else. -/
def WritesC (i : Instr) (s : State) (c : Bool) : Prop :=
  ∃ t, exec i s = .next t ∧ SameRegs s t ∧ t.psr = { s.psr with c := c } ∧ SameSpecials s t ∧
    SameMemory s t ∧ Advanced s t

/-- `v` is what a read of width `w` at `a` gives: what memory holds there where memory answers (R72), and
where it does not a value of that width that is not said (DESIGN CHOICE, entry 38). -/
def GivenByRead (s : State) (w : Width) (a : Word) (program : Bool) (v : Word) : Prop :=
  ((s.answer a program).reads = true → v = s.mem.read w a) ∧ v.toNat < 2 ^ (8 * w.bytes)

/-- The load completes: register `d` holds what the read at `a` gives, and nothing else changes. -/
def LoadsReg (i : Instr) (s : State) (d : Reg) (w : Width) (a : Word) (program : Bool) : Prop :=
  ∃ t v, exec i s = .next t ∧ GivenByRead s w a program v ∧ RegWritten s t d v ∧ t.psr = s.psr ∧
    SameSpecials s t ∧ SameMemory s t ∧ AdvancedMarked s t (s.brkReq a w .read) ∧ t.stale = s.stale

/-- The store completes: the bytes at `a` hold `v` where RAM answers, and memory is as before where something
else does (DESIGN CHOICE, entry 38); the bytes are stale for the fetch (R86, the spec's D11; entry 36), and
nothing else changes. -/
def StoresBytes (i : Instr) (s : State) (w : Width) (a v : Word) : Prop :=
  ∃ t, exec i s = .next t ∧
    (if (s.answer a false).writes then BytesStored s t w a v else SameMemory s t) ∧ SameRegs s t ∧
    t.psr = s.psr ∧ SameSpecials s t ∧ AdvancedMarked s t (s.brkReq a w .write) ∧
    ∀ b : Word, b.toNat ∈ t.stale ↔ (b - a).toNat < w.bytes ∨ b.toNat ∈ s.stale

/-- The change of flow completes and changes nothing but PC. -/
def JumpsTo (i : Instr) (s : State) (target : Word) (marked : Bool) : Prop :=
  ∃ t, exec i s = .next t ∧ SameRegs s t ∧ t.psr = s.psr ∧ SameSpecials s t ∧ SameMemory s t ∧
    Jumped s t target marked ∧ t.windows = s.windows

/-- The call completes: R15 holds the address of the next instruction, PC the target (R27, R266). -/
def CallsTo (i : Instr) (s : State) (target : Word) (marked : Bool) : Prop :=
  ∃ t, exec i s = .next t ∧ RegWritten s t r15 (s.pc + 2) ∧ t.psr = s.psr ∧ SameSpecials s t ∧
    SameMemory s t ∧ Jumped s t target marked ∧ t.windows = s.windows

/-- The branch is not taken: it completes and changes nothing but PC. -/
def NotTaken (i : Instr) (s : State) : Prop :=
  ∃ t, exec i s = .next t ∧ SameRegs s t ∧ t.psr = s.psr ∧ SameSpecials s t ∧ SameMemory s t ∧
    FellThrough s t

/-! ## Taking an exception (R310) -/

/-- The vector that exception `n` goes through: 8 for any but a fast interrupt while EE is clear (R323). -/
def vectorFor (s : State) (n : BitVec 7) (fast : Bool) : BitVec 7 :=
  if fast = false ∧ s.shadowsFree = false then 8#7 else n

/-- No bus error on the read of vector `n`, a supervisor access (R71, R313). -/
def VectorReadable (s : State) (n : BitVec 7) : Prop :=
  s.inputs.busErrors.any (fun r => r.covers (s.vbrWord + 4 * n.setWidth 32) .word .vector true) = false

/-- `x` is what the read of the vector at `a` gives: a supervisor program read of a word (R71, R313). -/
def GivenByVector (s : State) (a x : Word) : Prop :=
  (platformAnswer s.inputs.memMap a true true).reads = true → x = s.mem.read .word a

/-- Every exception entry leaves the PSR so, with VEC `vec` and AF `af` (R310, R315); C is not said. That SP is
kept is the spec's D3 (entry 31). -/
def EntryPsr (s t : State) (fast : Bool) (vec : BitVec 7) (af : Bool) : Prop :=
  t.psr =
    { s.psr with
      s := true, vec := vec, tm := 0, tc := false, sc := false, ee := false, ie := false
      fe := if fast then false else s.psr.fe
      af := af
      c := t.psr.c }

/-- What every exception entry leaves besides the PSR, PC, EPSR and EPC (R310): a fast interrupt's context in
FPSR and FPC, nothing pending, everything else as before. That the windows of a `mtcr` close is the spec's
D23 (R390, entry 11), that no byte stays stale for the fetch its D11 (R86, entry 36). -/
def EntryFrame (s t : State) (ret : Word) (fast tp : Bool) : Prop :=
  t.fpsr = (if fast then s.psr.toShadow tp else s.fpsr) ∧ t.fpc = (if fast then ret else s.fpc) ∧
  SameRegs s t ∧ SameMemory s t ∧ t.vbr = s.vbr ∧ t.ss = s.ss ∧ t.gcr = s.gcr ∧
  t.tracePending = false ∧ t.brkPending = false ∧ t.windows = Windows.closed ∧ t.stale = [] ∧
  t.softResetSeen = s.softResetSeen ∧ t.inputs = s.inputs ∧ t.upcoming = s.upcoming

/-- The core runs in the handler of vector `v`: PC and AF come from the vector's word, VEC is `v` (R313); all
but EPSR and EPC is said. -/
def InHandler (s t : State) (v : BitVec 7) (ret : Word) (fast tp : Bool) : Prop :=
  (∃ x, GivenByVector s (s.vbrWord + 4 * v.setWidth 32) x ∧ t.pc = x &&& 0xFFFFFFFE#32 ∧
    EntryPsr s t fast v (x.getLsbD 0)) ∧
  EntryFrame s t ret fast tp ∧ t.activity = .running

/-- `t` is `s` after an exception with vector number `v` in the end (R310): the core is in its handler, and the
PSR with `tp` as TP and the return PC are in the shadow pair. `EntryPsr` and `EntryFrame` name the parts that
are decisions of the spec (D3, D11, D23; entries 31, 36, 11), `GivenByVector` rests on entry 38. -/
def HandlerEntered (s t : State) (v : BitVec 7) (ret : Word) (fast tp : Bool) : Prop :=
  InHandler s t v ret fast tp ∧
  t.epsr = (if fast then s.epsr else s.psr.toShadow tp) ∧ t.epc = (if fast then s.epc else ret)

/-- The instruction raises exception `n` with return PC `ret` and has no other effect (R363). -/
def Raises (i : Instr) (s : State) (n : BitVec 7) (ret : Word) : Prop :=
  ∃ t, exec i s = .next t ∧ HandlerEntered s t (vectorFor s n false) ret false false

/-- Exception `n` can be taken: the vector it goes through can be read. -/
def CanTake (s : State) (n : BitVec 7) (fast : Bool) : Prop := VectorReadable s (vectorFor s n fast)

/-- Everything a load of width `w` from effective address `ea` into `d` does (R251): it completes, or is
misaligned, or ends in a bus error, which is a breakpoint where BRKREQ marks the same access (R362; DEDUCED,
entry 16). -/
def LoadBehaves (i : Instr) (s : State) (w : Width) (d : Reg) (ea : Word) : Prop :=
  (∀ a, s.dataAddr w ea = some a → s.busError a w .read = false → LoadsReg i s d w a false) ∧
  (s.dataAddr w ea = none → CanTake s 1#7 false → Raises i s 1#7 s.pc) ∧
  (∀ a, s.dataAddr w ea = some a → s.busError a w .read = true →
    (s.brkReq a w .read = false → CanTake s 2#7 false → Raises i s 2#7 s.pc) ∧
    (s.brkReq a w .read = true → CanTake s 7#7 false → Raises i s 7#7 s.pc))

/-- Everything a store of width `w` of `v` to effective address `ea` does (R251, R362; entry 16). -/
def StoreBehaves (i : Instr) (s : State) (w : Width) (ea v : Word) : Prop :=
  (∀ a, s.dataAddr w ea = some a → s.busError a w .write = false → StoresBytes i s w a v) ∧
  (s.dataAddr w ea = none → CanTake s 1#7 false → Raises i s 1#7 s.pc) ∧
  (∀ a, s.dataAddr w ea = some a → s.busError a w .write = true →
    (s.brkReq a w .write = false → CanTake s 2#7 false → Raises i s 2#7 s.pc) ∧
    (s.brkReq a w .write = true → CanTake s 7#7 false → Raises i s 7#7 s.pc))

/-- The instructions that store to memory (R70). -/
def storesMemory : Instr → Bool
  | .stW _ _ _ | .stB _ _ _ | .stH _ _ _ | .stm _ | .stq _ => true
  | _ => false

/-! ## Words of the instruction pages -/

/-- `base | rx` -/
def pageRx (base : Half) (rx : Reg) : Half := base ||| rx.setWidth 16

/-- `base | ry<<4 | rx` -/
def pageRyRx (base : Half) (ry rx : Reg) : Half :=
  base ||| (ry.setWidth 16 <<< 4) ||| rx.setWidth 16

/-- `base | n<<4 | rx` with a five-bit field -/
def pageImm5Rx (base : Half) (n : BitVec 5) (rx : Reg) : Half :=
  base ||| (n.setWidth 16 <<< 4) ||| rx.setWidth 16

/-- `base | rz<<8 | n<<4 | rx` -/
def pageRzRx (base : Half) (rz : Reg) (n : BitVec 4) (rx : Reg) : Half :=
  base ||| (rz.setWidth 16 <<< 8) ||| (n.setWidth 16 <<< 4) ||| rx.setWidth 16

/-- The decoder reads the instruction from the word, and the encoder writes the word for it. -/
def HasWord (i : Instr) (w : Half) : Prop := decode w = .ok i ∧ encode i = w

/-- The words that the opcode map assigns to no instruction (R122). -/
def reservedWord (w : Half) : Prop :=
  w.toNat = 0x0007 ∨ (0x000C ≤ w.toNat ∧ w.toNat ≤ 0x001F) ∨ (0x0800 ≤ w.toNat ∧ w.toNat ≤ 0x09FF) ∨
  (0x2600 ≤ w.toNat ∧ w.toNat ≤ 0x27FF) ∨ (0x2C20 ≤ w.toNat ∧ w.toNat ≤ 0x2C7F) ∨
  (0x3200 ≤ w.toNat ∧ w.toNat ≤ 0x320F) ∨ (0x3220 ≤ w.toNat ∧ w.toNat ≤ 0x326F) ∨
  (0x5000 ≤ w.toNat ∧ w.toNat ≤ 0x5FFF) ∨ (0x6800 ≤ w.toNat ∧ w.toNat ≤ 0x6FFF)

/-! ## A step -/

/-- The state in which a step acts: the inputs sampled, the values in effect decided (R363, R390). -/
def State.now (s : State) : State := s.sample.settle

/-- The step comes to an instruction boundary: the core is running and no reset is requested (R363). -/
def AtBoundary (s : State) : Prop :=
  s.activity = .running ∧ s.inputs.hardReset = none ∧ s.inputs.srst = false ∧ s.softResetSeen = false

/-- No breakpoint is due at the boundary (R325). -/
def NoBreak (s : State) : Prop := s.brkPending = false ∧ s.brkReq s.pc .half .fetch = false

/-- Nothing stands between the boundary and the instruction at PC (R363): no reset, no low-power state, no
breakpoint, no accepted interrupt, no pending trace. -/
def Undisturbed (s : State) : Prop :=
  AtBoundary s ∧ NoBreak s ∧ s.accepted s.inputs = none ∧ s.tracePending = false

/-- The instruction word at PC (R74). -/
def State.wordAtPc (s : State) : Half := s.mem.byte s.pc ++ s.mem.byte (s.pc + 1)

/-- The fetch at PC is made: no bus error (R322), no byte stored since the last refill (R86). -/
def FetchMade (s : State) : Prop := s.busError s.pc .half .fetch = false ∧ s.fetchStale = false

/-- The fetch at PC gives the word that memory holds there: it is made, and memory answers it (R87). -/
def Fetchable (s : State) : Prop := FetchMade s ∧ (s.answer s.pc true).reads = true

/-- What every step keeps: an even PC (R26); memory in canonical form; SP zero (R34) and TM never the
reserved value (R340), in the PSR and in the windows; SP and the reserved bits zero in both shadow PSRs
(R48); and no trace or breakpoint pending in a core that is asleep or stuck. -/
def State.Legal (s : State) : Prop :=
  s.pc.getLsbD 0 = false ∧ s.mem.wf = true ∧ s.psr.sp = 0#2 ∧ s.psr.tm ≠ 2#2 ∧
    (∀ m ∈ s.windows.tm, m ≠ 2#2) ∧ psrBitsOk s.epsr = true ∧ psrBitsOk s.fpsr = true ∧
    (s.activity = .running ∨ (s.tracePending = false ∧ s.brkPending = false))

end Sys2Proof.Machine
end

