-- ==== Sys2Proof/Certificates/Slice0/Obligations.lean ====
section
/-! DEFINITION. The statements for the provers, from the numbered rules of spec/. Unless a statement says
otherwise it holds for every state, reachable or not. The terms are those of Sys2Proof/Safety.lean; what they
mark as a decision (entries 11, 29, 31, 36, 38) is marked for every statement that uses them. -/

section

open Sys2Proof Sys2Proof.Machine

/-! ## Encoding -/

/-- Decoding the word of a well-formed instruction gives the instruction, whatever its operands. -/
def Obligations.DecodeInvertsEncode : Prop := ∀ i : Instr, i.wf = true → decode (encode i) = .ok i

/-- A word that decodes is the word of the instruction it decodes to, which is well formed: no two words
mean the same and no bit of a word is dropped. -/
def Obligations.EncodeInvertsDecode : Prop :=
  ∀ (w : Half) (i : Instr), decode w = .ok i → i.wf = true ∧ encode i = w

/-- The words that decode to no instruction are those of the slots of R122, no more and no fewer. -/
def Obligations.RejectedWordsAreTheReservedSlots : Prop :=
  ∀ w : Half, (∃ e, decode w = .error e) ↔ reservedWord w

/-- A few words written out bit by bit from the instruction pages, one or more of each format of R103, decode
to the instructions they stand for. -/
def Obligations.SampleWordsDecode : Prop :=
  decode 0b0000000000000010#16 = .ok .rte ∧
  decode 0b0000000000001011#16 = .ok (.trap 3) ∧
  decode 0b0000000011011110#16 = .ok (.jsr 14) ∧
  decode 0b0000000001101110#16 = .ok (.ldm 14) ∧
  decode 0b0000000001000010#16 = .ok (.ldq 2) ∧
  decode 0b0000000001011001#16 = .ok (.stq 9) ∧
  decode 0b0100110000000101#16 = .ok (.hai 3 5) ∧
  decode 0b0001110000100001#16 = .ok (.addu 2 1) ∧
  decode 0b0000010000111011#16 = .ok (.loopt 3 11) ∧
  decode 0b0001100000010111#16 = .ok (.mtcr 1 7) ∧
  decode 0b0010000111110101#16 = .ok (.addi 31 5) ∧
  decode 0b0011000111110010#16 = .ok (.bclri 31 2) ∧
  decode 0b0011100000000011#16 = .ok (.xsr 3) ∧
  decode 0b0011100010000011#16 = .ok (.rotli 8 3) ∧
  decode 0b0110011111111111#16 = .ok (.movi 127 15) ∧
  decode 0b0111000100000001#16 = .ok (.lrw 1 1) ∧
  decode 0b0111111100000001#16 = .ok (.jsri 1) ∧
  decode 0b1000001000100011#16 = .ok (.ldW 2 2 3) ∧
  decode 0b1101001000100011#16 = .ok (.stH 2 2 3) ∧
  decode 0b1110111111111110#16 = .ok (.bf 0x7FE)

/-! ## Integer arithmetic -/

/-- R141 to R143, R145, R146, R149, R150: the exact integer result, cut to 32 bits; C is not written. -/
def Obligations.AddSubtractAbsResults : Prop :=
  ∀ (s : State) (ry rx : Reg) (n : BitVec 5),
    let x := s.reg rx
    let y := s.reg ry
    (WritesReg (.addu ry rx) s rx (BitVec.ofNat 32 (x.toNat + y.toNat)) ∧
      HasWord (.addu ry rx) (pageRyRx 0x1C00 ry rx)) ∧
    (WritesReg (.subu ry rx) s rx (BitVec.ofInt 32 ((x.toNat : Int) - y.toNat)) ∧
      HasWord (.subu ry rx) (pageRyRx 0x0500 ry rx)) ∧
    (WritesReg (.rsub ry rx) s rx (BitVec.ofInt 32 ((y.toNat : Int) - x.toNat)) ∧
      HasWord (.rsub ry rx) (pageRyRx 0x1400 ry rx)) ∧
    (WritesReg (.addi n rx) s rx (BitVec.ofNat 32 (x.toNat + (n.toNat + 1))) ∧
      HasWord (.addi n rx) (pageImm5Rx 0x2000 n rx)) ∧
    (WritesReg (.subi n rx) s rx (BitVec.ofInt 32 ((x.toNat : Int) - (n.toNat + 1))) ∧
      HasWord (.subi n rx) (pageImm5Rx 0x2400 n rx)) ∧
    (WritesReg (.rsubi n rx) s rx (BitVec.ofInt 32 ((n.toNat : Int) - x.toNat)) ∧
      HasWord (.rsubi n rx) (pageImm5Rx 0x2800 n rx)) ∧
    (WritesReg (.abs rx) s rx (BitVec.ofNat 32 x.toInt.natAbs) ∧
      HasWord (.abs rx) (pageRx 0x01E0 rx))

/-- R140, R161, R162: the result and the C bit that the instruction writes. -/
def Obligations.AddWithCarryAndDecrementTestResults : Prop :=
  ∀ (s : State) (ry rx : Reg),
    let x := s.reg rx
    let sum := x.toNat + (s.reg ry).toNat + s.psr.c.toNat
    let less := BitVec.ofInt 32 (x.toInt - 1)
    (WritesRegAndC (.addc ry rx) s rx (BitVec.ofNat 32 sum) (decide (2 ^ 32 ≤ sum)) ∧
      HasWord (.addc ry rx) (pageRyRx 0x0600 ry rx)) ∧
    (WritesRegAndC (.declt rx) s rx less (decide (less.toInt < 0)) ∧
      HasWord (.declt rx) (pageRx 0x0180 rx)) ∧
    (WritesRegAndC (.decne rx) s rx less (decide (less.toNat ≠ 0)) ∧
      HasWord (.decne rx) (pageRx 0x01B0 rx))

/-- `subc`, `decgt`, `mult`, `ixh`, `ixw` (R144, R147, R154, R155, R160). The spec marks two readings as its own
inference: C of `subc` is set exactly when no borrow occurs, and `decgt` compares as signed. The low 32 bits
of the product are the same for signed and unsigned operands; that `mult` may be abandoned under PSR.IC is
`AbandonedArithmeticRestarts`. -/
def Obligations.SubcDecgtMultiplyIndexResults : Prop :=
  ∀ (s : State) (ry rx : Reg),
    let x := s.reg rx
    let y := s.reg ry
    let borrow := 1 - s.psr.c.toNat
    let less := BitVec.ofInt 32 (x.toInt - 1)
    WritesRegAndC (.subc ry rx) s rx (BitVec.ofInt 32 ((x.toNat : Int) - y.toNat - borrow))
      (decide (y.toNat + borrow ≤ x.toNat)) ∧
    WritesRegAndC (.decgt rx) s rx less (decide (0 < less.toInt)) ∧
    WritesReg (.mult ry rx) s rx (BitVec.ofNat 32 (x.toNat * y.toNat)) ∧
    WritesReg (.mult ry rx) s rx (BitVec.ofInt 32 (x.toInt * y.toInt)) ∧
    WritesReg (.ixh ry rx) s rx (BitVec.ofNat 32 (x.toNat + 2 * y.toNat)) ∧
    WritesReg (.ixw ry rx) s rx (BitVec.ofNat 32 (x.toNat + 4 * y.toNat))

/-- `divu` and `divs` with a divisor other than zero (R151 to R153): the quotient truncates toward zero
(the spec's D8, entry 27), C ends with a value that is not said, and for 0x80000000 by 0xFFFFFFFF neither is
the quotient of `divs`; that `divu` gives 0 for these two is the spec's C16 against a sentence of the page
(U7, entry 28). -/
def Obligations.DivideResults : Prop :=
  ∀ (s : State) (rx : Reg), s.reg r1 ≠ 0 →
    let x := s.reg rx
    let y := s.reg r1
    (∃ c, WritesRegAndC (.divu rx) s rx (BitVec.ofNat 32 (x.toNat / y.toNat)) c) ∧
    (¬ (x = 0x80000000#32 ∧ y = 0xFFFFFFFF#32) →
      ∃ c, WritesRegAndC (.divs rx) s rx (BitVec.ofInt 32 (x.toInt.tdiv y.toInt)) c) ∧
    (x = 0x80000000#32 ∧ y = 0xFFFFFFFF#32 → ∃ v c, WritesRegAndC (.divs rx) s rx v c)

/-- R319: a zero divisor raises vector 3 with the divide as return PC, and nothing else happens. The decisions
in the entry are those of `ExceptionEntryState`. -/
def Obligations.DivideByZeroRaises : Prop :=
  ∀ (s : State) (rx : Reg), s.reg r1 = 0 → CanTake s 3#7 false →
    Raises (.divu rx) s 3#7 s.pc ∧ Raises (.divs rx) s 3#7 s.pc

/-- R156 to R159, R211 to R214: the instruction acts where C has the value it names, and otherwise leaves
the register. -/
def Obligations.ConditionalInstructionResults : Prop :=
  ∀ (s : State) (ry rx : Reg),
    let x := s.reg rx
    let c := s.psr.c
    (WritesReg (.inct rx) s rx (if c then BitVec.ofNat 32 (x.toNat + 1) else x) ∧
      HasWord (.inct rx) (pageRx 0x00A0 rx)) ∧
    (WritesReg (.incf rx) s rx (if c then x else BitVec.ofNat 32 (x.toNat + 1)) ∧
      HasWord (.incf rx) (pageRx 0x00B0 rx)) ∧
    (WritesReg (.dect rx) s rx (if c then BitVec.ofInt 32 (x.toInt - 1) else x) ∧
      HasWord (.dect rx) (pageRx 0x0080 rx)) ∧
    (WritesReg (.decf rx) s rx (if c then x else BitVec.ofInt 32 (x.toInt - 1)) ∧
      HasWord (.decf rx) (pageRx 0x0090 rx)) ∧
    (WritesReg (.movt ry rx) s rx (if c then s.reg ry else x) ∧
      HasWord (.movt ry rx) (pageRyRx 0x0200 ry rx)) ∧
    (WritesReg (.movf ry rx) s rx (if c then x else s.reg ry) ∧
      HasWord (.movf ry rx) (pageRyRx 0x0A00 ry rx)) ∧
    (WritesReg (.clrt rx) s rx (if c then 0 else x) ∧ HasWord (.clrt rx) (pageRx 0x01C0 rx)) ∧
    (WritesReg (.clrf rx) s rx (if c then x else 0) ∧ HasWord (.clrf rx) (pageRx 0x01D0 rx))

/-! ## Logic, bits, shifts -/

/-- R171 to R175, bit by bit. -/
def Obligations.LogicResults : Prop :=
  ∀ (s : State) (ry rx : Reg) (n : BitVec 5),
    let x := fun k => (s.reg rx).getLsbD k
    let y := fun k => (s.reg ry).getLsbD k
    (WritesBits (.andi n rx) s rx (fun k => x k && decide (k < 5) && n.getLsbD k) ∧
      HasWord (.andi n rx) (pageImm5Rx 0x2E00 n rx)) ∧
    (WritesBits (.andn ry rx) s rx (fun k => x k && !y k) ∧
      HasWord (.andn ry rx) (pageRyRx 0x1F00 ry rx)) ∧
    (WritesBits (.or ry rx) s rx (fun k => x k || y k) ∧
      HasWord (.or ry rx) (pageRyRx 0x1E00 ry rx)) ∧
    (WritesBits (.xor ry rx) s rx (fun k => x k != y k) ∧
      HasWord (.xor ry rx) (pageRyRx 0x1700 ry rx)) ∧
    (WritesBits (.not rx) s rx (fun k => !x k) ∧ HasWord (.not rx) (pageRx 0x01F0 rx))

/-- `and`, `mov`, `brev` (R170, R210, R182): the spec gives their opcodes from general knowledge (entry 9),
so their words are not part of the statement. -/
def Obligations.AndMoveReverseResults : Prop :=
  ∀ (s : State) (ry rx : Reg),
    WritesBits (.and ry rx) s rx (fun k => (s.reg rx).getLsbD k && (s.reg ry).getLsbD k) ∧
    WritesReg (.mov ry rx) s rx (s.reg ry) ∧
    WritesBits (.brev rx) s rx (fun k => (s.reg rx).getLsbD (31 - k))

/-- R176 to R178, R180, and `bgeni` and `bmaski` in the fields they exist for (R179, R181). -/
def Obligations.SingleBitResults : Prop :=
  ∀ (s : State) (ry rx : Reg) (n : BitVec 5),
    let x := fun k => (s.reg rx).getLsbD k
    let y := s.reg ry
    (WritesBits (.bclri n rx) s rx (fun k => x k && k != n.toNat) ∧
      HasWord (.bclri n rx) (pageImm5Rx 0x3000 n rx)) ∧
    (WritesBits (.bseti n rx) s rx (fun k => x k || k == n.toNat) ∧
      HasWord (.bseti n rx) (pageImm5Rx 0x3400 n rx)) ∧
    (WritesC (.btsti n rx) s (x n.toNat) ∧ HasWord (.btsti n rx) (pageImm5Rx 0x3600 n rx)) ∧
    (WritesBits (.bgenr ry rx) s rx (fun k => !y.getLsbD 5 && k == y.toNat % 32) ∧
      HasWord (.bgenr ry rx) (pageRyRx 0x1300 ry rx)) ∧
    (7 ≤ n.toNat → WritesBits (.bgeni n rx) s rx (fun k => k == n.toNat) ∧
      HasWord (.bgeni n rx) (pageImm5Rx 0x3200 n rx)) ∧
    (n.toNat = 0 ∨ 8 ≤ n.toNat →
      WritesBits (.bmaski n rx) s rx (fun k => n.toNat == 0 || decide (k < n.toNat)) ∧
      HasWord (.bmaski n rx) (pageImm5Rx 0x2C00 n rx))

/-- R183: the number of zeros above the highest set bit, 32 for zero. -/
def Obligations.FindFirstOneCounts : Prop :=
  ∀ (s : State) (rx : Reg),
    HasWord (.ff1 rx) (pageRx 0x00E0 rx) ∧
    ∃ n : Nat, n ≤ 32 ∧ (∀ k < n, (s.reg rx).getLsbD (31 - k) = false) ∧
      (n < 32 → (s.reg rx).getLsbD (31 - n) = true) ∧ WritesReg (.ff1 rx) s rx (BitVec.ofNat 32 n)

/-- R193 to R200 but for the opcodes from general knowledge: where each bit of the result comes from. -/
def Obligations.ShiftResults : Prop :=
  ∀ (s : State) (ry rx : Reg) (n : BitVec 5),
    let x := fun k => (s.reg rx).getLsbD k
    let m := (s.reg ry).toNat % 64
    (WritesBits (.lsl ry rx) s rx (fun k => decide (m ≤ k) && x (k - m)) ∧
      HasWord (.lsl ry rx) (pageRyRx 0x1B00 ry rx)) ∧
    (WritesBits (.lsr ry rx) s rx (fun k => decide (k + m < 32) && x (k + m)) ∧
      HasWord (.lsr ry rx) (pageRyRx 0x0B00 ry rx)) ∧
    (WritesBitsAndC (.lslc rx) s rx (fun k => decide (1 ≤ k) && x (k - 1)) (x 31) ∧
      HasWord (.lslc rx) (pageRx 0x3C00 rx)) ∧
    (WritesBitsAndC (.xsr rx) s rx (fun k => if k = 31 then s.psr.c else x (k + 1)) (x 0) ∧
      HasWord (.xsr rx) (pageRx 0x3800 rx)) ∧
    (1 ≤ n.toNat →
      (WritesBits (.lsli n rx) s rx (fun k => decide (n.toNat ≤ k) && x (k - n.toNat)) ∧
        HasWord (.lsli n rx) (pageImm5Rx 0x3C00 n rx)) ∧
      (WritesBits (.lsri n rx) s rx (fun k => decide (k + n.toNat < 32) && x (k + n.toNat)) ∧
        HasWord (.lsri n rx) (pageImm5Rx 0x3E00 n rx)) ∧
      (WritesBits (.rotli n rx) s rx (fun k => x ((k + 32 - n.toNat) % 32)) ∧
        HasWord (.rotli n rx) (pageImm5Rx 0x3800 n rx)))

/-- `asr`, `asri`, `asrc`, `lsrc` (R190 to R192, R197): the spec gives their opcodes from general knowledge
(entry 9), so their words are not part of the statement. -/
def Obligations.ArithmeticShiftResults : Prop :=
  ∀ (s : State) (ry rx : Reg) (n : BitVec 5),
    let x := fun k => (s.reg rx).getLsbD k
    let m := (s.reg ry).toNat % 64
    WritesBits (.asr ry rx) s rx (fun k => if k + m < 32 then x (k + m) else x 31) ∧
    (1 ≤ n.toNat →
      WritesBits (.asri n rx) s rx (fun k => if k + n.toNat < 32 then x (k + n.toNat) else x 31)) ∧
    WritesBitsAndC (.asrc rx) s rx (fun k => if k = 31 then x 31 else x (k + 1)) (x 0) ∧
    WritesBitsAndC (.lsrc rx) s rx (fun k => decide (k < 31) && x (k + 1)) (x 0)

/-! ## Moves, extensions, extraction, compares -/

/-- R215 to R220, R233. -/
def Obligations.MoveAndExtendResults : Prop :=
  ∀ (s : State) (rx : Reg) (n : BitVec 7),
    let x := s.reg rx
    (WritesReg (.movi n rx) s rx (BitVec.ofNat 32 n.toNat) ∧
      HasWord (.movi n rx) (0x6000#16 ||| (n.setWidth 16 <<< 4) ||| rx.setWidth 16)) ∧
    (WritesReg (.mvc rx) s rx (if s.psr.c then 1 else 0) ∧ HasWord (.mvc rx) (pageRx 0x0020 rx)) ∧
    (WritesReg (.mvcv rx) s rx (if s.psr.c then 0 else 1) ∧ HasWord (.mvcv rx) (pageRx 0x0030 rx)) ∧
    (WritesReg (.sextb rx) s rx (BitVec.ofInt 32 (BitVec.ofNat 8 x.toNat).toInt) ∧
      HasWord (.sextb rx) (pageRx 0x0150 rx)) ∧
    (WritesReg (.sexth rx) s rx (BitVec.ofInt 32 (BitVec.ofNat 16 x.toNat).toInt) ∧
      HasWord (.sexth rx) (pageRx 0x0170 rx)) ∧
    (WritesReg (.zextb rx) s rx (BitVec.ofNat 32 (x.toNat % 2 ^ 8)) ∧
      HasWord (.zextb rx) (pageRx 0x0140 rx)) ∧
    (WritesReg (.zexth rx) s rx (BitVec.ofNat 32 (x.toNat % 2 ^ 16)) ∧
      HasWord (.zexth rx) (pageRx 0x0160 rx))

/-- R221 to R224: the byte goes to R1, whichever register it comes from. -/
def Obligations.ByteExtractionResults : Prop :=
  ∀ (s : State) (rx : Reg),
    let byte := fun k => (s.reg rx).toNat / 2 ^ (8 * k) % 2 ^ 8
    (WritesRegAndC (.xtrb0 rx) s r1 (BitVec.ofNat 32 (byte 3)) (decide (byte 3 ≠ 0)) ∧
      HasWord (.xtrb0 rx) (pageRx 0x0130 rx)) ∧
    (WritesRegAndC (.xtrb1 rx) s r1 (BitVec.ofNat 32 (byte 2)) (decide (byte 2 ≠ 0)) ∧
      HasWord (.xtrb1 rx) (pageRx 0x0120 rx)) ∧
    (WritesRegAndC (.xtrb2 rx) s r1 (BitVec.ofNat 32 (byte 1)) (decide (byte 1 ≠ 0)) ∧
      HasWord (.xtrb2 rx) (pageRx 0x0110 rx)) ∧
    (WritesRegAndC (.xtrb3 rx) s r1 (BitVec.ofNat 32 (byte 0)) (decide (byte 0 ≠ 0)) ∧
      HasWord (.xtrb3 rx) (pageRx 0x0100 rx))

/-- R228, R231, R232: C and nothing else is written. -/
def Obligations.NotEqualAndTestResults : Prop :=
  ∀ (s : State) (ry rx : Reg),
    let x := s.reg rx
    let y := s.reg ry
    let byte := fun k => x.toNat / 2 ^ (8 * k) % 2 ^ 8
    (WritesC (.cmpne ry rx) s (decide (x.toNat ≠ y.toNat)) ∧
      HasWord (.cmpne ry rx) (pageRyRx 0x0F00 ry rx)) ∧
    (∃ c, (c = true ↔ ∃ k, x.getLsbD k = true ∧ y.getLsbD k = true) ∧ WritesC (.tst ry rx) s c ∧
      HasWord (.tst ry rx) (pageRyRx 0x0E00 ry rx)) ∧
    (WritesC (.tstnbz rx) s
        (decide (byte 3 ≠ 0 ∧ byte 2 ≠ 0 ∧ byte 1 ≠ 0 ∧ byte 0 ≠ 0)) ∧
      HasWord (.tstnbz rx) (pageRx 0x0190 rx))

/-- `cmphs`, `cmplt`, `cmplti`, `cmpnei` (R225 to R227, R229): the spec gives their opcodes from general
knowledge (entry 9), so their words are not part of the statement; that `cmplt` compares the signed values
and not a wrapped difference is the spec's inference in R226. -/
def Obligations.MagnitudeCompareResults : Prop :=
  ∀ (s : State) (ry rx : Reg) (n : BitVec 5),
    let x := s.reg rx
    let y := s.reg ry
    WritesC (.cmphs ry rx) s (decide (y.toNat ≤ x.toNat)) ∧
    WritesC (.cmplt ry rx) s (decide (x.toInt < y.toInt)) ∧
    WritesC (.cmplti n rx) s (decide (x.toInt < n.toNat + 1)) ∧
    WritesC (.cmpnei n rx) s (decide (x.toNat ≠ n.toNat))

/-! ## Memory -/

/-- R72, R73: a read joins the bytes from the lowest address on, most significant first; a write puts them
there in the same order and changes no other byte. -/
def Obligations.MemoryIsBigEndian : Prop :=
  ∀ (m : Memory) (a v b : Word),
    (m.read .byte a).toNat = (m.byte a).toNat ∧
    (m.read .half a).toNat = (m.byte a).toNat * 2 ^ 8 + (m.byte (a + 1)).toNat ∧
    (m.read .word a).toNat =
      (m.byte a).toNat * 2 ^ 24 + (m.byte (a + 1)).toNat * 2 ^ 16 + (m.byte (a + 2)).toNat * 2 ^ 8 +
        (m.byte (a + 3)).toNat ∧
    (∀ w : Width, (m.write w a v).byte b =
      if (b - a).toNat < w.bytes then
        BitVec.ofNat 8 (v.toNat / 2 ^ (8 * (w.bytes - 1 - (b - a).toNat)))
      else m.byte b)

/-- R76, R317: the address of a data access, and the misaligned access exception that the multi-register
transfers raise before any access. -/
def Obligations.AlignmentOfDataAccesses : Prop :=
  (∀ (s : State) (w : Width) (ea : Word),
    (ea.toNat % w.bytes = 0 → s.dataAddr w ea = some ea) ∧
    (ea.toNat % w.bytes ≠ 0 → s.psr.mm = false → s.dataAddr w ea = none) ∧
    (ea.toNat % w.bytes ≠ 0 → s.psr.mm = true →
      ∃ a, s.dataAddr w ea = some a ∧ a.toNat = ea.toNat - ea.toNat % w.bytes)) ∧
  (∀ (s : State) (r : Reg), CanTake s 1#7 false →
    (s.dataAddr .word (s.reg r0) = none → 1 ≤ r.toNat → r.toNat ≤ 14 →
      Raises (.ldm r) s 1#7 s.pc ∧ Raises (.stm r) s 1#7 s.pc) ∧
    (s.dataAddr .word (s.reg r) = none → ¬ (4 ≤ r.toNat ∧ r.toNat ≤ 7) →
      Raises (.ldq r) s 1#7 s.pc) ∧
    (s.dataAddr .word (s.reg r) = none → Raises (.stq r) s 1#7 s.pc))

/-- R240 to R242: the loads, from the address the base and the scaled displacement give. What is loaded where
memory does not answer is not said (entry 38); that a marked access that TEA ends is a breakpoint is
entry 16. -/
def Obligations.LoadResults : Prop :=
  ∀ (s : State) (rz : Reg) (imm4 : BitVec 4) (rx : Reg),
    (LoadBehaves (.ldW rz imm4 rx) s .word rz (s.reg rx + 4 * imm4.setWidth 32) ∧
      HasWord (.ldW rz imm4 rx) (pageRzRx 0x8000 rz imm4 rx)) ∧
    (LoadBehaves (.ldB rz imm4 rx) s .byte rz (s.reg rx + imm4.setWidth 32) ∧
      HasWord (.ldB rz imm4 rx) (pageRzRx 0xA000 rz imm4 rx)) ∧
    (LoadBehaves (.ldH rz imm4 rx) s .half rz (s.reg rx + 2 * imm4.setWidth 32) ∧
      HasWord (.ldH rz imm4 rx) (pageRzRx 0xC000 rz imm4 rx))

/-- R243 to R245: the stores. That `st.b` stores the low byte is the spec's inference in R243, that a store
ended by TEA changes no memory its D20 (entry 30), that the bytes stored are stale for the fetch its D11
(entry 36); that only RAM takes a store is entry 38, that a marked access that TEA ends is a breakpoint
entry 16. -/
def Obligations.StoreResults : Prop :=
  ∀ (s : State) (rz : Reg) (imm4 : BitVec 4) (rx : Reg),
    (StoreBehaves (.stW rz imm4 rx) s .word (s.reg rx + 4 * imm4.setWidth 32) (s.reg rz) ∧
      HasWord (.stW rz imm4 rx) (pageRzRx 0x9000 rz imm4 rx)) ∧
    (StoreBehaves (.stB rz imm4 rx) s .byte (s.reg rx + imm4.setWidth 32) (s.reg rz) ∧
      HasWord (.stB rz imm4 rx) (pageRzRx 0xB000 rz imm4 rx)) ∧
    (StoreBehaves (.stH rz imm4 rx) s .half (s.reg rx + 2 * imm4.setWidth 32) (s.reg rz) ∧
      HasWord (.stH rz imm4 rx) (pageRzRx 0xD000 rz imm4 rx))

/-- `ldm` and `ldq` where no word ends in a bus error (R246, R248): each register of the list holds its word
where memory answers (entry 38), no other register and nothing else changes, the base register included. -/
def Obligations.LoadMultipleResults : Prop :=
  ∀ (s : State) (a : Word) (r : Reg),
    (1 ≤ r.toNat → r.toNat ≤ 14 → s.dataAddr .word (s.reg r0) = some a →
      (∀ k < 16 - r.toNat, s.busError (a + BitVec.ofNat 32 (4 * k)) .word .read = false) →
      ∃ t, exec (.ldm r) s = .next t ∧
        WordsLoaded s t r.toNat (16 - r.toNat) a ∧ t.psr = s.psr ∧ SameSpecials s t ∧ SameMemory s t ∧
        t.stale = s.stale ∧
        AdvancedMarked s t
          ((List.range (16 - r.toNat)).any
            (fun k => s.brkReq (a + BitVec.ofNat 32 (4 * k)) .word .read))) ∧
    (¬ (4 ≤ r.toNat ∧ r.toNat ≤ 7) → s.dataAddr .word (s.reg r) = some a →
      (∀ k < 4, s.busError (a + BitVec.ofNat 32 (4 * k)) .word .read = false) →
      ∃ t, exec (.ldq r) s = .next t ∧
        WordsLoaded s t 4 4 a ∧ t.psr = s.psr ∧ SameSpecials s t ∧ SameMemory s t ∧ t.stale = s.stale ∧
        AdvancedMarked s t
          ((List.range 4).any (fun k => s.brkReq (a + BitVec.ofNat 32 (4 * k)) .word .read)))

/-- `stm` and `stq` where no word ends in a bus error (R247, R249): the bytes of the registers of the list, and
no other byte, are stored where RAM answers (entry 38), and are stale for the fetch (R86, the spec's D11;
entry 36). For `stq` with its base in R4 to R7 the word of the base register is not said. -/
def Obligations.StoreMultipleResults : Prop :=
  ∀ (s : State) (a : Word) (r : Reg),
    (1 ≤ r.toNat → r.toNat ≤ 14 → s.dataAddr .word (s.reg r0) = some a →
      (∀ k < 16 - r.toNat, s.busError (a + BitVec.ofNat 32 (4 * k)) .word .write = false) →
      ∃ t, exec (.stm r) s = .next t ∧
        WordsStored s t r.toNat (16 - r.toNat) a (fun _ => False) ∧ SameRegs s t ∧ t.psr = s.psr ∧
        SameSpecials s t ∧
        AdvancedMarked s t
          ((List.range (16 - r.toNat)).any
            (fun k => s.brkReq (a + BitVec.ofNat 32 (4 * k)) .word .write))) ∧
    (s.dataAddr .word (s.reg r) = some a →
      (∀ k < 4, s.busError (a + BitVec.ofNat 32 (4 * k)) .word .write = false) →
      ∃ t, exec (.stq r) s = .next t ∧
        WordsStored s t 4 4 a (fun j => j + 4 = r.toNat) ∧ SameRegs s t ∧ t.psr = s.psr ∧
        SameSpecials s t ∧
        AdvancedMarked s t
          ((List.range 4).any (fun k => s.brkReq (a + BitVec.ofNat 32 (4 * k)) .word .write)))

/-- A multi-register transfer that meets its first bus error at its word `k` has made the first transfers only,
some number `n` of those before that word, and raises an access error with its own address as return PC, or a
breakpoint where BRKREQ marks the access in error (R83, R246 to R249, R318, R362; entry 16). That the access in
error is never among those made is the model's reading of U28 (entry 39). -/
def Obligations.FaultingTransfersMakeAPrefix : Prop :=
  ∀ (s : State) (a : Word) (r : Reg) (k : Nat),
    let word := fun j : Nat => a + BitVec.ofNat 32 (4 * j)
    let faults := fun (i : Instr) (base : Word) (len : Nat) (kind : AccessKind)
        (made : State → Nat → Prop) =>
      s.dataAddr .word base = some a → k < len →
      (∀ j < k, s.busError (word j) .word kind = false) → s.busError (word k) .word kind = true →
      CanTake s (if s.brkReq (word k) .word kind then 7#7 else 2#7) false →
      ∃ u t n, made u n ∧ n ≤ k ∧ exec i s = .next t ∧
        HandlerEntered u t (vectorFor s (if s.brkReq (word k) .word kind then 7#7 else 2#7) false) s.pc
          false false
    let loads := fun (i : Instr) (base : Word) (first len : Nat) =>
      faults i base len .read fun u n => WordsLoaded s u first n a ∧
        u = { s with
          regs := u.regs, altRegs := u.altRegs, brkPending := u.brkPending, free := u.free }
    let stores := fun (i : Instr) (base : Word) (first len : Nat) (unsaid : Nat → Prop) =>
      faults i base len .write fun u n => WordsStored s u first n a unsaid ∧
        u = { s with mem := u.mem, stale := u.stale, brkPending := u.brkPending, free := u.free }
    (1 ≤ r.toNat → r.toNat ≤ 14 →
      loads (.ldm r) (s.reg r0) r.toNat (16 - r.toNat) ∧
      stores (.stm r) (s.reg r0) r.toNat (16 - r.toNat) (fun _ => False)) ∧
    (¬ (4 ≤ r.toNat ∧ r.toNat ≤ 7) → loads (.ldq r) (s.reg r) 4 4) ∧
    stores (.stq r) (s.reg r) 4 4 (fun j => j + 4 = r.toNat)

/-- R250: `lrw` reads a word at an address that is always aligned, in its 14 forms. That the read is a data
read for BusError and BRKREQ is entry 18, that a marked one that TEA ends is a breakpoint entry 16; what it
gives where memory does not answer is not said (entry 38). -/
def Obligations.LoadRelativeWordResults : Prop :=
  ∀ (s : State) (rz : Reg) (d : BitVec 8), 1 ≤ rz.toNat → rz.toNat ≤ 14 →
    let a := (s.pc + 2 + 4 * d.setWidth 32) &&& 0xFFFFFFFC#32
    HasWord (.lrw rz d) (0x7000#16 ||| (rz.setWidth 16 <<< 8) ||| d.setWidth 16) ∧
    (s.busError a .word .read = false →
      LoadsReg (.lrw rz d) s rz .word a Config.literalIsProgram) ∧
    (s.busError a .word .read = true → s.brkReq a .word .read = false →
      CanTake s 2#7 false → Raises (.lrw rz d) s 2#7 s.pc) ∧
    (s.busError a .word .read = true → s.brkReq a .word .read = true →
      CanTake s 7#7 false → Raises (.lrw rz d) s 7#7 s.pc)

/-! ## Flow control -/

/-- R260 to R263. That `br`, whatever its displacement, also closes the windows of an earlier `mtcr` is the
spec's D23 (R390, entry 11), that no byte stays stale for the fetch after a taken branch its D11 (R86,
entry 36). -/
def Obligations.BranchResults : Prop :=
  ∀ (s : State) (d : BitVec 11),
    let target := s.pc + 2 + BitVec.ofInt 32 (2 * d.toInt)
    ((∃ t, exec (.br d) s = .next t ∧ SameRegs s t ∧ t.psr = s.psr ∧ SameSpecials s t ∧
        SameMemory s t ∧ Jumped s t target false ∧ t.windows = Windows.closed) ∧
      HasWord (.br d) (0xF000#16 ||| d.setWidth 16)) ∧
    ((s.psr.c = true → JumpsTo (.bt d) s target false) ∧ (s.psr.c = false → NotTaken (.bt d) s) ∧
      HasWord (.bt d) (0xE000#16 ||| d.setWidth 16)) ∧
    ((s.psr.c = false → JumpsTo (.bf d) s target false) ∧ (s.psr.c = true → NotTaken (.bf d) s) ∧
      HasWord (.bf d) (0xE800#16 ||| d.setWidth 16)) ∧
    (CallsTo (.bsr d) s target false ∧ HasWord (.bsr d) (0xF800#16 ||| d.setWidth 16))

/-- R264, R265: bit 0 of the register is dropped; the target is read before R15 is written. That no byte stays
stale for the fetch is the spec's D11 (entry 36). -/
def Obligations.RegisterJumpResults : Prop :=
  ∀ (s : State) (rx : Reg),
    let target := BitVec.ofNat 32 ((s.reg rx).toNat / 2 * 2)
    (JumpsTo (.jmp rx) s target false ∧ HasWord (.jmp rx) (pageRx 0x00C0 rx)) ∧
    (rx ≠ 15#4 → CallsTo (.jsr rx) s target false) ∧ HasWord (.jsr rx) (pageRx 0x00D0 rx)

/-- `jmpi` and `jsri` (R267, R268): an even literal is the new PC; an odd one raises a misaligned access with
the word itself as return PC, whatever MM is; a bus error on the read raises an access error with the
instruction's address, or a breakpoint where BRKREQ marks that read (R362, entry 16). What R15 holds when
`jsri` raises is not said (the spec's D16, entry 22), nor what the literal is where memory does not answer
(entry 38). That the read is a data read for BusError and BRKREQ is entry 18. -/
def Obligations.IndirectJumpResults : Prop :=
  ∀ (s : State) (d : BitVec 8),
    let a := (s.pc + 2 + 4 * d.setWidth 32) &&& 0xFFFFFFFC#32
    let v := s.busRead .word a Config.literalIsProgram
    let marked := s.brkReq a .word .read
    let callRaises := fun (n : BitVec 7) (ret : Word) =>
      ∃ t, exec (.jsri d) s = .next t ∧
        ∃ x, (x = s.reg r15 ∨ x = s.pc + 2) ∧
          HandlerEntered (s.setReg r15 x) t (vectorFor s n false) ret false false
    HasWord (.jmpi d) (0x7000#16 ||| d.setWidth 16) ∧
    HasWord (.jsri d) (0x7F00#16 ||| d.setWidth 16) ∧
    GivenByRead s .word a Config.literalIsProgram v ∧
    (s.busError a .word .read = false → v.getLsbD 0 = false →
      JumpsTo (.jmpi d) s v marked ∧ CallsTo (.jsri d) s v marked) ∧
    (s.busError a .word .read = false → v.getLsbD 0 = true → CanTake s 1#7 false →
      Raises (.jmpi d) s 1#7 v ∧ callRaises 1#7 v) ∧
    (s.busError a .word .read = true → marked = false → CanTake s 2#7 false →
      Raises (.jmpi d) s 2#7 s.pc ∧ callRaises 2#7 s.pc) ∧
    (s.busError a .word .read = true → marked = true → CanTake s 7#7 false →
      Raises (.jmpi d) s 7#7 s.pc ∧ callRaises 7#7 s.pc)

/-- R269: the count and C are written whether or not the branch is taken; the branch looks at the old C. That
no byte stays stale for the fetch after a taken branch is the spec's D11 (entry 36). -/
def Obligations.LoopResults : Prop :=
  ∀ (s : State) (ry : Reg) (b : BitVec 4),
    let less := BitVec.ofInt 32 ((s.reg ry).toInt - 1)
    HasWord (.loopt ry b) (0x0400#16 ||| (ry.setWidth 16 <<< 4) ||| b.setWidth 16) ∧
    ∃ t, exec (.loopt ry b) s = .next t ∧ RegWritten s t ry less ∧
      t.psr = { s.psr with c := decide (0 < less.toInt) } ∧ SameSpecials s t ∧ SameMemory s t ∧
      (s.psr.c = true →
        Jumped s t (s.pc + 2 + BitVec.ofInt 32 (2 * (b.toNat : Int) - 32)) false ∧
        t.windows = s.windows) ∧
      (s.psr.c = false → FellThrough s t)

/-! ## System instructions -/

/-- R284: in user mode the seven privileged instructions raise vector 5 before anything else is looked
at, the number of the control register included. -/
def Obligations.PrivilegedInstructionsRaiseInUserMode : Prop :=
  ∀ (s : State) (cr : CregField) (rx : Reg), s.supervisor = false → CanTake s 5#7 false →
    Raises (.mfcr cr rx) s 5#7 s.pc ∧ Raises (.mtcr cr rx) s 5#7 s.pc ∧
    Raises .rfi s 5#7 s.pc ∧ Raises .rte s 5#7 s.pc ∧ Raises .stop s 5#7 s.pc ∧
    Raises .wait s 5#7 s.pc ∧ Raises .doze s 5#7 s.pc

/-- `mfcr` in supervisor mode (R286). The numbers of VBR, SS0 to SS4, GCR and GSR are the spec's D1, the
places of the PSR's lower bits its D2 (entry 9). -/
def Obligations.MoveFromControlRegisterResults : Prop :=
  ∀ (s : State) (rx : Reg), s.supervisor = true →
    WritesReg (.mfcr 0 rx) s rx s.psr.toWord ∧
    (∃ v, v.toNat = s.vbr.toNat * 1024 ∧ WritesReg (.mfcr 1 rx) s rx v) ∧
    WritesReg (.mfcr 2 rx) s rx s.epsr ∧ WritesReg (.mfcr 3 rx) s rx s.fpsr ∧
    WritesReg (.mfcr 4 rx) s rx s.epc ∧ WritesReg (.mfcr 5 rx) s rx s.fpc ∧
    (∀ k : Fin 5, WritesReg (.mfcr (BitVec.ofNat 5 (6 + k)) rx) s rx s.ss[k]) ∧
    WritesReg (.mfcr 11 rx) s rx s.gcr ∧ WritesReg (.mfcr 12 rx) s rx s.inputs.gsr

/-- The layout of the PSR as a word (R32, R38, R48; the lower half is the spec's D2, entry 9): where every
field stands, and that TP and the reserved bits have no storage. -/
def Obligations.PsrWordLayout : Prop :=
  (∀ p : Psr, HasBits p.toWord (fun k =>
    if k = 31 then p.s
    else if k = 28 ∨ k = 29 then p.sp.getLsbD (k - 28)
    else if 24 ≤ k ∧ k ≤ 27 then p.u.getLsbD (k - 24)
    else if 16 ≤ k ∧ k ≤ 22 then p.vec.getLsbD (k - 16)
    else if k = 14 ∨ k = 15 then p.tm.getLsbD (k - 14)
    else if k = 12 then p.tc else if k = 10 then p.sc else if k = 9 then p.mm
    else if k = 8 then p.ee else if k = 7 then p.ic else if k = 6 then p.ie
    else if k = 4 then p.fe else if k = 1 then p.af else if k = 0 then p.c else false)) ∧
  (∀ p : Psr, Psr.ofWord p.toWord = p) ∧
  (∀ w : Word, (Psr.ofWord w).toWord = w &&& 0xBF7FD7D3#32)

/-- `mtcr` in supervisor mode to a register other than the PSR (R287): the register and nothing else is
written; VBR drops its low ten bits (R52), GSR ignores the write (R57). The register numbers are the spec's
D1 (entry 9); a PSR image with a reserved or SP bit is not written to EPSR or FPSR (entry 25). -/
def Obligations.MoveToControlRegisterResults : Prop :=
  ∀ (s : State) (rx : Reg), s.supervisor = true →
    let v := s.reg rx
    let writes := fun (cr : CregField) (u : State) =>
      ∃ t, exec (.mtcr cr rx) s = .next t ∧ SameRegs s t ∧ t.psr = s.psr ∧ SameSpecials u t ∧
        SameMemory s t ∧ Advanced s t
    writes 1 { s with vbr := BitVec.ofNat 22 (v.toNat / 1024) } ∧
    (psrBitsOk v = true → writes 2 { s with epsr := v } ∧ writes 3 { s with fpsr := v }) ∧
    writes 4 { s with epc := v } ∧ writes 5 { s with fpc := v } ∧
    (∀ k : Fin 5, writes (BitVec.ofNat 5 (6 + k)) { s with ss := s.ss.set k v }) ∧
    writes 11 { s with gcr := v } ∧ writes 12 s

/-- `mtcr` to the PSR (R287, R390): every field is written at once; a field among S, TM, TC, EE, AF that
changes leaves its old value behind in its window (the spec's D23). -/
def Obligations.MoveToPsrOpensWindows : Prop :=
  ∀ (s : State) (rx : Reg), s.supervisor = true → psrBitsOk (s.reg rx) = true →
    traceModeOk (s.reg rx) = true →
    ∃ t, exec (.mtcr 0 rx) s = .next t ∧ SameRegs s t ∧ t.psr = Psr.ofWord (s.reg rx) ∧
      SameSpecials s t ∧ SameMemory s t ∧ t.pc = s.pc + 2 ∧ TracedAlways s t ∧
      t.brkPending = s.brkPending ∧ t.stale = s.stale ∧
      t.windows.s = s.windows.s ++ (if t.psr.s = s.psr.s then [] else [s.psr.s]) ∧
      t.windows.tm = s.windows.tm ++ (if t.psr.tm = s.psr.tm then [] else [s.psr.tm]) ∧
      t.windows.tc = s.windows.tc ++ (if t.psr.tc = s.psr.tc then [] else [s.psr.tc]) ∧
      t.windows.ee = s.windows.ee ++ (if t.psr.ee = s.psr.ee then [] else [s.psr.ee]) ∧
      t.windows.af = s.windows.af ++ (if t.psr.af = s.psr.af then [] else [s.psr.af])

/-- The value of a windowed field in effect is an old one or the new one, and an old value given up never
comes back (R390): deciding the values only shortens the windows. -/
def Obligations.WindowsOnlyShrink : Prop :=
  ∀ s : State,
    s.settle.windows.s <:+ s.windows.s ∧ s.settle.windows.tm <:+ s.windows.tm ∧
    s.settle.windows.tc <:+ s.windows.tc ∧ s.settle.windows.ee <:+ s.windows.ee ∧
    s.settle.windows.af <:+ s.windows.af ∧
    s.settle = { s with windows := s.settle.windows, free := s.settle.free } ∧
    (s.supervisor = s.psr.s ∨ s.supervisor ∈ s.windows.s) ∧
    (s.altFile = s.psr.af ∨ s.altFile ∈ s.windows.af)

/-- What the spec gives no meaning stops, each under its own name: register forms (R392; D27), control registers
without a name (R60; D4), PSR images with SP or reserved bits (R34, R48; D3) or with TM = 10 (R340; D18).
These are the spec's decisions, entries 23, 25 and 26. -/
def Obligations.FormsWithoutMeaningStop : Prop :=
  ∀ (s : State) (rx : Reg),
    exec (.jsr 15#4) s = .refused .jsrLinkRegister ∧
    (rx.toNat = 0 ∨ rx.toNat = 15 →
      exec (.ldm rx) s = .refused .multipleFirstRegister ∧
      exec (.stm rx) s = .refused .multipleFirstRegister) ∧
    (4 ≤ rx.toNat ∧ rx.toNat ≤ 7 → exec (.ldq rx) s = .refused .quadrantBase) ∧
    (s.supervisor = true →
      (∀ cr : CregField, 13 ≤ cr.toNat →
        exec (.mtcr cr rx) s = .refused .unnamedControlRegister ∧
        exec (.mfcr cr rx) s = .refused .unnamedControlRegister) ∧
      (psrBitsOk (s.reg rx) = false →
        exec (.mtcr 0 rx) s = .refused .reservedPsrBits ∧
        exec (.mtcr 2 rx) s = .refused .reservedPsrBits ∧
        exec (.mtcr 3 rx) s = .refused .reservedPsrBits) ∧
      (psrBitsOk (s.reg rx) = true → traceModeOk (s.reg rx) = false →
        exec (.mtcr 0 rx) s = .refused .reservedTraceMode) ∧
      (psrBitsOk s.epsr = false → exec .rte s = .refused .reservedPsrBits) ∧
      (psrBitsOk s.epsr = true → traceModeOk s.epsr = false →
        exec .rte s = .refused .reservedTraceMode) ∧
      (psrBitsOk s.fpsr = false → exec .rfi s = .refused .reservedPsrBits) ∧
      (psrBitsOk s.fpsr = true → traceModeOk s.fpsr = false →
        exec .rfi s = .refused .reservedTraceMode))

/-- R282, R283: the PSR and the PC come back from the shadow pair together, TP becomes a pending trace (R345),
the shadow pair stays. That the windows of a `mtcr` close is the spec's D23 (entry 11), that no byte stays
stale for the fetch its D11 (entry 36), the images it stops on are entry 26. -/
def Obligations.ReturnFromExceptionRestores : Prop :=
  ∀ s : State, s.supervisor = true →
    let returns := fun (i : Instr) (shadow ret : Word) =>
      psrBitsOk shadow = true → traceModeOk shadow = true →
      ∃ t, exec i s = .next t ∧ t.psr = Psr.ofWord shadow ∧
        t.pc = BitVec.ofNat 32 (ret.toNat / 2 * 2) ∧ t.tracePending = shadow.getLsbD 13 ∧
        t.windows = Windows.closed ∧ t.stale = [] ∧ t.brkPending = s.brkPending ∧ SameRegs s t ∧
        SameSpecials s t ∧ SameMemory s t
    (returns .rte s.epsr s.epc ∧ HasWord .rte 0x0002#16) ∧
    (returns .rfi s.fpsr s.fpc ∧ HasWord .rfi 0x0003#16)

/-- R280, R281: `bkpt` raises vector 7 and `trap #n` vector 16 + n, with their own address as return PC. The
decisions in the entry are those of `ExceptionEntryState`. -/
def Obligations.SoftwareExceptionsRaise : Prop :=
  ∀ (s : State) (n : BitVec 2),
    (CanTake s 7#7 false → Raises .bkpt s 7#7 s.pc) ∧ HasWord .bkpt 0x0000#16 ∧
    (CanTake s (BitVec.ofNat 7 (16 + n.toNat)) false →
      Raises (.trap n) s (BitVec.ofNat 7 (16 + n.toNat)) s.pc) ∧
    HasWord (.trap n) (0x0008#16 ||| n.setWidth 16)

/-- R288 to R290: in supervisor mode the core enters the low-power state; no register and no flag
changes, PC is the next instruction (the spec's D14), and the instruction is never traced. -/
def Obligations.LowPowerEntry : Prop :=
  ∀ s : State, s.supervisor = true →
    let sleeps := fun (i : Instr) (m : LowPower) =>
      ∃ t, exec i s = .next t ∧ SameRegs s t ∧ t.psr = s.psr ∧
        SameSpecials { s with activity := .asleep m } t ∧ SameMemory s t ∧ t.pc = s.pc + 2 ∧
        t.tracePending = false ∧ t.brkPending = s.brkPending ∧ t.stale = s.stale ∧
        t.windows = s.windows
    sleeps .stop .stop ∧ sleeps .wait .wait ∧ sleeps .doze .doze

/-- R291: `sync` changes no architectural state, in the spec's model of one agent (D9, entry 35). -/
def Obligations.SyncChangesNothing : Prop :=
  HasWord .sync 0x0001#16 ∧ ∀ s : State, WritesC .sync s s.psr.c

/-- R292: an accelerator opcode of a disabled unit raises vector 12; one of an enabled unit stops (the
spec's D15, entry 23). That bit 24 + k guards unit k is D15 too. -/
def Obligations.AcceleratorOpcodes : Prop :=
  ∀ (s : State) (uu : BitVec 2) (x : BitVec 10),
    HasWord (.hai uu x) (0x4000#16 ||| (uu.setWidth 16 <<< 10) ||| x.setWidth 16) ∧
    (s.psr.toWord.getLsbD (24 + uu.toNat) = false → CanTake s 12#7 false →
      Raises (.hai uu x) s 12#7 s.pc) ∧
    (s.psr.toWord.getLsbD (24 + uu.toNat) = true →
      exec (.hai uu x) s = .refused .acceleratorUnit)

/-! ## Exceptions -/

/-- R310, R313, R315: the state every exception entry leaves, for every exception, with and without EE. That SP
is kept (D3, entry 31), the windows of a `mtcr` close (D23, entry 11) and no byte stays stale for the fetch
(D11, entry 36) are decisions of the spec. -/
def Obligations.ExceptionEntryState : Prop :=
  ∀ (s : State) (n : BitVec 7) (ret : Word) (fast tp : Bool), CanTake s n fast →
    HandlerEntered s (s.enter n ret fast tp) (vectorFor s n fast) ret fast tp ∧
    (∀ k, k ≠ 13 → (s.psr.toShadow tp).getLsbD k = s.psr.toWord.getLsbD k) ∧
    (s.psr.toShadow tp).getLsbD 13 = tp

/-- R314: a bus error on the fetch of a vector other than 8 is an unrecoverable error: VEC is 8 and the word
of vector 8 is read, the rest of the entry stands, EPSR and EPC are not said. A bus error on the read of
vector 8 leaves the core stuck with the rest of the entry done and AF and PC as before (the spec's D17,
entry 19; the decisions in the rest of the entry are those of `ExceptionEntryState`). The vector reads of the
resets are in `HardResetState` and `SoftResetState`. -/
def Obligations.VectorFetchFaults : Prop :=
  ∀ (s : State) (n : BitVec 7) (ret : Word) (fast tp : Bool),
    let v := vectorFor s n fast
    let t := s.enter n ret fast tp
    (¬ VectorReadable s v → v ≠ 8#7 → VectorReadable s 8#7 → InHandler s t 8#7 ret fast tp) ∧
    (¬ VectorReadable s v → (v = 8#7 ∨ ¬ VectorReadable s 8#7) →
      EntryPsr s t fast 8#7 s.psr.af ∧ t.pc = s.pc ∧ EntryFrame s t ret fast tp ∧ t.activity = .stuck)

/-! ## A step -/

/-- A step runs the instruction at PC: where nothing stands between and the word at PC decodes, the step is
`exec` of that instruction in the state whose inputs are sampled and whose windows are decided; with no
coming input and no open window that is the state itself. Where memory does not answer the fetch, some word is
the one fetched (entry 38). -/
def Obligations.StepRunsTheDecodedInstruction : Prop :=
  (∀ (s : State) (i : Instr), Undisturbed s.now → Fetchable s.now → decode s.now.wordAtPc = .ok i →
    s.now.midEvent i = none → step s = exec i s.now) ∧
  (∀ s : State, Undisturbed s.now → FetchMade s.now → (s.now.answer s.now.pc true).reads = false →
    ∃ (w : Half) (u : State), u = { s.now with free := u.free } ∧
      (∀ i, decode w = .ok i → u.midEvent i = none → step s = exec i u) ∧
      (∀ e, decode w = .error e → step s = .next (u.enter 4#7 u.pc false false))) ∧
  (∀ s : State, s.upcoming = [] → s.windows = Windows.closed → s.now = s)

/-- R322, R80: a bus error on the fetch of the instruction about to execute is an access error with its
address as return PC. -/
def Obligations.FetchBusErrorRaises : Prop :=
  ∀ s : State, Undisturbed s.now → s.now.busError s.now.pc .half .fetch = true →
    CanTake s.now 2#7 false →
    ∃ t, step s = .next t ∧
      HandlerEntered s.now t (vectorFor s.now 2#7 false) s.now.pc false false

/-- A reserved word at PC raises illegal instruction with its address as return PC (R122, R320; that every
reserved word does is the spec's D5, entry 24); an instruction in bytes stored since the last pipeline
refill stops (R86; the spec's D11, entry 36). -/
def Obligations.ReservedAndStaleWords : Prop :=
  ∀ s : State, Undisturbed s.now →
    (Fetchable s.now → reservedWord s.now.wordAtPc → CanTake s.now 4#7 false →
      ∃ t, step s = .next t ∧
        HandlerEntered s.now t (vectorFor s.now 4#7 false) s.now.pc false false) ∧
    (s.now.busError s.now.pc .half .fetch = false →
      (s.now.pc.toNat ∈ s.now.stale ∨ (s.now.pc + 1).toNat ∈ s.now.stale) →
      step s = .refused .staleFetch)

/-- What a boundary takes, in order (R360, R363): a breakpoint, FINT, INT, a pending trace. The trace flag goes
into TP of what is taken instead of it (R344). That the EE in effect masks INT is entry 12. -/
def Obligations.BoundaryEventOrder : Prop :=
  ∀ s : State, AtBoundary s.now →
    (¬ NoBreak s.now → step s = .next (s.now.enter 7#7 s.now.pc false s.now.tracePending)) ∧
    (NoBreak s.now → ∀ v, s.now.inputs.fint = some v → s.now.psr.fe = true →
      step s = .next (s.now.enter (v.vector 11#7) s.now.pc true s.now.tracePending)) ∧
    (NoBreak s.now → (s.now.inputs.fint = none ∨ s.now.psr.fe = false) →
      ∀ v, s.now.inputs.int = some v → s.now.psr.ie = true → s.now.shadowsFree = true →
      step s = .next (s.now.enter (v.vector 10#7) s.now.pc false s.now.tracePending)) ∧
    (NoBreak s.now → (s.now.inputs.fint = none ∨ s.now.psr.fe = false) →
      (s.now.inputs.int = none ∨ s.now.psr.ie = false ∨ s.now.shadowsFree = false) →
      s.now.tracePending = true → step s = .next (s.now.enter 6#7 s.now.pc false false))

/-- A core in a low-power state (R293): a request that is accepted ends it, and at the boundary that follows a
breakpoint due at the next instruction is taken, else the interrupt (R363, R360), with the PC left by the
low-power instruction as return PC; with no request it sleeps on; a masked request changes nothing but, where
the implementation has it so, the low-power state (the spec's D14). That BRKREQ alone does not end the sleep is
entry 32. -/
def Obligations.LowPowerSteps : Prop :=
  ∀ (s : State) (m : LowPower), s.now.activity = .asleep m → s.now.inputs.hardReset = none →
    s.now.inputs.srst = false → s.now.softResetSeen = false →
    (∀ n fast, s.now.accepted s.now.inputs = some (n, fast) →
      (¬ NoBreak s.now → step s = .next (s.now.enter 7#7 s.now.pc false s.now.tracePending)) ∧
      (NoBreak s.now → step s = .next (s.now.enter n s.now.pc fast s.now.tracePending))) ∧
    (s.now.inputs.int = none → s.now.inputs.fint = none → step s = .next s.now) ∧
    (s.now.accepted s.now.inputs = none →
      step s = .next s.now ∨ step s = .next { s.now with activity := .running })

/-- `mult`, `divu` and `divs` with IC set and an acceptable interrupt at hand (R335): the step either runs the
instruction, or takes the interrupt with the instruction's own address as return PC, TP clear and nothing
written. That the interrupt is the one on the next sample of the inputs, judged by the PSR before the
instruction, is entry 14, that SRST on the same sample does not keep it from being taken entry 40. -/
def Obligations.AbandonedArithmeticRestarts : Prop :=
  ∀ (s : State) (i : Instr) (n : BitVec 7) (fast : Bool),
    ((∃ ry rx, i = .mult ry rx) ∨ (∃ rx, i = .divu rx) ∨ (∃ rx, i = .divs rx)) →
    Undisturbed s.now → Fetchable s.now → decode s.now.wordAtPc = .ok i →
    s.now.psr.ic = true → s.now.accepted s.now.nextInputs = some (n, fast) →
    CanTake s.now n fast →
    ∃ t, step s = .next t ∧
      ((∃ u, u = { s.now with free := u.free } ∧ exec i u = .next t) ∨
        HandlerEntered s.now t (vectorFor s.now n fast) s.now.pc fast false)

/-- `ldm`, `ldq`, `stm` and `stq` that something ends early: the step either runs the instruction, or has made
the first transfers only, some number of them. With SRST at hand that is all, and the soft reset follows (R382;
that the transfers can be seen half done is entry 37). With IC set and an acceptable interrupt at hand (R335,
R83) the interrupt is taken, or the breakpoint that BRKREQ asked for on one of the transfers made or on one
that TEA ends (R362, entries 16 and 17), with the instruction's own address as return PC and TP clear. What is
at hand is entry 14, that SRST comes before an interrupt at hand with it entry 40; that the transfers made are
the first ones is the spec's D25. -/
def Obligations.AbandonedTransfersMakeAPrefix : Prop :=
  ∀ (s : State) (r : Reg), Undisturbed s.now → Fetchable s.now →
    let v := s.now
    let word := fun (a : Word) (j : Nat) => a + BitVec.ofNat 32 (4 * j)
    let abandons := fun (i : Instr) (base : Word) (len : Nat) (kind : AccessKind)
        (made : State → Word → Nat → Prop) =>
      let runs := fun t => ∃ u, u = { v with free := u.free } ∧ exec i u = .next t
      let partly := fun u a k => made u a k ∧ k ≤ len ∧ (v.dataAddr .word base = some a ∨ k = 0)
      decode v.wordAtPc = .ok i →
      (v.nextInputs.srst = true → ∃ t, step s = .next t ∧ (runs t ∨ ∃ a k, partly t a k)) ∧
      (∀ n fast, v.nextInputs.srst = false → v.psr.ic = true →
        v.accepted v.nextInputs = some (n, fast) → CanTake v n fast → CanTake v 7#7 false →
        ∃ t, step s = .next t ∧
          (runs t ∨ ∃ u a k, partly u a k ∧
            ((∀ j < k, v.brkReq (word a j) .word kind = false) ∧
                HandlerEntered u t (vectorFor v n fast) v.pc fast false ∨
              (v.dataAddr .word base = some a ∧
                  ∃ j < len, v.brkReq (word a j) .word kind = true ∧
                    (k ≤ j → v.busError (word a j) .word kind = true)) ∧
                HandlerEntered u t (vectorFor v 7#7 false) v.pc false false)))
    let loads := fun (i : Instr) (base : Word) (first len : Nat) =>
      abandons i base len .read fun u a k => WordsLoaded v u first k a ∧
        u = { v with
          regs := u.regs, altRegs := u.altRegs, brkPending := u.brkPending, free := u.free }
    let stores := fun (i : Instr) (base : Word) (first len : Nat) (unsaid : Nat → Prop) =>
      abandons i base len .write fun u a k => WordsStored v u first k a unsaid ∧
        u = { v with mem := u.mem, stale := u.stale, brkPending := u.brkPending, free := u.free }
    (1 ≤ r.toNat → r.toNat ≤ 14 →
      loads (.ldm r) (v.reg r0) r.toNat (16 - r.toNat) ∧
      stores (.stm r) (v.reg r0) r.toNat (16 - r.toNat) (fun _ => False)) ∧
    (¬ (4 ≤ r.toNat ∧ r.toNat ≤ 7) → loads (.ldq r) (v.reg r) 4 4) ∧
    stores (.stq r) (v.reg r) 4 4 (fun j => j + 4 = r.toNat)

/-- Hard reset at a step, whatever the core is doing (R380, R381, R384): supervisor mode, every other PSR
field zero but AF and C, VBR zero, AF and PC from the word at address 0 of the memory that the platform
presents (entry 21), where memory answers there (R384, entry 38). A bus error on that read gives VEC 8 and the
word of vector 8 instead, one on both leaves the core stuck (R314; the spec's D17, entry 19). C and the other
registers are not said; IC is the spec's D12 (entry 8). -/
def Obligations.HardResetState : Prop :=
  ∀ (s : State) (cells : List Host.Cell), s.now.inputs.hardReset = some cells →
    let v := { s.now with vbr := 0, mem := Memory.ofCells cells }
    let cleared := fun (t : State) (n : BitVec 7) (af : Bool) =>
      t.mem = v.mem ∧ t.psr = { Psr.reset with vec := n, af := af, c := t.psr.c } ∧ t.vbr = 0 ∧
        t.tracePending = false ∧ t.brkPending = false ∧ t.softResetSeen = false ∧
        t.windows = Windows.closed ∧ t.stale = []
    let starts := fun (n : BitVec 7) =>
      ∃ t x, step s = .next t ∧ GivenByVector v (4 * n.setWidth 32) x ∧ t.pc = x &&& 0xFFFFFFFE#32 ∧
        cleared t n (x.getLsbD 0) ∧ t.activity = .running
    (VectorReadable v 0#7 → starts 0#7) ∧
    (¬ VectorReadable v 0#7 → VectorReadable v 8#7 → starts 8#7) ∧
    (¬ VectorReadable v 0#7 → ¬ VectorReadable v 8#7 →
      ∃ t, step s = .next t ∧ cleared t 8#7 t.psr.af ∧ t.activity = .stuck)

/-- Soft reset (R351, R382, R383): nothing runs while SRST is asserted (that such a step leaves only a note of
it is entry 20); once it is negated VBR is zero, AF and PC come from the word at 0x24, where memory answers
there (entry 38), VEC is 9, SP is zero (the spec's D3); the general registers, FPSR, FPC, SS0 to SS4, GCR and
memory stay (the spec's reading). A bus error on that read gives VEC 8 and the word of vector 8 instead, one on
both leaves the core stuck (R314; the spec's D17, entry 19). U3 to U0, MM, C, EPSR and EPC are not said. -/
def Obligations.SoftResetState : Prop :=
  ∀ s : State, s.now.inputs.hardReset = none → s.now.activity ≠ .stuck →
    (s.now.inputs.srst = true → step s = .next { s.sample with softResetSeen := true }) ∧
    (s.now.inputs.srst = false → s.now.softResetSeen = true →
      let v := { s.now with vbr := 0 }
      let cleared := fun (t : State) (n : BitVec 7) (af : Bool) =>
        t.psr =
          { v.psr with
            s := true, sp := 0, vec := n, tm := 0, tc := false, sc := false, ee := false, ic := false
            ie := false, fe := false, af := af
            u := t.psr.u, mm := t.psr.mm, c := t.psr.c } ∧
        t.vbr = 0 ∧ t.tracePending = false ∧ t.brkPending = false ∧ t.softResetSeen = false ∧
        t.windows = Windows.closed ∧ t.stale = [] ∧ SameRegs v t ∧ SameMemory v t ∧
        t.fpsr = v.fpsr ∧ t.fpc = v.fpc ∧ t.ss = v.ss ∧ t.gcr = v.gcr
      let starts := fun (n : BitVec 7) =>
        ∃ t x, step s = .next t ∧ GivenByVector v (4 * n.setWidth 32) x ∧
          t.pc = x &&& 0xFFFFFFFE#32 ∧ cleared t n (x.getLsbD 0) ∧ t.activity = .running
      (VectorReadable v 9#7 → starts 9#7) ∧
      (¬ VectorReadable v 9#7 → VectorReadable v 8#7 → starts 8#7) ∧
      (¬ VectorReadable v 9#7 → ¬ VectorReadable v 8#7 →
        ∃ t, step s = .next t ∧ cleared t 8#7 v.psr.af ∧ t.pc = v.pc ∧ t.activity = .stuck))

/-- The state after reset: the values that R63 and R381 state, and the invariant of every step. -/
def Obligations.ResetStateIsLegal : Prop :=
  State.reset.Legal ∧ State.reset.psr.toWord &&& 0xFFFFFFFC#32 = 0x80000000#32 ∧
    State.reset.vbr = 0 ∧ State.reset.activity = .running ∧ State.reset.tracePending = false ∧
    State.reset.brkPending = false ∧ State.reset.mem = []

/-! ## Rules of the whole machine -/

/-- Every step keeps the invariant, from any state that has it: PC even, memory in canonical form, SP and the
reserved bits of the shadow PSRs zero, TM never the reserved value, nothing pending in a core that does not
run. -/
def Obligations.EveryStepKeepsLegal : Prop := ∀ s t : State, s.Legal → step s = .next t → t.Legal

/-- In user mode no instruction changes VBR, FPSR, FPC, SS0 to SS4 or GCR, and none changes EPSR, EPC or any
bit of the PSR but C unless it ends in an exception entry, from a state with the same PSR but for C (R31,
R371). -/
def Obligations.UserModeKeepsControlState : Prop :=
  ∀ (i : Instr) (s t : State), s.supervisor = false → exec i s = .next t →
    t.vbr = s.vbr ∧ t.fpsr = s.fpsr ∧ t.fpc = s.fpc ∧ t.ss = s.ss ∧ t.gcr = s.gcr ∧
    ((t.psr = { s.psr with c := t.psr.c } ∧ t.epsr = s.epsr ∧ t.epc = s.epc) ∨
      ∃ (u : State) (n : BitVec 7) (ret : Word),
        u.psr = { s.psr with c := u.psr.c } ∧ t = u.enter n ret false false)

/-- No instruction changes a register of the file that AF does not select (R22, R25). -/
def Obligations.UnselectedFileIsUntouched : Prop :=
  ∀ (i : Instr) (s t : State), exec i s = .next t →
    ∀ r : Reg, t.fileReg (!s.altFile) r = s.fileReg (!s.altFile) r

/-- Only `st.w`, `st.b`, `st.h`, `stm` and `stq` change memory; no exception entry does (R70, R310). -/
def Obligations.OnlyStoresChangeMemory : Prop :=
  ∀ (i : Instr) (s t : State), storesMemory i = false → exec i s = .next t → t.mem = s.mem

end
end

