-- ==== Sys2Proof/Laws/State.lean ====
section
/-! SUPPORT. One lemma for each field of State after each named update, true by `rfl`, so that no proof
unfolds a record update; and what the updates do to the registers and to the values in effect. -/

namespace Sys2Proof.Machine

/-! ## `State.setReg` -/

@[simp] theorem State.setReg_regs (s : State) (i : Reg) (v : Word) :
    (s.setReg i v).regs = if s.altFile then s.regs else s.regs.set i.toNat v i.isLt := rfl

@[simp] theorem State.setReg_altRegs (s : State) (i : Reg) (v : Word) :
    (s.setReg i v).altRegs = if s.altFile then s.altRegs.set i.toNat v i.isLt else s.altRegs := rfl

@[simp] theorem State.setReg_pc (s : State) (i : Reg) (v : Word) : (s.setReg i v).pc = s.pc := rfl

@[simp] theorem State.setReg_psr (s : State) (i : Reg) (v : Word) : (s.setReg i v).psr = s.psr := rfl

@[simp] theorem State.setReg_vbr (s : State) (i : Reg) (v : Word) : (s.setReg i v).vbr = s.vbr := rfl

@[simp] theorem State.setReg_epsr (s : State) (i : Reg) (v : Word) : (s.setReg i v).epsr = s.epsr := rfl

@[simp] theorem State.setReg_epc (s : State) (i : Reg) (v : Word) : (s.setReg i v).epc = s.epc := rfl

@[simp] theorem State.setReg_fpsr (s : State) (i : Reg) (v : Word) : (s.setReg i v).fpsr = s.fpsr := rfl

@[simp] theorem State.setReg_fpc (s : State) (i : Reg) (v : Word) : (s.setReg i v).fpc = s.fpc := rfl

@[simp] theorem State.setReg_ss (s : State) (i : Reg) (v : Word) : (s.setReg i v).ss = s.ss := rfl

@[simp] theorem State.setReg_gcr (s : State) (i : Reg) (v : Word) : (s.setReg i v).gcr = s.gcr := rfl

@[simp] theorem State.setReg_mem (s : State) (i : Reg) (v : Word) : (s.setReg i v).mem = s.mem := rfl

@[simp] theorem State.setReg_activity (s : State) (i : Reg) (v : Word) :
    (s.setReg i v).activity = s.activity := rfl

@[simp] theorem State.setReg_tracePending (s : State) (i : Reg) (v : Word) :
    (s.setReg i v).tracePending = s.tracePending := rfl

@[simp] theorem State.setReg_brkPending (s : State) (i : Reg) (v : Word) :
    (s.setReg i v).brkPending = s.brkPending := rfl

@[simp] theorem State.setReg_softResetSeen (s : State) (i : Reg) (v : Word) :
    (s.setReg i v).softResetSeen = s.softResetSeen := rfl

@[simp] theorem State.setReg_windows (s : State) (i : Reg) (v : Word) :
    (s.setReg i v).windows = s.windows := rfl

@[simp] theorem State.setReg_stale (s : State) (i : Reg) (v : Word) : (s.setReg i v).stale = s.stale := rfl

@[simp] theorem State.setReg_inputs (s : State) (i : Reg) (v : Word) :
    (s.setReg i v).inputs = s.inputs := rfl

@[simp] theorem State.setReg_upcoming (s : State) (i : Reg) (v : Word) :
    (s.setReg i v).upcoming = s.upcoming := rfl

@[simp] theorem State.setReg_free (s : State) (i : Reg) (v : Word) : (s.setReg i v).free = s.free := rfl

@[simp] theorem State.setReg_altFile (s : State) (i : Reg) (v : Word) :
    (s.setReg i v).altFile = s.altFile := rfl

@[simp] theorem State.setReg_supervisor (s : State) (i : Reg) (v : Word) :
    (s.setReg i v).supervisor = s.supervisor := rfl

@[simp] theorem State.setReg_traceMode (s : State) (i : Reg) (v : Word) :
    (s.setReg i v).traceMode = s.traceMode := rfl

@[simp] theorem State.setReg_shadowsFree (s : State) (i : Reg) (v : Word) :
    (s.setReg i v).shadowsFree = s.shadowsFree := rfl

/-! ## `State.setC` -/

@[simp] theorem State.setC_regs (s : State) (b : Bool) : (s.setC b).regs = s.regs := rfl

@[simp] theorem State.setC_altRegs (s : State) (b : Bool) : (s.setC b).altRegs = s.altRegs := rfl

@[simp] theorem State.setC_pc (s : State) (b : Bool) : (s.setC b).pc = s.pc := rfl

@[simp] theorem State.setC_psr (s : State) (b : Bool) : (s.setC b).psr = { s.psr with c := b } := rfl

@[simp] theorem State.setC_vbr (s : State) (b : Bool) : (s.setC b).vbr = s.vbr := rfl

@[simp] theorem State.setC_epsr (s : State) (b : Bool) : (s.setC b).epsr = s.epsr := rfl

@[simp] theorem State.setC_epc (s : State) (b : Bool) : (s.setC b).epc = s.epc := rfl

@[simp] theorem State.setC_fpsr (s : State) (b : Bool) : (s.setC b).fpsr = s.fpsr := rfl

@[simp] theorem State.setC_fpc (s : State) (b : Bool) : (s.setC b).fpc = s.fpc := rfl

@[simp] theorem State.setC_ss (s : State) (b : Bool) : (s.setC b).ss = s.ss := rfl

@[simp] theorem State.setC_gcr (s : State) (b : Bool) : (s.setC b).gcr = s.gcr := rfl

@[simp] theorem State.setC_mem (s : State) (b : Bool) : (s.setC b).mem = s.mem := rfl

@[simp] theorem State.setC_activity (s : State) (b : Bool) : (s.setC b).activity = s.activity := rfl

@[simp] theorem State.setC_tracePending (s : State) (b : Bool) :
    (s.setC b).tracePending = s.tracePending := rfl

@[simp] theorem State.setC_brkPending (s : State) (b : Bool) : (s.setC b).brkPending = s.brkPending := rfl

@[simp] theorem State.setC_softResetSeen (s : State) (b : Bool) :
    (s.setC b).softResetSeen = s.softResetSeen := rfl

@[simp] theorem State.setC_windows (s : State) (b : Bool) : (s.setC b).windows = s.windows := rfl

@[simp] theorem State.setC_stale (s : State) (b : Bool) : (s.setC b).stale = s.stale := rfl

@[simp] theorem State.setC_inputs (s : State) (b : Bool) : (s.setC b).inputs = s.inputs := rfl

@[simp] theorem State.setC_upcoming (s : State) (b : Bool) : (s.setC b).upcoming = s.upcoming := rfl

@[simp] theorem State.setC_free (s : State) (b : Bool) : (s.setC b).free = s.free := rfl

@[simp] theorem State.setC_altFile (s : State) (b : Bool) :
    (s.setC b).altFile = s.altFile := rfl

@[simp] theorem State.setC_supervisor (s : State) (b : Bool) :
    (s.setC b).supervisor = s.supervisor := rfl

@[simp] theorem State.setC_traceMode (s : State) (b : Bool) :
    (s.setC b).traceMode = s.traceMode := rfl

@[simp] theorem State.setC_shadowsFree (s : State) (b : Bool) :
    (s.setC b).shadowsFree = s.shadowsFree := rfl

@[simp] theorem State.setC_reg (s : State) (b : Bool) (r : Reg) :
    (s.setC b).reg r = s.reg r := rfl

@[simp] theorem State.setC_fileReg (s : State) (b : Bool) (alt : Bool) (r : Reg) :
    (s.setC b).fileReg alt r = s.fileReg alt r := rfl

/-! ## `State.drawn` -/

@[simp] theorem State.drawn_regs (s : State) (n : Nat) : (s.drawn n).regs = s.regs := rfl

@[simp] theorem State.drawn_altRegs (s : State) (n : Nat) : (s.drawn n).altRegs = s.altRegs := rfl

@[simp] theorem State.drawn_pc (s : State) (n : Nat) : (s.drawn n).pc = s.pc := rfl

@[simp] theorem State.drawn_psr (s : State) (n : Nat) : (s.drawn n).psr = s.psr := rfl

@[simp] theorem State.drawn_vbr (s : State) (n : Nat) : (s.drawn n).vbr = s.vbr := rfl

@[simp] theorem State.drawn_epsr (s : State) (n : Nat) : (s.drawn n).epsr = s.epsr := rfl

@[simp] theorem State.drawn_epc (s : State) (n : Nat) : (s.drawn n).epc = s.epc := rfl

@[simp] theorem State.drawn_fpsr (s : State) (n : Nat) : (s.drawn n).fpsr = s.fpsr := rfl

@[simp] theorem State.drawn_fpc (s : State) (n : Nat) : (s.drawn n).fpc = s.fpc := rfl

@[simp] theorem State.drawn_ss (s : State) (n : Nat) : (s.drawn n).ss = s.ss := rfl

@[simp] theorem State.drawn_gcr (s : State) (n : Nat) : (s.drawn n).gcr = s.gcr := rfl

@[simp] theorem State.drawn_mem (s : State) (n : Nat) : (s.drawn n).mem = s.mem := rfl

@[simp] theorem State.drawn_activity (s : State) (n : Nat) : (s.drawn n).activity = s.activity := rfl

@[simp] theorem State.drawn_tracePending (s : State) (n : Nat) :
    (s.drawn n).tracePending = s.tracePending := rfl

@[simp] theorem State.drawn_brkPending (s : State) (n : Nat) : (s.drawn n).brkPending = s.brkPending := rfl

@[simp] theorem State.drawn_softResetSeen (s : State) (n : Nat) :
    (s.drawn n).softResetSeen = s.softResetSeen := rfl

@[simp] theorem State.drawn_windows (s : State) (n : Nat) : (s.drawn n).windows = s.windows := rfl

@[simp] theorem State.drawn_stale (s : State) (n : Nat) : (s.drawn n).stale = s.stale := rfl

@[simp] theorem State.drawn_inputs (s : State) (n : Nat) : (s.drawn n).inputs = s.inputs := rfl

@[simp] theorem State.drawn_upcoming (s : State) (n : Nat) : (s.drawn n).upcoming = s.upcoming := rfl

@[simp] theorem State.drawn_free (s : State) (n : Nat) : (s.drawn n).free = s.free + n := rfl

@[simp] theorem State.drawn_altFile (s : State) (n : Nat) :
    (s.drawn n).altFile = s.altFile := rfl

@[simp] theorem State.drawn_supervisor (s : State) (n : Nat) :
    (s.drawn n).supervisor = s.supervisor := rfl

@[simp] theorem State.drawn_traceMode (s : State) (n : Nat) :
    (s.drawn n).traceMode = s.traceMode := rfl

@[simp] theorem State.drawn_shadowsFree (s : State) (n : Nat) :
    (s.drawn n).shadowsFree = s.shadowsFree := rfl

@[simp] theorem State.drawn_reg (s : State) (n : Nat) (r : Reg) :
    (s.drawn n).reg r = s.reg r := rfl

@[simp] theorem State.drawn_fileReg (s : State) (n : Nat) (alt : Bool) (r : Reg) :
    (s.drawn n).fileReg alt r = s.fileReg alt r := rfl

/-! ## `State.afterRead` -/

@[simp] theorem State.afterRead_regs (s : State) (a : Word) (program : Bool) :
    (s.afterRead a program).regs = s.regs := rfl

@[simp] theorem State.afterRead_altRegs (s : State) (a : Word) (program : Bool) :
    (s.afterRead a program).altRegs = s.altRegs := rfl

@[simp] theorem State.afterRead_pc (s : State) (a : Word) (program : Bool) :
    (s.afterRead a program).pc = s.pc := rfl

@[simp] theorem State.afterRead_psr (s : State) (a : Word) (program : Bool) :
    (s.afterRead a program).psr = s.psr := rfl

@[simp] theorem State.afterRead_vbr (s : State) (a : Word) (program : Bool) :
    (s.afterRead a program).vbr = s.vbr := rfl

@[simp] theorem State.afterRead_epsr (s : State) (a : Word) (program : Bool) :
    (s.afterRead a program).epsr = s.epsr := rfl

@[simp] theorem State.afterRead_epc (s : State) (a : Word) (program : Bool) :
    (s.afterRead a program).epc = s.epc := rfl

@[simp] theorem State.afterRead_fpsr (s : State) (a : Word) (program : Bool) :
    (s.afterRead a program).fpsr = s.fpsr := rfl

@[simp] theorem State.afterRead_fpc (s : State) (a : Word) (program : Bool) :
    (s.afterRead a program).fpc = s.fpc := rfl

@[simp] theorem State.afterRead_ss (s : State) (a : Word) (program : Bool) :
    (s.afterRead a program).ss = s.ss := rfl

@[simp] theorem State.afterRead_gcr (s : State) (a : Word) (program : Bool) :
    (s.afterRead a program).gcr = s.gcr := rfl

@[simp] theorem State.afterRead_mem (s : State) (a : Word) (program : Bool) :
    (s.afterRead a program).mem = s.mem := rfl

@[simp] theorem State.afterRead_activity (s : State) (a : Word) (program : Bool) :
    (s.afterRead a program).activity = s.activity := rfl

@[simp] theorem State.afterRead_tracePending (s : State) (a : Word) (program : Bool) :
    (s.afterRead a program).tracePending = s.tracePending := rfl

@[simp] theorem State.afterRead_brkPending (s : State) (a : Word) (program : Bool) :
    (s.afterRead a program).brkPending = s.brkPending := rfl

@[simp] theorem State.afterRead_softResetSeen (s : State) (a : Word) (program : Bool) :
    (s.afterRead a program).softResetSeen = s.softResetSeen := rfl

@[simp] theorem State.afterRead_windows (s : State) (a : Word) (program : Bool) :
    (s.afterRead a program).windows = s.windows := rfl

@[simp] theorem State.afterRead_stale (s : State) (a : Word) (program : Bool) :
    (s.afterRead a program).stale = s.stale := rfl

@[simp] theorem State.afterRead_inputs (s : State) (a : Word) (program : Bool) :
    (s.afterRead a program).inputs = s.inputs := rfl

@[simp] theorem State.afterRead_upcoming (s : State) (a : Word) (program : Bool) :
    (s.afterRead a program).upcoming = s.upcoming := rfl

@[simp] theorem State.afterRead_free (s : State) (a : Word) (program : Bool) :
    (s.afterRead a program).free = s.free + (if (s.answer a program).reads then 0 else 1) := rfl

@[simp] theorem State.afterRead_altFile (s : State) (a : Word) (program : Bool) :
    (s.afterRead a program).altFile = s.altFile := rfl

@[simp] theorem State.afterRead_supervisor (s : State) (a : Word) (program : Bool) :
    (s.afterRead a program).supervisor = s.supervisor := rfl

@[simp] theorem State.afterRead_traceMode (s : State) (a : Word) (program : Bool) :
    (s.afterRead a program).traceMode = s.traceMode := rfl

@[simp] theorem State.afterRead_shadowsFree (s : State) (a : Word) (program : Bool) :
    (s.afterRead a program).shadowsFree = s.shadowsFree := rfl

@[simp] theorem State.afterRead_reg (s : State) (a : Word) (program : Bool) (r : Reg) :
    (s.afterRead a program).reg r = s.reg r := rfl

@[simp] theorem State.afterRead_fileReg (s : State) (a : Word) (program : Bool) (alt : Bool) (r : Reg) :
    (s.afterRead a program).fileReg alt r = s.fileReg alt r := rfl

/-! ## `State.advance` -/

@[simp] theorem State.advance_regs (s : State) : s.advance.regs = s.regs := rfl

@[simp] theorem State.advance_altRegs (s : State) : s.advance.altRegs = s.altRegs := rfl

@[simp] theorem State.advance_pc (s : State) : s.advance.pc = s.pc + 2 := rfl

@[simp] theorem State.advance_psr (s : State) : s.advance.psr = s.psr := rfl

@[simp] theorem State.advance_vbr (s : State) : s.advance.vbr = s.vbr := rfl

@[simp] theorem State.advance_epsr (s : State) : s.advance.epsr = s.epsr := rfl

@[simp] theorem State.advance_epc (s : State) : s.advance.epc = s.epc := rfl

@[simp] theorem State.advance_fpsr (s : State) : s.advance.fpsr = s.fpsr := rfl

@[simp] theorem State.advance_fpc (s : State) : s.advance.fpc = s.fpc := rfl

@[simp] theorem State.advance_ss (s : State) : s.advance.ss = s.ss := rfl

@[simp] theorem State.advance_gcr (s : State) : s.advance.gcr = s.gcr := rfl

@[simp] theorem State.advance_mem (s : State) : s.advance.mem = s.mem := rfl

@[simp] theorem State.advance_activity (s : State) : s.advance.activity = s.activity := rfl

@[simp] theorem State.advance_tracePending (s : State) : s.advance.tracePending = s.traced false := rfl

@[simp] theorem State.advance_brkPending (s : State) : s.advance.brkPending = s.brkPending := rfl

@[simp] theorem State.advance_softResetSeen (s : State) : s.advance.softResetSeen = s.softResetSeen := rfl

@[simp] theorem State.advance_windows (s : State) : s.advance.windows = s.windows := rfl

@[simp] theorem State.advance_stale (s : State) : s.advance.stale = s.stale := rfl

@[simp] theorem State.advance_inputs (s : State) : s.advance.inputs = s.inputs := rfl

@[simp] theorem State.advance_upcoming (s : State) : s.advance.upcoming = s.upcoming := rfl

@[simp] theorem State.advance_free (s : State) : s.advance.free = s.free := rfl

@[simp] theorem State.advance_altFile (s : State) :
    s.advance.altFile = s.altFile := rfl

@[simp] theorem State.advance_supervisor (s : State) :
    s.advance.supervisor = s.supervisor := rfl

@[simp] theorem State.advance_traceMode (s : State) :
    s.advance.traceMode = s.traceMode := rfl

@[simp] theorem State.advance_shadowsFree (s : State) :
    s.advance.shadowsFree = s.shadowsFree := rfl

@[simp] theorem State.advance_reg (s : State) (r : Reg) :
    s.advance.reg r = s.reg r := rfl

@[simp] theorem State.advance_fileReg (s : State) (alt : Bool) (r : Reg) :
    s.advance.fileReg alt r = s.fileReg alt r := rfl

/-! ## `State.advanceUntraced` -/

@[simp] theorem State.advanceUntraced_regs (s : State) : s.advanceUntraced.regs = s.regs := rfl

@[simp] theorem State.advanceUntraced_altRegs (s : State) : s.advanceUntraced.altRegs = s.altRegs := rfl

@[simp] theorem State.advanceUntraced_pc (s : State) : s.advanceUntraced.pc = s.pc + 2 := rfl

@[simp] theorem State.advanceUntraced_psr (s : State) : s.advanceUntraced.psr = s.psr := rfl

@[simp] theorem State.advanceUntraced_vbr (s : State) : s.advanceUntraced.vbr = s.vbr := rfl

@[simp] theorem State.advanceUntraced_epsr (s : State) : s.advanceUntraced.epsr = s.epsr := rfl

@[simp] theorem State.advanceUntraced_epc (s : State) : s.advanceUntraced.epc = s.epc := rfl

@[simp] theorem State.advanceUntraced_fpsr (s : State) : s.advanceUntraced.fpsr = s.fpsr := rfl

@[simp] theorem State.advanceUntraced_fpc (s : State) : s.advanceUntraced.fpc = s.fpc := rfl

@[simp] theorem State.advanceUntraced_ss (s : State) : s.advanceUntraced.ss = s.ss := rfl

@[simp] theorem State.advanceUntraced_gcr (s : State) : s.advanceUntraced.gcr = s.gcr := rfl

@[simp] theorem State.advanceUntraced_mem (s : State) : s.advanceUntraced.mem = s.mem := rfl

@[simp] theorem State.advanceUntraced_activity (s : State) : s.advanceUntraced.activity = s.activity := rfl

@[simp] theorem State.advanceUntraced_tracePending (s : State) :
    s.advanceUntraced.tracePending = false := rfl

@[simp] theorem State.advanceUntraced_brkPending (s : State) :
    s.advanceUntraced.brkPending = s.brkPending := rfl

@[simp] theorem State.advanceUntraced_softResetSeen (s : State) :
    s.advanceUntraced.softResetSeen = s.softResetSeen := rfl

@[simp] theorem State.advanceUntraced_windows (s : State) : s.advanceUntraced.windows = s.windows := rfl

@[simp] theorem State.advanceUntraced_stale (s : State) : s.advanceUntraced.stale = s.stale := rfl

@[simp] theorem State.advanceUntraced_inputs (s : State) : s.advanceUntraced.inputs = s.inputs := rfl

@[simp] theorem State.advanceUntraced_upcoming (s : State) : s.advanceUntraced.upcoming = s.upcoming := rfl

@[simp] theorem State.advanceUntraced_free (s : State) : s.advanceUntraced.free = s.free := rfl

@[simp] theorem State.advanceUntraced_altFile (s : State) :
    s.advanceUntraced.altFile = s.altFile := rfl

@[simp] theorem State.advanceUntraced_supervisor (s : State) :
    s.advanceUntraced.supervisor = s.supervisor := rfl

@[simp] theorem State.advanceUntraced_traceMode (s : State) :
    s.advanceUntraced.traceMode = s.traceMode := rfl

@[simp] theorem State.advanceUntraced_shadowsFree (s : State) :
    s.advanceUntraced.shadowsFree = s.shadowsFree := rfl

@[simp] theorem State.advanceUntraced_reg (s : State) (r : Reg) :
    s.advanceUntraced.reg r = s.reg r := rfl

@[simp] theorem State.advanceUntraced_fileReg (s : State) (alt : Bool) (r : Reg) :
    s.advanceUntraced.fileReg alt r = s.fileReg alt r := rfl

/-! ## `State.fallThrough` -/

@[simp] theorem State.fallThrough_regs (s : State) : s.fallThrough.regs = s.regs := rfl

@[simp] theorem State.fallThrough_altRegs (s : State) : s.fallThrough.altRegs = s.altRegs := rfl

@[simp] theorem State.fallThrough_pc (s : State) : s.fallThrough.pc = s.pc + 2 := rfl

@[simp] theorem State.fallThrough_psr (s : State) : s.fallThrough.psr = s.psr := rfl

@[simp] theorem State.fallThrough_vbr (s : State) : s.fallThrough.vbr = s.vbr := rfl

@[simp] theorem State.fallThrough_epsr (s : State) : s.fallThrough.epsr = s.epsr := rfl

@[simp] theorem State.fallThrough_epc (s : State) : s.fallThrough.epc = s.epc := rfl

@[simp] theorem State.fallThrough_fpsr (s : State) : s.fallThrough.fpsr = s.fpsr := rfl

@[simp] theorem State.fallThrough_fpc (s : State) : s.fallThrough.fpc = s.fpc := rfl

@[simp] theorem State.fallThrough_ss (s : State) : s.fallThrough.ss = s.ss := rfl

@[simp] theorem State.fallThrough_gcr (s : State) : s.fallThrough.gcr = s.gcr := rfl

@[simp] theorem State.fallThrough_mem (s : State) : s.fallThrough.mem = s.mem := rfl

@[simp] theorem State.fallThrough_activity (s : State) : s.fallThrough.activity = s.activity := rfl

@[simp] theorem State.fallThrough_tracePending (s : State) :
    s.fallThrough.tracePending = s.traced true := rfl

@[simp] theorem State.fallThrough_brkPending (s : State) : s.fallThrough.brkPending = s.brkPending := rfl

@[simp] theorem State.fallThrough_softResetSeen (s : State) :
    s.fallThrough.softResetSeen = s.softResetSeen := rfl

@[simp] theorem State.fallThrough_windows (s : State) : s.fallThrough.windows = s.windows := rfl

@[simp] theorem State.fallThrough_stale (s : State) : s.fallThrough.stale = s.stale := rfl

@[simp] theorem State.fallThrough_inputs (s : State) : s.fallThrough.inputs = s.inputs := rfl

@[simp] theorem State.fallThrough_upcoming (s : State) : s.fallThrough.upcoming = s.upcoming := rfl

@[simp] theorem State.fallThrough_free (s : State) : s.fallThrough.free = s.free := rfl

@[simp] theorem State.fallThrough_altFile (s : State) :
    s.fallThrough.altFile = s.altFile := rfl

@[simp] theorem State.fallThrough_supervisor (s : State) :
    s.fallThrough.supervisor = s.supervisor := rfl

@[simp] theorem State.fallThrough_traceMode (s : State) :
    s.fallThrough.traceMode = s.traceMode := rfl

@[simp] theorem State.fallThrough_shadowsFree (s : State) :
    s.fallThrough.shadowsFree = s.shadowsFree := rfl

@[simp] theorem State.fallThrough_reg (s : State) (r : Reg) :
    s.fallThrough.reg r = s.reg r := rfl

@[simp] theorem State.fallThrough_fileReg (s : State) (alt : Bool) (r : Reg) :
    s.fallThrough.fileReg alt r = s.fileReg alt r := rfl

/-! ## `State.flowTo` -/

@[simp] theorem State.flowTo_regs (s : State) (p : Word) : (s.flowTo p).regs = s.regs := rfl

@[simp] theorem State.flowTo_altRegs (s : State) (p : Word) : (s.flowTo p).altRegs = s.altRegs := rfl

@[simp] theorem State.flowTo_pc (s : State) (p : Word) : (s.flowTo p).pc = p := rfl

@[simp] theorem State.flowTo_psr (s : State) (p : Word) : (s.flowTo p).psr = s.psr := rfl

@[simp] theorem State.flowTo_vbr (s : State) (p : Word) : (s.flowTo p).vbr = s.vbr := rfl

@[simp] theorem State.flowTo_epsr (s : State) (p : Word) : (s.flowTo p).epsr = s.epsr := rfl

@[simp] theorem State.flowTo_epc (s : State) (p : Word) : (s.flowTo p).epc = s.epc := rfl

@[simp] theorem State.flowTo_fpsr (s : State) (p : Word) : (s.flowTo p).fpsr = s.fpsr := rfl

@[simp] theorem State.flowTo_fpc (s : State) (p : Word) : (s.flowTo p).fpc = s.fpc := rfl

@[simp] theorem State.flowTo_ss (s : State) (p : Word) : (s.flowTo p).ss = s.ss := rfl

@[simp] theorem State.flowTo_gcr (s : State) (p : Word) : (s.flowTo p).gcr = s.gcr := rfl

@[simp] theorem State.flowTo_mem (s : State) (p : Word) : (s.flowTo p).mem = s.mem := rfl

@[simp] theorem State.flowTo_activity (s : State) (p : Word) : (s.flowTo p).activity = s.activity := rfl

@[simp] theorem State.flowTo_tracePending (s : State) (p : Word) :
    (s.flowTo p).tracePending = s.traced true := rfl

@[simp] theorem State.flowTo_brkPending (s : State) (p : Word) :
    (s.flowTo p).brkPending = s.brkPending := rfl

@[simp] theorem State.flowTo_softResetSeen (s : State) (p : Word) :
    (s.flowTo p).softResetSeen = s.softResetSeen := rfl

@[simp] theorem State.flowTo_windows (s : State) (p : Word) : (s.flowTo p).windows = s.windows := rfl

@[simp] theorem State.flowTo_stale (s : State) (p : Word) : (s.flowTo p).stale = [] := rfl

@[simp] theorem State.flowTo_inputs (s : State) (p : Word) : (s.flowTo p).inputs = s.inputs := rfl

@[simp] theorem State.flowTo_upcoming (s : State) (p : Word) : (s.flowTo p).upcoming = s.upcoming := rfl

@[simp] theorem State.flowTo_free (s : State) (p : Word) : (s.flowTo p).free = s.free := rfl

@[simp] theorem State.flowTo_altFile (s : State) (p : Word) :
    (s.flowTo p).altFile = s.altFile := rfl

@[simp] theorem State.flowTo_supervisor (s : State) (p : Word) :
    (s.flowTo p).supervisor = s.supervisor := rfl

@[simp] theorem State.flowTo_traceMode (s : State) (p : Word) :
    (s.flowTo p).traceMode = s.traceMode := rfl

@[simp] theorem State.flowTo_shadowsFree (s : State) (p : Word) :
    (s.flowTo p).shadowsFree = s.shadowsFree := rfl

@[simp] theorem State.flowTo_reg (s : State) (p : Word) (r : Reg) :
    (s.flowTo p).reg r = s.reg r := rfl

@[simp] theorem State.flowTo_fileReg (s : State) (p : Word) (alt : Bool) (r : Reg) :
    (s.flowTo p).fileReg alt r = s.fileReg alt r := rfl

/-! ## `State.fallAsleep` -/

@[simp] theorem State.fallAsleep_regs (s : State) (m : LowPower) : (s.fallAsleep m).regs = s.regs := rfl

@[simp] theorem State.fallAsleep_altRegs (s : State) (m : LowPower) :
    (s.fallAsleep m).altRegs = s.altRegs := rfl

@[simp] theorem State.fallAsleep_pc (s : State) (m : LowPower) : (s.fallAsleep m).pc = s.pc + 2 := rfl

@[simp] theorem State.fallAsleep_psr (s : State) (m : LowPower) : (s.fallAsleep m).psr = s.psr := rfl

@[simp] theorem State.fallAsleep_vbr (s : State) (m : LowPower) : (s.fallAsleep m).vbr = s.vbr := rfl

@[simp] theorem State.fallAsleep_epsr (s : State) (m : LowPower) : (s.fallAsleep m).epsr = s.epsr := rfl

@[simp] theorem State.fallAsleep_epc (s : State) (m : LowPower) : (s.fallAsleep m).epc = s.epc := rfl

@[simp] theorem State.fallAsleep_fpsr (s : State) (m : LowPower) : (s.fallAsleep m).fpsr = s.fpsr := rfl

@[simp] theorem State.fallAsleep_fpc (s : State) (m : LowPower) : (s.fallAsleep m).fpc = s.fpc := rfl

@[simp] theorem State.fallAsleep_ss (s : State) (m : LowPower) : (s.fallAsleep m).ss = s.ss := rfl

@[simp] theorem State.fallAsleep_gcr (s : State) (m : LowPower) : (s.fallAsleep m).gcr = s.gcr := rfl

@[simp] theorem State.fallAsleep_mem (s : State) (m : LowPower) : (s.fallAsleep m).mem = s.mem := rfl

@[simp] theorem State.fallAsleep_activity (s : State) (m : LowPower) :
    (s.fallAsleep m).activity = .asleep m := rfl

@[simp] theorem State.fallAsleep_tracePending (s : State) (m : LowPower) :
    (s.fallAsleep m).tracePending = false := rfl

@[simp] theorem State.fallAsleep_brkPending (s : State) (m : LowPower) :
    (s.fallAsleep m).brkPending = s.brkPending := rfl

@[simp] theorem State.fallAsleep_softResetSeen (s : State) (m : LowPower) :
    (s.fallAsleep m).softResetSeen = s.softResetSeen := rfl

@[simp] theorem State.fallAsleep_windows (s : State) (m : LowPower) :
    (s.fallAsleep m).windows = s.windows := rfl

@[simp] theorem State.fallAsleep_stale (s : State) (m : LowPower) : (s.fallAsleep m).stale = s.stale := rfl

@[simp] theorem State.fallAsleep_inputs (s : State) (m : LowPower) :
    (s.fallAsleep m).inputs = s.inputs := rfl

@[simp] theorem State.fallAsleep_upcoming (s : State) (m : LowPower) :
    (s.fallAsleep m).upcoming = s.upcoming := rfl

@[simp] theorem State.fallAsleep_free (s : State) (m : LowPower) : (s.fallAsleep m).free = s.free := rfl

@[simp] theorem State.fallAsleep_altFile (s : State) (m : LowPower) :
    (s.fallAsleep m).altFile = s.altFile := rfl

@[simp] theorem State.fallAsleep_supervisor (s : State) (m : LowPower) :
    (s.fallAsleep m).supervisor = s.supervisor := rfl

@[simp] theorem State.fallAsleep_traceMode (s : State) (m : LowPower) :
    (s.fallAsleep m).traceMode = s.traceMode := rfl

@[simp] theorem State.fallAsleep_shadowsFree (s : State) (m : LowPower) :
    (s.fallAsleep m).shadowsFree = s.shadowsFree := rfl

@[simp] theorem State.fallAsleep_reg (s : State) (m : LowPower) (r : Reg) :
    (s.fallAsleep m).reg r = s.reg r := rfl

@[simp] theorem State.fallAsleep_fileReg (s : State) (m : LowPower) (alt : Bool) (r : Reg) :
    (s.fallAsleep m).fileReg alt r = s.fileReg alt r := rfl

/-! ## `State.loadVector` -/

@[simp] theorem State.loadVector_regs (s : State) (w : Word) : (s.loadVector w).regs = s.regs := rfl

@[simp] theorem State.loadVector_altRegs (s : State) (w : Word) :
    (s.loadVector w).altRegs = s.altRegs := rfl

@[simp] theorem State.loadVector_pc (s : State) (w : Word) : (s.loadVector w).pc = evenAddr w := rfl

@[simp] theorem State.loadVector_psr (s : State) (w : Word) :
    (s.loadVector w).psr = { s.psr with af := w.getLsbD 0 } := rfl

@[simp] theorem State.loadVector_vbr (s : State) (w : Word) : (s.loadVector w).vbr = s.vbr := rfl

@[simp] theorem State.loadVector_epsr (s : State) (w : Word) : (s.loadVector w).epsr = s.epsr := rfl

@[simp] theorem State.loadVector_epc (s : State) (w : Word) : (s.loadVector w).epc = s.epc := rfl

@[simp] theorem State.loadVector_fpsr (s : State) (w : Word) : (s.loadVector w).fpsr = s.fpsr := rfl

@[simp] theorem State.loadVector_fpc (s : State) (w : Word) : (s.loadVector w).fpc = s.fpc := rfl

@[simp] theorem State.loadVector_ss (s : State) (w : Word) : (s.loadVector w).ss = s.ss := rfl

@[simp] theorem State.loadVector_gcr (s : State) (w : Word) : (s.loadVector w).gcr = s.gcr := rfl

@[simp] theorem State.loadVector_mem (s : State) (w : Word) : (s.loadVector w).mem = s.mem := rfl

@[simp] theorem State.loadVector_activity (s : State) (w : Word) :
    (s.loadVector w).activity = s.activity := rfl

@[simp] theorem State.loadVector_tracePending (s : State) (w : Word) :
    (s.loadVector w).tracePending = s.tracePending := rfl

@[simp] theorem State.loadVector_brkPending (s : State) (w : Word) :
    (s.loadVector w).brkPending = s.brkPending := rfl

@[simp] theorem State.loadVector_softResetSeen (s : State) (w : Word) :
    (s.loadVector w).softResetSeen = s.softResetSeen := rfl

@[simp] theorem State.loadVector_windows (s : State) (w : Word) :
    (s.loadVector w).windows = s.windows := rfl

@[simp] theorem State.loadVector_stale (s : State) (w : Word) : (s.loadVector w).stale = s.stale := rfl

@[simp] theorem State.loadVector_inputs (s : State) (w : Word) : (s.loadVector w).inputs = s.inputs := rfl

@[simp] theorem State.loadVector_upcoming (s : State) (w : Word) :
    (s.loadVector w).upcoming = s.upcoming := rfl

@[simp] theorem State.loadVector_free (s : State) (w : Word) : (s.loadVector w).free = s.free := rfl

@[simp] theorem State.loadVector_fileReg (s : State) (w : Word) (alt : Bool) (r : Reg) :
    (s.loadVector w).fileReg alt r = s.fileReg alt r := rfl

/-! ## `State.restored` -/

@[simp] theorem State.restored_regs (s : State) (shadow ret : Word) :
    (s.restored shadow ret).regs = s.regs := rfl

@[simp] theorem State.restored_altRegs (s : State) (shadow ret : Word) :
    (s.restored shadow ret).altRegs = s.altRegs := rfl

@[simp] theorem State.restored_pc (s : State) (shadow ret : Word) :
    (s.restored shadow ret).pc = evenAddr ret := rfl

@[simp] theorem State.restored_psr (s : State) (shadow ret : Word) :
    (s.restored shadow ret).psr = Psr.ofWord shadow := rfl

@[simp] theorem State.restored_vbr (s : State) (shadow ret : Word) :
    (s.restored shadow ret).vbr = s.vbr := rfl

@[simp] theorem State.restored_epsr (s : State) (shadow ret : Word) :
    (s.restored shadow ret).epsr = s.epsr := rfl

@[simp] theorem State.restored_epc (s : State) (shadow ret : Word) :
    (s.restored shadow ret).epc = s.epc := rfl

@[simp] theorem State.restored_fpsr (s : State) (shadow ret : Word) :
    (s.restored shadow ret).fpsr = s.fpsr := rfl

@[simp] theorem State.restored_fpc (s : State) (shadow ret : Word) :
    (s.restored shadow ret).fpc = s.fpc := rfl

@[simp] theorem State.restored_ss (s : State) (shadow ret : Word) : (s.restored shadow ret).ss = s.ss := rfl

@[simp] theorem State.restored_gcr (s : State) (shadow ret : Word) :
    (s.restored shadow ret).gcr = s.gcr := rfl

@[simp] theorem State.restored_mem (s : State) (shadow ret : Word) :
    (s.restored shadow ret).mem = s.mem := rfl

@[simp] theorem State.restored_activity (s : State) (shadow ret : Word) :
    (s.restored shadow ret).activity = s.activity := rfl

@[simp] theorem State.restored_tracePending (s : State) (shadow ret : Word) :
    (s.restored shadow ret).tracePending = shadowTp shadow := rfl

@[simp] theorem State.restored_brkPending (s : State) (shadow ret : Word) :
    (s.restored shadow ret).brkPending = s.brkPending := rfl

@[simp] theorem State.restored_softResetSeen (s : State) (shadow ret : Word) :
    (s.restored shadow ret).softResetSeen = s.softResetSeen := rfl

@[simp] theorem State.restored_windows (s : State) (shadow ret : Word) :
    (s.restored shadow ret).windows = Windows.closed := rfl

@[simp] theorem State.restored_stale (s : State) (shadow ret : Word) :
    (s.restored shadow ret).stale = [] := rfl

@[simp] theorem State.restored_inputs (s : State) (shadow ret : Word) :
    (s.restored shadow ret).inputs = s.inputs := rfl

@[simp] theorem State.restored_upcoming (s : State) (shadow ret : Word) :
    (s.restored shadow ret).upcoming = s.upcoming := rfl

@[simp] theorem State.restored_free (s : State) (shadow ret : Word) :
    (s.restored shadow ret).free = s.free := rfl

@[simp] theorem State.restored_fileReg (s : State) (shadow ret : Word) (alt : Bool) (r : Reg) :
    (s.restored shadow ret).fileReg alt r = s.fileReg alt r := rfl

/-! ## `State.hardCleared` -/

@[simp] theorem State.hardCleared_regs (s : State) (cells : List Host.Cell) :
    (s.hardCleared cells).regs = Vector.ofFn (fun i => Config.freeWord (s.free + i.val)) := rfl

@[simp] theorem State.hardCleared_altRegs (s : State) (cells : List Host.Cell) :
    (s.hardCleared cells).altRegs = Vector.ofFn (fun i => Config.freeWord (s.free + 16 + i.val)) := rfl

@[simp] theorem State.hardCleared_pc (s : State) (cells : List Host.Cell) :
    (s.hardCleared cells).pc = s.pc := rfl

@[simp] theorem State.hardCleared_psr (s : State) (cells : List Host.Cell) :
    (s.hardCleared cells).psr = { Psr.reset with c := Config.freeBit s.free } := rfl

@[simp] theorem State.hardCleared_vbr (s : State) (cells : List Host.Cell) :
    (s.hardCleared cells).vbr = 0 := rfl

@[simp] theorem State.hardCleared_epsr (s : State) (cells : List Host.Cell) :
    (s.hardCleared cells).epsr = freePsrImage (s.free + 32) := rfl

@[simp] theorem State.hardCleared_epc (s : State) (cells : List Host.Cell) :
    (s.hardCleared cells).epc = Config.freeWord (s.free + 33) := rfl

@[simp] theorem State.hardCleared_fpsr (s : State) (cells : List Host.Cell) :
    (s.hardCleared cells).fpsr = freePsrImage (s.free + 34) := rfl

@[simp] theorem State.hardCleared_fpc (s : State) (cells : List Host.Cell) :
    (s.hardCleared cells).fpc = Config.freeWord (s.free + 35) := rfl

@[simp] theorem State.hardCleared_ss (s : State) (cells : List Host.Cell) :
    (s.hardCleared cells).ss = Vector.ofFn (fun i => Config.freeWord (s.free + 36 + i.val)) := rfl

@[simp] theorem State.hardCleared_gcr (s : State) (cells : List Host.Cell) :
    (s.hardCleared cells).gcr = Config.freeWord (s.free + 41) := rfl

@[simp] theorem State.hardCleared_mem (s : State) (cells : List Host.Cell) :
    (s.hardCleared cells).mem = Memory.ofCells cells := rfl

@[simp] theorem State.hardCleared_activity (s : State) (cells : List Host.Cell) :
    (s.hardCleared cells).activity = .running := rfl

@[simp] theorem State.hardCleared_tracePending (s : State) (cells : List Host.Cell) :
    (s.hardCleared cells).tracePending = false := rfl

@[simp] theorem State.hardCleared_brkPending (s : State) (cells : List Host.Cell) :
    (s.hardCleared cells).brkPending = false := rfl

@[simp] theorem State.hardCleared_softResetSeen (s : State) (cells : List Host.Cell) :
    (s.hardCleared cells).softResetSeen = false := rfl

@[simp] theorem State.hardCleared_windows (s : State) (cells : List Host.Cell) :
    (s.hardCleared cells).windows = Windows.closed := rfl

@[simp] theorem State.hardCleared_stale (s : State) (cells : List Host.Cell) :
    (s.hardCleared cells).stale = [] := rfl

@[simp] theorem State.hardCleared_inputs (s : State) (cells : List Host.Cell) :
    (s.hardCleared cells).inputs = s.inputs := rfl

@[simp] theorem State.hardCleared_upcoming (s : State) (cells : List Host.Cell) :
    (s.hardCleared cells).upcoming = s.upcoming := rfl

@[simp] theorem State.hardCleared_free (s : State) (cells : List Host.Cell) :
    (s.hardCleared cells).free = s.free + 42 := rfl

/-! ## `State.softCleared` -/

@[simp] theorem State.softCleared_regs (s : State) : s.softCleared.regs = s.regs := rfl

@[simp] theorem State.softCleared_altRegs (s : State) : s.softCleared.altRegs = s.altRegs := rfl

@[simp] theorem State.softCleared_pc (s : State) : s.softCleared.pc = s.pc := rfl

@[simp] theorem State.softCleared_psr (s : State) :
    s.softCleared.psr =
      { s.psr with
        s := true, sp := 0, vec := vecSoftReset, tm := 0, tc := false, sc := false, ee := false
        ic := false, ie := false, fe := false, u := (Config.freeWord s.free).setWidth 4
        mm := Config.freeBit s.free, c := Config.freeBit (s.free + 1) } := rfl

@[simp] theorem State.softCleared_vbr (s : State) : s.softCleared.vbr = 0 := rfl

@[simp] theorem State.softCleared_epsr (s : State) : s.softCleared.epsr = freePsrImage (s.free + 1) := rfl

@[simp] theorem State.softCleared_epc (s : State) : s.softCleared.epc = Config.freeWord (s.free + 2) := rfl

@[simp] theorem State.softCleared_fpsr (s : State) : s.softCleared.fpsr = s.fpsr := rfl

@[simp] theorem State.softCleared_fpc (s : State) : s.softCleared.fpc = s.fpc := rfl

@[simp] theorem State.softCleared_ss (s : State) : s.softCleared.ss = s.ss := rfl

@[simp] theorem State.softCleared_gcr (s : State) : s.softCleared.gcr = s.gcr := rfl

@[simp] theorem State.softCleared_mem (s : State) : s.softCleared.mem = s.mem := rfl

@[simp] theorem State.softCleared_activity (s : State) : s.softCleared.activity = .running := rfl

@[simp] theorem State.softCleared_tracePending (s : State) : s.softCleared.tracePending = false := rfl

@[simp] theorem State.softCleared_brkPending (s : State) : s.softCleared.brkPending = false := rfl

@[simp] theorem State.softCleared_softResetSeen (s : State) : s.softCleared.softResetSeen = false := rfl

@[simp] theorem State.softCleared_windows (s : State) : s.softCleared.windows = Windows.closed := rfl

@[simp] theorem State.softCleared_stale (s : State) : s.softCleared.stale = [] := rfl

@[simp] theorem State.softCleared_inputs (s : State) : s.softCleared.inputs = s.inputs := rfl

@[simp] theorem State.softCleared_upcoming (s : State) : s.softCleared.upcoming = s.upcoming := rfl

@[simp] theorem State.softCleared_free (s : State) : s.softCleared.free = s.free + 3 := rfl

@[simp] theorem State.softCleared_fileReg (s : State) (alt : Bool) (r : Reg) :
    s.softCleared.fileReg alt r = s.fileReg alt r := rfl

/-! ## `State.unrecoverable` -/

@[simp] theorem State.unrecoverable_regs (s : State) : s.unrecoverable.regs = s.regs := rfl

@[simp] theorem State.unrecoverable_altRegs (s : State) : s.unrecoverable.altRegs = s.altRegs := rfl

@[simp] theorem State.unrecoverable_pc (s : State) : s.unrecoverable.pc = s.pc := rfl

@[simp] theorem State.unrecoverable_psr (s : State) :
    s.unrecoverable.psr = { s.psr with vec := vecUnrecoverable } := rfl

@[simp] theorem State.unrecoverable_vbr (s : State) : s.unrecoverable.vbr = s.vbr := rfl

@[simp] theorem State.unrecoverable_epsr (s : State) : s.unrecoverable.epsr = freePsrImage s.free := rfl

@[simp] theorem State.unrecoverable_epc (s : State) :
    s.unrecoverable.epc = Config.freeWord (s.free + 1) := rfl

@[simp] theorem State.unrecoverable_fpsr (s : State) : s.unrecoverable.fpsr = s.fpsr := rfl

@[simp] theorem State.unrecoverable_fpc (s : State) : s.unrecoverable.fpc = s.fpc := rfl

@[simp] theorem State.unrecoverable_ss (s : State) : s.unrecoverable.ss = s.ss := rfl

@[simp] theorem State.unrecoverable_gcr (s : State) : s.unrecoverable.gcr = s.gcr := rfl

@[simp] theorem State.unrecoverable_mem (s : State) : s.unrecoverable.mem = s.mem := rfl

@[simp] theorem State.unrecoverable_activity (s : State) : s.unrecoverable.activity = s.activity := rfl

@[simp] theorem State.unrecoverable_tracePending (s : State) :
    s.unrecoverable.tracePending = s.tracePending := rfl

@[simp] theorem State.unrecoverable_brkPending (s : State) :
    s.unrecoverable.brkPending = s.brkPending := rfl

@[simp] theorem State.unrecoverable_softResetSeen (s : State) :
    s.unrecoverable.softResetSeen = s.softResetSeen := rfl

@[simp] theorem State.unrecoverable_windows (s : State) : s.unrecoverable.windows = s.windows := rfl

@[simp] theorem State.unrecoverable_stale (s : State) : s.unrecoverable.stale = s.stale := rfl

@[simp] theorem State.unrecoverable_inputs (s : State) : s.unrecoverable.inputs = s.inputs := rfl

@[simp] theorem State.unrecoverable_upcoming (s : State) : s.unrecoverable.upcoming = s.upcoming := rfl

@[simp] theorem State.unrecoverable_free (s : State) : s.unrecoverable.free = s.free + 2 := rfl

@[simp] theorem State.unrecoverable_altFile (s : State) :
    s.unrecoverable.altFile = s.altFile := rfl

@[simp] theorem State.unrecoverable_supervisor (s : State) :
    s.unrecoverable.supervisor = s.supervisor := rfl

@[simp] theorem State.unrecoverable_traceMode (s : State) :
    s.unrecoverable.traceMode = s.traceMode := rfl

@[simp] theorem State.unrecoverable_shadowsFree (s : State) :
    s.unrecoverable.shadowsFree = s.shadowsFree := rfl

@[simp] theorem State.unrecoverable_fileReg (s : State) (alt : Bool) (r : Reg) :
    s.unrecoverable.fileReg alt r = s.fileReg alt r := rfl

/-! ## `State.getStuck` -/

@[simp] theorem State.getStuck_regs (s : State) : s.getStuck.regs = s.regs := rfl

@[simp] theorem State.getStuck_altRegs (s : State) : s.getStuck.altRegs = s.altRegs := rfl

@[simp] theorem State.getStuck_pc (s : State) : s.getStuck.pc = s.pc := rfl

@[simp] theorem State.getStuck_psr (s : State) : s.getStuck.psr = s.psr := rfl

@[simp] theorem State.getStuck_vbr (s : State) : s.getStuck.vbr = s.vbr := rfl

@[simp] theorem State.getStuck_epsr (s : State) : s.getStuck.epsr = s.epsr := rfl

@[simp] theorem State.getStuck_epc (s : State) : s.getStuck.epc = s.epc := rfl

@[simp] theorem State.getStuck_fpsr (s : State) : s.getStuck.fpsr = s.fpsr := rfl

@[simp] theorem State.getStuck_fpc (s : State) : s.getStuck.fpc = s.fpc := rfl

@[simp] theorem State.getStuck_ss (s : State) : s.getStuck.ss = s.ss := rfl

@[simp] theorem State.getStuck_gcr (s : State) : s.getStuck.gcr = s.gcr := rfl

@[simp] theorem State.getStuck_mem (s : State) : s.getStuck.mem = s.mem := rfl

@[simp] theorem State.getStuck_activity (s : State) : s.getStuck.activity = .stuck := rfl

@[simp] theorem State.getStuck_tracePending (s : State) : s.getStuck.tracePending = s.tracePending := rfl

@[simp] theorem State.getStuck_brkPending (s : State) : s.getStuck.brkPending = s.brkPending := rfl

@[simp] theorem State.getStuck_softResetSeen (s : State) : s.getStuck.softResetSeen = s.softResetSeen := rfl

@[simp] theorem State.getStuck_windows (s : State) : s.getStuck.windows = s.windows := rfl

@[simp] theorem State.getStuck_stale (s : State) : s.getStuck.stale = s.stale := rfl

@[simp] theorem State.getStuck_inputs (s : State) : s.getStuck.inputs = s.inputs := rfl

@[simp] theorem State.getStuck_upcoming (s : State) : s.getStuck.upcoming = s.upcoming := rfl

@[simp] theorem State.getStuck_free (s : State) : s.getStuck.free = s.free := rfl

@[simp] theorem State.getStuck_altFile (s : State) :
    s.getStuck.altFile = s.altFile := rfl

@[simp] theorem State.getStuck_supervisor (s : State) :
    s.getStuck.supervisor = s.supervisor := rfl

@[simp] theorem State.getStuck_traceMode (s : State) :
    s.getStuck.traceMode = s.traceMode := rfl

@[simp] theorem State.getStuck_shadowsFree (s : State) :
    s.getStuck.shadowsFree = s.shadowsFree := rfl

@[simp] theorem State.getStuck_reg (s : State) (r : Reg) :
    s.getStuck.reg r = s.reg r := rfl

@[simp] theorem State.getStuck_fileReg (s : State) (alt : Bool) (r : Reg) :
    s.getStuck.fileReg alt r = s.fileReg alt r := rfl

/-! ## `State.saveContext` -/

@[simp] theorem State.saveContext_regs (s : State) (n : BitVec 7) (ret : Word) (fast tp : Bool) :
    (s.saveContext n ret fast tp).regs = s.regs := rfl

@[simp] theorem State.saveContext_altRegs (s : State) (n : BitVec 7) (ret : Word) (fast tp : Bool) :
    (s.saveContext n ret fast tp).altRegs = s.altRegs := rfl

@[simp] theorem State.saveContext_pc (s : State) (n : BitVec 7) (ret : Word) (fast tp : Bool) :
    (s.saveContext n ret fast tp).pc = s.pc := rfl

@[simp] theorem State.saveContext_psr (s : State) (n : BitVec 7) (ret : Word) (fast tp : Bool) :
    (s.saveContext n ret fast tp).psr =
      { s.psr with
        s := true, vec := n, tm := 0, tc := false, sc := false, ee := false, ie := false
        fe := s.psr.fe && !fast, c := Config.freeBit s.free } := rfl

@[simp] theorem State.saveContext_vbr (s : State) (n : BitVec 7) (ret : Word) (fast tp : Bool) :
    (s.saveContext n ret fast tp).vbr = s.vbr := rfl

@[simp] theorem State.saveContext_epsr (s : State) (n : BitVec 7) (ret : Word) (fast tp : Bool) :
    (s.saveContext n ret fast tp).epsr = if fast then s.epsr else s.psr.toShadow tp := rfl

@[simp] theorem State.saveContext_epc (s : State) (n : BitVec 7) (ret : Word) (fast tp : Bool) :
    (s.saveContext n ret fast tp).epc = if fast then s.epc else ret := rfl

@[simp] theorem State.saveContext_fpsr (s : State) (n : BitVec 7) (ret : Word) (fast tp : Bool) :
    (s.saveContext n ret fast tp).fpsr = if fast then s.psr.toShadow tp else s.fpsr := rfl

@[simp] theorem State.saveContext_fpc (s : State) (n : BitVec 7) (ret : Word) (fast tp : Bool) :
    (s.saveContext n ret fast tp).fpc = if fast then ret else s.fpc := rfl

@[simp] theorem State.saveContext_ss (s : State) (n : BitVec 7) (ret : Word) (fast tp : Bool) :
    (s.saveContext n ret fast tp).ss = s.ss := rfl

@[simp] theorem State.saveContext_gcr (s : State) (n : BitVec 7) (ret : Word) (fast tp : Bool) :
    (s.saveContext n ret fast tp).gcr = s.gcr := rfl

@[simp] theorem State.saveContext_mem (s : State) (n : BitVec 7) (ret : Word) (fast tp : Bool) :
    (s.saveContext n ret fast tp).mem = s.mem := rfl

@[simp] theorem State.saveContext_activity (s : State) (n : BitVec 7) (ret : Word) (fast tp : Bool) :
    (s.saveContext n ret fast tp).activity = .running := rfl

@[simp] theorem State.saveContext_tracePending (s : State) (n : BitVec 7) (ret : Word) (fast tp : Bool) :
    (s.saveContext n ret fast tp).tracePending = false := rfl

@[simp] theorem State.saveContext_brkPending (s : State) (n : BitVec 7) (ret : Word) (fast tp : Bool) :
    (s.saveContext n ret fast tp).brkPending = false := rfl

@[simp] theorem State.saveContext_softResetSeen (s : State) (n : BitVec 7) (ret : Word) (fast tp : Bool) :
    (s.saveContext n ret fast tp).softResetSeen = s.softResetSeen := rfl

@[simp] theorem State.saveContext_windows (s : State) (n : BitVec 7) (ret : Word) (fast tp : Bool) :
    (s.saveContext n ret fast tp).windows = Windows.closed := rfl

@[simp] theorem State.saveContext_stale (s : State) (n : BitVec 7) (ret : Word) (fast tp : Bool) :
    (s.saveContext n ret fast tp).stale = [] := rfl

@[simp] theorem State.saveContext_inputs (s : State) (n : BitVec 7) (ret : Word) (fast tp : Bool) :
    (s.saveContext n ret fast tp).inputs = s.inputs := rfl

@[simp] theorem State.saveContext_upcoming (s : State) (n : BitVec 7) (ret : Word) (fast tp : Bool) :
    (s.saveContext n ret fast tp).upcoming = s.upcoming := rfl

@[simp] theorem State.saveContext_free (s : State) (n : BitVec 7) (ret : Word) (fast tp : Bool) :
    (s.saveContext n ret fast tp).free = s.free + 1 := rfl

@[simp] theorem State.saveContext_fileReg (s : State) (n : BitVec 7) (ret : Word) (fast tp : Bool) (alt : Bool) (r : Reg) :
    (s.saveContext n ret fast tp).fileReg alt r = s.fileReg alt r := rfl

/-! ## `State.store` -/

@[simp] theorem State.store_regs (s : State) (w : Width) (a v : Word) : (s.store w a v).regs = s.regs := rfl

@[simp] theorem State.store_altRegs (s : State) (w : Width) (a v : Word) :
    (s.store w a v).altRegs = s.altRegs := rfl

@[simp] theorem State.store_pc (s : State) (w : Width) (a v : Word) : (s.store w a v).pc = s.pc := rfl

@[simp] theorem State.store_psr (s : State) (w : Width) (a v : Word) : (s.store w a v).psr = s.psr := rfl

@[simp] theorem State.store_vbr (s : State) (w : Width) (a v : Word) : (s.store w a v).vbr = s.vbr := rfl

@[simp] theorem State.store_epsr (s : State) (w : Width) (a v : Word) : (s.store w a v).epsr = s.epsr := rfl

@[simp] theorem State.store_epc (s : State) (w : Width) (a v : Word) : (s.store w a v).epc = s.epc := rfl

@[simp] theorem State.store_fpsr (s : State) (w : Width) (a v : Word) : (s.store w a v).fpsr = s.fpsr := rfl

@[simp] theorem State.store_fpc (s : State) (w : Width) (a v : Word) : (s.store w a v).fpc = s.fpc := rfl

@[simp] theorem State.store_ss (s : State) (w : Width) (a v : Word) : (s.store w a v).ss = s.ss := rfl

@[simp] theorem State.store_gcr (s : State) (w : Width) (a v : Word) : (s.store w a v).gcr = s.gcr := rfl

@[simp] theorem State.store_mem (s : State) (w : Width) (a v : Word) :
    (s.store w a v).mem = if (s.answer a false).writes then s.mem.write w a v else s.mem := rfl

@[simp] theorem State.store_activity (s : State) (w : Width) (a v : Word) :
    (s.store w a v).activity = s.activity := rfl

@[simp] theorem State.store_tracePending (s : State) (w : Width) (a v : Word) :
    (s.store w a v).tracePending = s.tracePending := rfl

@[simp] theorem State.store_brkPending (s : State) (w : Width) (a v : Word) :
    (s.store w a v).brkPending = s.brkPending := rfl

@[simp] theorem State.store_softResetSeen (s : State) (w : Width) (a v : Word) :
    (s.store w a v).softResetSeen = s.softResetSeen := rfl

@[simp] theorem State.store_windows (s : State) (w : Width) (a v : Word) :
    (s.store w a v).windows = s.windows := rfl

@[simp] theorem State.store_stale (s : State) (w : Width) (a v : Word) :
    (s.store w a v).stale = w.footprint a ++ s.stale := rfl

@[simp] theorem State.store_inputs (s : State) (w : Width) (a v : Word) :
    (s.store w a v).inputs = s.inputs := rfl

@[simp] theorem State.store_upcoming (s : State) (w : Width) (a v : Word) :
    (s.store w a v).upcoming = s.upcoming := rfl

@[simp] theorem State.store_free (s : State) (w : Width) (a v : Word) : (s.store w a v).free = s.free := rfl

@[simp] theorem State.store_altFile (s : State) (w : Width) (a v : Word) :
    (s.store w a v).altFile = s.altFile := rfl

@[simp] theorem State.store_supervisor (s : State) (w : Width) (a v : Word) :
    (s.store w a v).supervisor = s.supervisor := rfl

@[simp] theorem State.store_traceMode (s : State) (w : Width) (a v : Word) :
    (s.store w a v).traceMode = s.traceMode := rfl

@[simp] theorem State.store_shadowsFree (s : State) (w : Width) (a v : Word) :
    (s.store w a v).shadowsFree = s.shadowsFree := rfl

@[simp] theorem State.store_reg (s : State) (w : Width) (a v : Word) (r : Reg) :
    (s.store w a v).reg r = s.reg r := rfl

@[simp] theorem State.store_fileReg (s : State) (w : Width) (a v : Word) (alt : Bool) (r : Reg) :
    (s.store w a v).fileReg alt r = s.fileReg alt r := rfl

/-! ## `State.noteAccess` -/

@[simp] theorem State.noteAccess_regs (s : State) (a : Word) (w : Width) (k : AccessKind) :
    (s.noteAccess a w k).regs = s.regs := rfl

@[simp] theorem State.noteAccess_altRegs (s : State) (a : Word) (w : Width) (k : AccessKind) :
    (s.noteAccess a w k).altRegs = s.altRegs := rfl

@[simp] theorem State.noteAccess_pc (s : State) (a : Word) (w : Width) (k : AccessKind) :
    (s.noteAccess a w k).pc = s.pc := rfl

@[simp] theorem State.noteAccess_psr (s : State) (a : Word) (w : Width) (k : AccessKind) :
    (s.noteAccess a w k).psr = s.psr := rfl

@[simp] theorem State.noteAccess_vbr (s : State) (a : Word) (w : Width) (k : AccessKind) :
    (s.noteAccess a w k).vbr = s.vbr := rfl

@[simp] theorem State.noteAccess_epsr (s : State) (a : Word) (w : Width) (k : AccessKind) :
    (s.noteAccess a w k).epsr = s.epsr := rfl

@[simp] theorem State.noteAccess_epc (s : State) (a : Word) (w : Width) (k : AccessKind) :
    (s.noteAccess a w k).epc = s.epc := rfl

@[simp] theorem State.noteAccess_fpsr (s : State) (a : Word) (w : Width) (k : AccessKind) :
    (s.noteAccess a w k).fpsr = s.fpsr := rfl

@[simp] theorem State.noteAccess_fpc (s : State) (a : Word) (w : Width) (k : AccessKind) :
    (s.noteAccess a w k).fpc = s.fpc := rfl

@[simp] theorem State.noteAccess_ss (s : State) (a : Word) (w : Width) (k : AccessKind) :
    (s.noteAccess a w k).ss = s.ss := rfl

@[simp] theorem State.noteAccess_gcr (s : State) (a : Word) (w : Width) (k : AccessKind) :
    (s.noteAccess a w k).gcr = s.gcr := rfl

@[simp] theorem State.noteAccess_mem (s : State) (a : Word) (w : Width) (k : AccessKind) :
    (s.noteAccess a w k).mem = s.mem := rfl

@[simp] theorem State.noteAccess_activity (s : State) (a : Word) (w : Width) (k : AccessKind) :
    (s.noteAccess a w k).activity = s.activity := rfl

@[simp] theorem State.noteAccess_tracePending (s : State) (a : Word) (w : Width) (k : AccessKind) :
    (s.noteAccess a w k).tracePending = s.tracePending := rfl

@[simp] theorem State.noteAccess_brkPending (s : State) (a : Word) (w : Width) (k : AccessKind) :
    (s.noteAccess a w k).brkPending = (s.brkPending || s.brkReq a w k) := rfl

@[simp] theorem State.noteAccess_softResetSeen (s : State) (a : Word) (w : Width) (k : AccessKind) :
    (s.noteAccess a w k).softResetSeen = s.softResetSeen := rfl

@[simp] theorem State.noteAccess_windows (s : State) (a : Word) (w : Width) (k : AccessKind) :
    (s.noteAccess a w k).windows = s.windows := rfl

@[simp] theorem State.noteAccess_stale (s : State) (a : Word) (w : Width) (k : AccessKind) :
    (s.noteAccess a w k).stale = s.stale := rfl

@[simp] theorem State.noteAccess_inputs (s : State) (a : Word) (w : Width) (k : AccessKind) :
    (s.noteAccess a w k).inputs = s.inputs := rfl

@[simp] theorem State.noteAccess_upcoming (s : State) (a : Word) (w : Width) (k : AccessKind) :
    (s.noteAccess a w k).upcoming = s.upcoming := rfl

@[simp] theorem State.noteAccess_free (s : State) (a : Word) (w : Width) (k : AccessKind) :
    (s.noteAccess a w k).free = s.free := rfl

@[simp] theorem State.noteAccess_altFile (s : State) (a : Word) (w : Width) (k : AccessKind) :
    (s.noteAccess a w k).altFile = s.altFile := rfl

@[simp] theorem State.noteAccess_supervisor (s : State) (a : Word) (w : Width) (k : AccessKind) :
    (s.noteAccess a w k).supervisor = s.supervisor := rfl

@[simp] theorem State.noteAccess_traceMode (s : State) (a : Word) (w : Width) (k : AccessKind) :
    (s.noteAccess a w k).traceMode = s.traceMode := rfl

@[simp] theorem State.noteAccess_shadowsFree (s : State) (a : Word) (w : Width) (k : AccessKind) :
    (s.noteAccess a w k).shadowsFree = s.shadowsFree := rfl

@[simp] theorem State.noteAccess_reg (s : State) (a : Word) (w : Width) (k : AccessKind) (r : Reg) :
    (s.noteAccess a w k).reg r = s.reg r := rfl

@[simp] theorem State.noteAccess_fileReg (s : State) (a : Word) (w : Width) (k : AccessKind) (alt : Bool) (r : Reg) :
    (s.noteAccess a w k).fileReg alt r = s.fileReg alt r := rfl

/-! ## `State.writePsr` -/

@[simp] theorem State.writePsr_regs (s : State) (v : Word) : (s.writePsr v).regs = s.regs := rfl

@[simp] theorem State.writePsr_altRegs (s : State) (v : Word) : (s.writePsr v).altRegs = s.altRegs := rfl

@[simp] theorem State.writePsr_pc (s : State) (v : Word) : (s.writePsr v).pc = s.pc := rfl

@[simp] theorem State.writePsr_psr (s : State) (v : Word) : (s.writePsr v).psr = Psr.ofWord v := rfl

@[simp] theorem State.writePsr_vbr (s : State) (v : Word) : (s.writePsr v).vbr = s.vbr := rfl

@[simp] theorem State.writePsr_epsr (s : State) (v : Word) : (s.writePsr v).epsr = s.epsr := rfl

@[simp] theorem State.writePsr_epc (s : State) (v : Word) : (s.writePsr v).epc = s.epc := rfl

@[simp] theorem State.writePsr_fpsr (s : State) (v : Word) : (s.writePsr v).fpsr = s.fpsr := rfl

@[simp] theorem State.writePsr_fpc (s : State) (v : Word) : (s.writePsr v).fpc = s.fpc := rfl

@[simp] theorem State.writePsr_ss (s : State) (v : Word) : (s.writePsr v).ss = s.ss := rfl

@[simp] theorem State.writePsr_gcr (s : State) (v : Word) : (s.writePsr v).gcr = s.gcr := rfl

@[simp] theorem State.writePsr_mem (s : State) (v : Word) : (s.writePsr v).mem = s.mem := rfl

@[simp] theorem State.writePsr_activity (s : State) (v : Word) : (s.writePsr v).activity = s.activity := rfl

@[simp] theorem State.writePsr_tracePending (s : State) (v : Word) :
    (s.writePsr v).tracePending = s.tracePending := rfl

@[simp] theorem State.writePsr_brkPending (s : State) (v : Word) :
    (s.writePsr v).brkPending = s.brkPending := rfl

@[simp] theorem State.writePsr_softResetSeen (s : State) (v : Word) :
    (s.writePsr v).softResetSeen = s.softResetSeen := rfl

@[simp] theorem State.writePsr_windows (s : State) (v : Word) :
    (s.writePsr v).windows =
      { s := pushOld s.psr.s (Psr.ofWord v).s s.windows.s
        tm := pushOld s.psr.tm (Psr.ofWord v).tm s.windows.tm
        tc := pushOld s.psr.tc (Psr.ofWord v).tc s.windows.tc
        ee := pushOld s.psr.ee (Psr.ofWord v).ee s.windows.ee
        af := pushOld s.psr.af (Psr.ofWord v).af s.windows.af } := rfl

@[simp] theorem State.writePsr_stale (s : State) (v : Word) : (s.writePsr v).stale = s.stale := rfl

@[simp] theorem State.writePsr_inputs (s : State) (v : Word) : (s.writePsr v).inputs = s.inputs := rfl

@[simp] theorem State.writePsr_upcoming (s : State) (v : Word) : (s.writePsr v).upcoming = s.upcoming := rfl

@[simp] theorem State.writePsr_free (s : State) (v : Word) : (s.writePsr v).free = s.free := rfl

@[simp] theorem State.writePsr_fileReg (s : State) (v : Word) (alt : Bool) (r : Reg) :
    (s.writePsr v).fileReg alt r = s.fileReg alt r := rfl

/-! ## Register files -/

/-- The register in effect is the one of the file that AF selects (R22). -/
theorem State.reg_eq_fileReg (s : State) (r : Reg) : s.reg r = s.fileReg s.altFile r := by
  unfold State.reg State.fileReg; rfl

/-- A write lands in one register of the file in effect and nowhere else. -/
theorem State.setReg_fileReg (s : State) (i : Reg) (v : Word) (b : Bool) (r : Reg) :
    (s.setReg i v).fileReg b r = if b = s.altFile ∧ r = i then v else s.fileReg b r := by
  have key : ∀ xs : Vector Word 16,
      (xs.set i.toNat v i.isLt)[r.toNat]'r.isLt = if r = i then v else xs[r.toNat]'r.isLt := by
    intro xs
    rw [Vector.getElem_set]
    by_cases h : r = i
    · simp [h]
    · have : ¬ i.toNat = r.toNat := fun e => h (BitVec.eq_of_toNat_eq e.symm)
      simp [h, this]
  cases b <;> cases ha : s.altFile <;> simp [State.fileReg, State.setReg, ha, key]

/-- Reading a register after writing one (R22). -/
@[simp] theorem State.setReg_reg (s : State) (i : Reg) (v : Word) (r : Reg) :
    (s.setReg i v).reg r = if r = i then v else s.reg r := by
  rw [State.reg_eq_fileReg, State.setReg_fileReg, State.reg_eq_fileReg]; simp

/-- A write of the value a register holds changes nothing. -/
theorem State.setReg_self (s : State) (i : Reg) : s.setReg i (s.reg i) = s := by
  unfold State.setReg State.reg
  cases h : s.altFile <;> simp

/-- A write is seen as a written register and nothing else. -/
theorem State.setReg_written (s : State) (i : Reg) (v : Word) : RegWritten s (s.setReg i v) i v :=
  s.setReg_fileReg i v


end Sys2Proof.Machine
end

