-- ==== Sys2Proof/Laws/Memory.lean ====
section
/-! SUPPORT. What the memory operations do: a read after a write, the canonical form, the bytes of a store,
the natural boundary of an access. -/

namespace Sys2Proof.Machine

/-! ## One byte -/

theorem Memory.get_insertCell (m : Memory) (k j : Nat) (v : Byte) :
    (m.insertCell k v).get j = if j = k then v else m.get j := by
  induction m with
  | nil => simp [Memory.insertCell, Memory.get]
  | cons c rest ih =>
    obtain ⟨a, b⟩ := c
    unfold Memory.insertCell
    split
    · simp [Memory.get]
    · split
      · subst_vars; by_cases hj : j = a <;> simp [Memory.get, hj]
      · by_cases hj : j = a
        · subst hj; simp [Memory.get]; omega
        · simp [Memory.get, hj, ih]

theorem Memory.get_filter (m : Memory) (k j : Nat) :
    Memory.get (m.filter (fun c => c.1 != k)) j = if j = k then Memory.unlisted else m.get j := by
  induction m with
  | nil => simp [Memory.get]
  | cons c rest ih =>
    obtain ⟨a, b⟩ := c
    by_cases ha : a = k
    · subst ha
      by_cases hj : j = a <;> simp_all [Memory.get]
    · by_cases hj : j = a
      · subst hj; simp [Memory.get, ha]
      · simp [Memory.get, ha, hj, ih]

/-- Reading a byte after writing one, whatever the list looks like. -/
theorem Memory.get_set (m : Memory) (k j : Nat) (v : Byte) :
    (m.set k v).get j = if j = k then v else m.get j := by
  unfold Memory.set
  split
  · rename_i hv; rw [Memory.get_filter, hv]
  · exact Memory.get_insertCell m k j v

/-- Reading a byte after writing one, by 32-bit address. -/
theorem Memory.byte_setByte (m : Memory) (a b : Word) (v : Byte) :
    (m.setByte a v).byte b = if b = a then v else m.byte b := by
  unfold Memory.setByte Memory.byte
  rw [Memory.get_set]
  by_cases h : b = a
  · simp [h]
  · have : ¬ b.toNat = a.toNat := fun e => h (BitVec.eq_of_toNat_eq e)
    simp [h, this]

/-! ## The canonical form -/

theorem Memory.wf_iff (m : Memory) :
    m.wf = true ↔ m.Pairwise (fun c d => c.1 < d.1) ∧
      ∀ c ∈ m, c.1 < 4294967296 ∧ c.2 ≠ Memory.unlisted := by
  simp [Memory.wf, List.all_eq_true]

theorem Memory.mem_insertCell (m : Memory) (k : Nat) (v : Byte) (c : Host.Cell)
    (h : c ∈ m.insertCell k v) : c = (k, v) ∨ c ∈ m := by
  induction m with
  | nil => simpa [Memory.insertCell] using h
  | cons d rest ih =>
    obtain ⟨a, b⟩ := d
    unfold Memory.insertCell at h
    split at h
    · simpa using h
    · split at h
      · simp at h ⊢; tauto
      · simp at h ⊢; rcases h with h | h
        · tauto
        · have := ih h; tauto

theorem Memory.insertCell_sorted (m : Memory) (k : Nat) (v : Byte)
    (h : m.Pairwise (fun c d => c.1 < d.1)) :
    (m.insertCell k v).Pairwise (fun c d => c.1 < d.1) := by
  induction m with
  | nil => simp [Memory.insertCell]
  | cons d rest ih =>
    obtain ⟨a, b⟩ := d
    rw [List.pairwise_cons] at h
    unfold Memory.insertCell
    split
    · rename_i hk
      refine List.pairwise_cons.2 ⟨?_, List.pairwise_cons.2 h⟩
      intro c hc
      rcases List.mem_cons.1 hc with rfl | hc
      · exact hk
      · exact Nat.lt_trans hk (h.1 c hc)
    · split
      · rename_i hk; subst hk
        exact List.pairwise_cons.2 ⟨h.1, h.2⟩
      · refine List.pairwise_cons.2 ⟨?_, ih h.2⟩
        intro c hc
        rcases Memory.mem_insertCell rest k v c hc with rfl | hc
        · simp; omega
        · exact h.1 c hc

/-- A write keeps the canonical form. -/
theorem Memory.set_wf (m : Memory) (k : Nat) (v : Byte) (hk : k < 4294967296) (h : m.wf = true) :
    (m.set k v).wf = true := by
  rw [Memory.wf_iff] at h ⊢
  unfold Memory.set
  split
  · exact ⟨h.1.filter _, fun c hc => h.2 c (List.mem_filter.1 hc).1⟩
  · refine ⟨Memory.insertCell_sorted m k v h.1, fun c hc => ?_⟩
    rcases Memory.mem_insertCell m k v c hc with rfl | hc
    · exact ⟨hk, by assumption⟩
    · exact h.2 c hc

theorem Memory.setByte_wf (m : Memory) (a : Word) (v : Byte) (h : m.wf = true) :
    (m.setByte a v).wf = true := Memory.set_wf m a.toNat v a.isLt h

/-- A store keeps the canonical form. -/
theorem Memory.write_wf (m : Memory) (w : Width) (a v : Word) (h : m.wf = true) :
    (m.write w a v).wf = true := by
  cases w
  · exact Memory.setByte_wf _ _ _ h
  · exact Memory.setByte_wf _ _ _ (Memory.setByte_wf _ _ _ h)
  · exact Memory.setByte_wf _ _ _ (Memory.setByte_wf _ _ _ (Memory.setByte_wf _ _ _
      (Memory.setByte_wf _ _ _ h)))

theorem Memory.placeWord_wf (m : Memory) (a : Word) (x : Half) (h : m.wf = true) :
    (m.placeWord a x).wf = true := Memory.write_wf m .half a _ h

theorem Memory.nil_wf : Memory.wf [] = true := by decide

/-- The image of a hard reset is in canonical form. -/
theorem Memory.ofCells_wf (cells : List Host.Cell) : (Memory.ofCells cells).wf = true := by
  unfold Memory.ofCells
  suffices h : ∀ m : Memory, m.wf = true →
      (cells.foldl (fun m c => if c.1 < 4294967296 then Memory.set m c.1 c.2 else m) m).wf = true from
    h [] Memory.nil_wf
  induction cells with
  | nil => intro m hm; simpa using hm
  | cons c rest ih =>
    intro m hm
    rw [List.foldl_cons]
    apply ih
    split
    · exact Memory.set_wf m c.1 c.2 (by assumption) hm
    · exact hm

/-- The memory of the reset state is in canonical form. -/
theorem State.reset_mem_wf : State.reset.mem.wf = true := by decide

/-! ## The bytes of a store (R73) -/

theorem sub_toNat_eq_iff (a b : Word) (k : Nat) (hk : k < 4294967296) :
    (b - a).toNat = k ↔ b = a + BitVec.ofNat 32 k := by
  constructor
  · intro h
    apply BitVec.eq_of_toNat_eq
    have := congrArg BitVec.toNat (show b - a = BitVec.ofNat 32 k from
      BitVec.eq_of_toNat_eq (by simp [h]; omega))
    bv_omega
  · rintro rfl
    bv_omega

theorem Memory.byte_write (m : Memory) (w : Width) (a v b : Word) :
    (m.write w a v).byte b =
      if (b - a).toNat < w.bytes then v.extractLsb' (8 * (w.bytes - 1 - (b - a).toNat)) 8
      else m.byte b := by
  have h0 := sub_toNat_eq_iff a b 0 (by omega)
  have h1 := sub_toNat_eq_iff a b 1 (by omega)
  have h2 := sub_toNat_eq_iff a b 2 (by omega)
  have h3 := sub_toNat_eq_iff a b 3 (by omega)
  simp only [BitVec.add_zero] at h0 h1 h2 h3
  generalize (b - a).toNat = d at *
  cases w <;> simp only [Memory.write, Memory.byte_setByte, Width.bytes, BitVec.ofNat_eq_ofNat]
  · by_cases e : b = a
    · have : d = 0 := h0.2 e
      subst this; simp [e]
    · have : ¬ d < 1 := fun h => e (h0.1 (by omega))
      simp [e, this]
  · by_cases hd : d < 2
    · have : d = 0 ∨ d = 1 := by omega
      rcases this with rfl | rfl <;> simp_all
    · have e0 : b ≠ a := fun h => hd (by have := h0.2 h; omega)
      have e1 : b ≠ a + 1#32 := fun h => hd (by have := h1.2 h; omega)
      simp [e0, e1, hd]
  · by_cases hd : d < 4
    · have : d = 0 ∨ d = 1 ∨ d = 2 ∨ d = 3 := by omega
      rcases this with rfl | rfl | rfl | rfl <;> simp_all
    · have e0 : b ≠ a := fun h => hd (by have := h0.2 h; omega)
      have e1 : b ≠ a + 1#32 := fun h => hd (by have := h1.2 h; omega)
      have e2 : b ≠ a + 2#32 := fun h => hd (by have := h2.2 h; omega)
      have e3 : b ≠ a + 3#32 := fun h => hd (by have := h3.2 h; omega)
      simp [e0, e1, e2, e3, hd]

/-- A store writes its bytes and no other where RAM answers, and none where something else does. -/
theorem State.store_bytes (s : State) (w : Width) (a v : Word) :
    if (s.answer a false).writes then BytesStored s (s.store w a v) w a v
    else SameMemory s (s.store w a v) := by
  split
  · rename_i h
    exact fun b => by rw [State.store_mem, if_pos h, Memory.byte_write]
  · rename_i h
    exact fun b => by rw [State.store_mem, if_neg h]

/-- A value of a width fits it. -/
theorem Width.zext_lt (w : Width) (v : Word) : (w.zext v).toNat < 2 ^ (8 * w.bytes) := by
  cases w
  · exact Nat.lt_of_le_of_lt (Nat.and_le_right (n := v.toNat) (m := 255)) (by decide)
  · exact Nat.lt_of_le_of_lt (Nat.and_le_right (n := v.toNat) (m := 65535)) (by decide)
  · exact v.isLt

/-- A value read fits its width (R75). -/
theorem Memory.read_lt (m : Memory) (w : Width) (a : Word) : (m.read w a).toNat < 2 ^ (8 * w.bytes) := by
  cases w
  · exact Nat.lt_of_le_of_lt (by simp only [Memory.read, BitVec.toNat_setWidth]; exact Nat.mod_le _ _)
      (m.byte a).isLt
  · exact Nat.lt_of_le_of_lt (by simp only [Memory.read, BitVec.toNat_setWidth]; exact Nat.mod_le _ _)
      (m.byte a ++ m.byte (a + 1)).isLt
  · exact (m.read .word a).isLt

/-! ## What answers an access (R6, R87) -/

/-- What a read gives. -/
theorem State.busRead_given (s : State) (w : Width) (a : Word) (program : Bool) :
    GivenByRead s w a program (s.busRead w a program) := by
  unfold State.busRead
  refine ⟨fun h => by rw [if_pos h], ?_⟩
  split
  · exact s.mem.read_lt w a
  · exact w.zext_lt _

/-- Where memory answers, a read gives what it holds and draws nothing. -/
theorem State.busRead_memory (s : State) (w : Width) (a : Word) (program : Bool)
    (h : (s.answer a program).reads = true) : s.busRead w a program = s.mem.read w a := by
  rw [State.busRead, if_pos h]

theorem State.afterRead_memory (s : State) (a : Word) (program : Bool)
    (h : (s.answer a program).reads = true) : s.afterRead a program = s := by
  rw [State.afterRead, if_pos h]; rfl

/-- A word written is the word read. -/
theorem Memory.read_write_word (m : Memory) (a v : Word) : (m.write .word a v).read .word a = v := by
  simp only [Memory.read, Memory.byte_write, Width.bytes]
  have h1 : (a + 1 - a).toNat = 1 := by bv_omega
  have h2 : (a + 2 - a).toNat = 2 := by bv_omega
  have h3 : (a + 3 - a).toNat = 3 := by bv_omega
  simp only [BitVec.sub_self, h1, h2, h3, BitVec.toNat_zero]
  rw [if_pos (by decide), if_pos (by decide), if_pos (by decide), if_pos (by decide)]
  apply BitVec.eq_of_getLsbD_eq
  intro i hi
  simp only [BitVec.getLsbD_append, BitVec.getLsbD_extractLsb']
  split
  · rw [show 8 * (4 - 1 - 3) + i = i by omega]; simp_all
  · split
    · rw [show 8 * (4 - 1 - 2) + (i - 8) = i by omega]; simp_all
    · split
      · rw [show 8 * (4 - 1 - 1) + (i - 8 - 8) = i by omega]; simp_all
      · rw [show 8 * (4 - 1 - 0) + (i - 8 - 8 - 8) = i by omega]
        have : i - 8 - 8 - 8 < 8 := by omega
        simp_all

/-! ## The natural boundary (R76) -/

/-- The natural boundary is the address less its remainder. -/
theorem Width.floor_toNat (w : Width) (a : Word) :
    (w.floor a).toNat = a.toNat - a.toNat % w.bytes := by
  have h1 : (a &&& 0xFFFFFFFE#32) = (a >>> 1) <<< 1 := by
    ext i hi; interval_cases i <;> simp
  have h2 : (a &&& 0xFFFFFFFC#32) = (a >>> 2) <<< 2 := by
    ext i hi; interval_cases i <;> simp
  have := a.isLt
  cases w
  · simp [Width.floor, Width.bytes, Nat.mod_one]
  · simp only [Width.floor, Width.bytes, h1]
    simp [BitVec.toNat_shiftLeft, BitVec.toNat_ushiftRight, Nat.shiftRight_eq_div_pow, Nat.shiftLeft_eq]
    omega
  · simp only [Width.floor, Width.bytes, h2]
    simp [BitVec.toNat_shiftLeft, BitVec.toNat_ushiftRight, Nat.shiftRight_eq_div_pow, Nat.shiftLeft_eq]
    omega

/-- An access is aligned where its address is a multiple of its width. -/
theorem Width.aligned_iff (w : Width) (a : Word) : w.aligned a = true ↔ a.toNat % w.bytes = 0 := by
  have h := w.floor_toNat a
  unfold Width.aligned
  rw [beq_iff_eq, ← BitVec.toNat_inj, h]
  have := Nat.mod_le a.toNat w.bytes
  omega

end Sys2Proof.Machine
end

