-- ==== Sys2Proof/Laws/Completion.lean ====
section
/-! SUPPORT. Everything the completion operations do (R27, R343), and the exception entry and return
(R310, R313, R314, R282), one lemma each. -/

namespace Sys2Proof.Machine

/-! ## Completing -/

theorem State.traced_false (s : State) : s.traced false = decide (s.traceMode = 1#2) := by
  simp [State.traced, Bool.beq_eq_decide_eq]

theorem State.traced_true (s : State) :
    s.traced true = (decide (s.traceMode = 1#2) || decide (s.traceMode = 3#2)) := by
  simp [State.traced, Bool.beq_eq_decide_eq]

theorem State.advance_advanced (s : State) : Advanced s s.advance :=
  ⟨⟨rfl, s.traced_false, by simp, rfl⟩, rfl⟩

theorem State.fallThrough_fellThrough (s : State) : FellThrough s s.fallThrough :=
  ⟨rfl, s.traced_true, rfl, rfl, rfl⟩

theorem State.flowTo_jumped (s : State) (p : Word) : Jumped s (s.flowTo p) p false :=
  ⟨rfl, s.traced_true, by simp, rfl⟩

theorem State.completeRegC_spec (s : State) (i : Reg) (v : Word) (b : Bool) :
    ∃ t, s.completeRegC i v b = .next t ∧ RegWritten s t i v ∧ t.psr = { s.psr with c := b } ∧
      SameSpecials s t ∧ SameMemory s t ∧ Advanced s t := by
  refine ⟨_, rfl, fun alt r => ?_, rfl, ?_, fun _ => rfl,
    ⟨rfl, s.traced_false, by simp, rfl⟩, rfl⟩
  · simpa using s.setReg_fileReg i v alt r
  · simp [SameSpecials]

theorem State.completeReg_spec (s : State) (i : Reg) (v : Word) :
    ∃ t, s.completeReg i v = .next t ∧ RegWritten s t i v ∧ t.psr = { s.psr with c := s.psr.c } ∧
      SameSpecials s t ∧ SameMemory s t ∧ Advanced s t := by
  refine ⟨_, rfl, fun alt r => ?_, rfl, ?_, fun _ => rfl,
    ⟨rfl, s.traced_false, by simp, rfl⟩, rfl⟩
  · simpa using s.setReg_fileReg i v alt r
  · simp [SameSpecials]

theorem State.completeC_spec (s : State) (b : Bool) :
    ∃ t, s.completeC b = .next t ∧ SameRegs s t ∧ t.psr = { s.psr with c := b } ∧
      SameSpecials s t ∧ SameMemory s t ∧ Advanced s t := by
  refine ⟨_, rfl, fun alt r => ?_, rfl, ?_, fun _ => rfl,
    ⟨rfl, s.traced_false, by simp, rfl⟩, rfl⟩
  · simp
  · simp [SameSpecials]

theorem State.advance_spec (s : State) :
    ∃ t, Host.Outcome.next (φ := Fault) (ρ := Refusal) s.advance = .next t ∧ SameRegs s t ∧
      t.psr = { s.psr with c := s.psr.c } ∧ SameSpecials s t ∧ SameMemory s t ∧ Advanced s t :=
  ⟨_, rfl, fun _ _ => rfl, rfl, by simp [SameSpecials], fun _ => rfl, s.advance_advanced⟩

/-- A conditional write either writes the register or leaves everything. -/
theorem State.completeRegIf_spec (s : State) (cond : Bool) (i : Reg) (v : Word) :
    ∃ t, s.completeRegIf cond i v = .next t ∧ RegWritten s t i (if cond then v else s.reg i) ∧
      t.psr = { s.psr with c := s.psr.c } ∧ SameSpecials s t ∧ SameMemory s t ∧ Advanced s t := by
  cases cond
  · obtain ⟨t, e, h1, h2⟩ := s.advance_spec
    refine ⟨t, e, fun alt r => ?_, h2⟩
    rw [h1 alt r]
    split
    · rename_i h; obtain ⟨rfl, rfl⟩ := h; simp [State.reg_eq_fileReg]
    · rfl
  · exact s.completeReg_spec i v

/-! ## Meanings made of one completion -/

theorem WritesReg.of_complete {i : Instr} {s : State} {d : Reg} {v : Word}
    (h : exec i s = s.completeReg d v) : WritesReg i s d v := by
  obtain ⟨t, e, ht⟩ := s.completeReg_spec d v
  exact ⟨t, h.trans e, ht⟩

theorem WritesRegAndC.of_complete {i : Instr} {s : State} {d : Reg} {v : Word} {c : Bool}
    (h : exec i s = s.completeRegC d v c) : WritesRegAndC i s d v c := by
  obtain ⟨t, e, ht⟩ := s.completeRegC_spec d v c
  exact ⟨t, h.trans e, ht⟩

theorem WritesC.of_complete {i : Instr} {s : State} {c : Bool} (h : exec i s = s.completeC c) :
    WritesC i s c := by
  obtain ⟨t, e, ht⟩ := s.completeC_spec c
  exact ⟨t, h.trans e, ht⟩

theorem WritesReg.of_completeIf {i : Instr} {s : State} {d : Reg} {v : Word} {b : Bool}
    (h : exec i s = s.completeRegIf b d v) : WritesReg i s d (if b then v else s.reg d) := by
  obtain ⟨t, e, ht⟩ := s.completeRegIf_spec b d v
  exact ⟨t, h.trans e, ht⟩

/-! ## Taking an exception -/

/-- With VBR zero the vector table is at address 0 (R301). -/
theorem vectorAddr_zero (s : State) (n : BitVec 7) (h : s.vbr = 0) :
    s.vectorAddr n = n.setWidth 32 <<< 2 := by
  have : s.vbrWord = 0#32 := by unfold State.vbrWord; rw [h]; rfl
  rw [State.vectorAddr, this, BitVec.zero_add]

@[simp] theorem State.goToHandler_supervisor (s : State) (n : BitVec 7)
    (h : s.windows = Windows.closed) : (s.goToHandler n).supervisor = s.psr.s := by
  simp [State.goToHandler, State.supervisor, h, Windows.closed]

theorem vectorTaken_eq (s : State) (n : BitVec 7) (fast : Bool) :
    s.vectorTaken n fast = vectorFor s n fast := by
  unfold State.vectorTaken vectorFor vecUnrecoverable
  cases fast <;> cases s.shadowsFree <;> simp

theorem vectorAddr_eq (s : State) (n : BitVec 7) :
    s.vectorAddr n = s.vbrWord + 4 * n.setWidth 32 := by
  unfold State.vectorAddr
  rw [BitVec.shiftLeft_eq_mul_twoPow, BitVec.mul_comm]
  rfl

/-- Where the vector can be read, the fetch goes to the handler. -/
theorem State.vectorFetch_readable (s : State) (n : BitVec 7)
    (h : s.busError (s.vectorAddr n) .word .vector = false) : s.vectorFetch n = s.goToHandler n := by
  simp [State.vectorFetch, h]

/-- Where it cannot, and vector 8 can, the fetch goes to the handler of vector 8 (R314). -/
theorem State.vectorFetch_unrecoverable (s : State) (n : BitVec 7)
    (h : s.busError (s.vectorAddr n) .word .vector = true) (hn : n ≠ vecUnrecoverable)
    (h8 : s.unrecoverable.busError (s.vectorAddr vecUnrecoverable) .word .vector = false) :
    s.vectorFetch n = s.unrecoverable.goToHandler vecUnrecoverable := by
  simp [State.vectorFetch, h, hn, h8]

/-- Where vector 8 cannot be read either the core is stuck (R314). -/
theorem State.vectorFetch_stuck (s : State) (n : BitVec 7)
    (h : s.busError (s.vectorAddr n) .word .vector = true)
    (h8 : n = vecUnrecoverable ∨
      s.unrecoverable.busError (s.vectorAddr vecUnrecoverable) .word .vector = true) :
    s.vectorFetch n = s.getStuck ∨ s.vectorFetch n = s.unrecoverable.getStuck := by
  by_cases hn : n = vecUnrecoverable
  · subst hn
    simp [State.vectorFetch, h]
  · simp [State.vectorFetch, h, hn, h8.resolve_left hn]

/-- After the saving of context the vector fetch is a supervisor access. -/
theorem State.saveContext_readable (s : State) (n m : BitVec 7) (ret : Word) (fast tp : Bool)
    (h : VectorReadable s m) :
    (s.saveContext n ret fast tp).busError ((s.saveContext n ret fast tp).vectorAddr m) .word .vector =
      false := by
  rw [vectorAddr_eq]; exact h

/-- After the saving of context the vector read is a supervisor program read (R71, R313). -/
theorem State.saveContext_given (s : State) (n : BitVec 7) (ret : Word) (fast tp : Bool) (a : Word) :
    GivenByVector s a ((s.saveContext n ret fast tp).busRead .word a true) :=
  fun h => (s.saveContext n ret fast tp).busRead_memory .word a true h

/-- Everything an exception entry does where its vector can be read (R310, R313). -/
theorem State.enter_spec (s : State) (n : BitVec 7) (ret : Word) (fast tp : Bool)
    (h : VectorReadable s (vectorFor s n fast)) :
    HandlerEntered s (s.enter n ret fast tp) (vectorFor s n fast) ret fast tp := by
  unfold State.enter
  rw [vectorTaken_eq]
  generalize vectorFor s n fast = v at h ⊢
  rw [State.vectorFetch_readable _ _ (s.saveContext_readable v v ret fast tp h)]
  unfold State.goToHandler
  have hv : (s.saveContext v ret fast tp).vectorAddr v = s.vbrWord + 4 * v.setWidth 32 := by
    rw [vectorAddr_eq]; rfl
  rw [hv]
  refine ⟨⟨⟨_, s.saveContext_given v ret fast tp _, rfl, ?_⟩,
    ⟨rfl, rfl, fun _ _ => rfl, fun _ => rfl, rfl, rfl, rfl, rfl, rfl, rfl, rfl, rfl, rfl, rfl⟩,
    rfl⟩, rfl, rfl⟩
  cases fast <;> simp [EntryPsr]

/-- Everything raising an exception of the instruction in execution does. -/
theorem State.raise_spec (s : State) (n : BitVec 7) (ret : Word)
    (h : VectorReadable s (vectorFor s n false)) :
    HandlerEntered s (s.raise n ret) (vectorFor s n false) ret false false :=
  s.enter_spec n ret false false h

/-- What no exception entry touches, whatever happens to its vector fetch. -/
theorem State.vectorFetch_frame (s : State) (n : BitVec 7) :
    (s.vectorFetch n).regs = s.regs ∧ (s.vectorFetch n).altRegs = s.altRegs ∧
    (s.vectorFetch n).mem = s.mem ∧ (s.vectorFetch n).vbr = s.vbr ∧ (s.vectorFetch n).ss = s.ss ∧
    (s.vectorFetch n).gcr = s.gcr ∧ (s.vectorFetch n).fpsr = s.fpsr ∧ (s.vectorFetch n).fpc = s.fpc ∧
    (s.vectorFetch n).windows = s.windows ∧ (s.vectorFetch n).inputs = s.inputs ∧
    (s.vectorFetch n).upcoming = s.upcoming ∧ (s.vectorFetch n).tracePending = s.tracePending ∧
    (s.vectorFetch n).brkPending = s.brkPending ∧ (s.vectorFetch n).stale = s.stale ∧
    (s.vectorFetch n).softResetSeen = s.softResetSeen := by
  unfold State.vectorFetch State.goToHandler
  split
  · split
    · simp
    · split <;> simp
  · simp

/-- What a vector fetch may change: PC, AF, VEC, EPSR, EPC, the activity, the count of free values. -/
theorem State.vectorFetch_cases (s : State) (n : BitVec 7) :
    s.vectorFetch n = s.goToHandler n ∨ s.vectorFetch n = s.getStuck ∨
      s.vectorFetch n = s.unrecoverable.getStuck ∨
      s.vectorFetch n = s.unrecoverable.goToHandler vecUnrecoverable := by
  unfold State.vectorFetch
  split
  · split
    · simp
    · split <;> simp
  · simp

/-- Everything a return from exception does, or why it stops (R282, R283). -/
theorem State.returnThrough_spec (s : State) (shadow ret : Word) (hb : psrBitsOk shadow = true)
    (ht : traceModeOk shadow = true) :
    ∃ t, s.returnThrough shadow ret = .next t ∧ t.psr = Psr.ofWord shadow ∧
      t.pc = ret &&& 0xFFFFFFFE#32 ∧ t.tracePending = shadow.getLsbD 13 ∧ t.windows = Windows.closed ∧
      t.stale = [] ∧ t.brkPending = s.brkPending ∧ SameRegs s t ∧ SameSpecials s t ∧
      SameMemory s t := by
  refine ⟨s.restored shadow ret, ?_, rfl, rfl, rfl, rfl, rfl, rfl, fun _ _ => rfl, ?_,
    fun _ => rfl⟩
  · simp [State.returnThrough, hb, ht]
  · simp [SameSpecials]

theorem State.privileged_user (s : State) (run : Result) (h : s.supervisor = false) :
    s.privileged run = .next (s.raise vecPrivilege s.pc) := by simp [State.privileged, h]

theorem State.privileged_supervisor (s : State) (run : Result) (h : s.supervisor = true) :
    s.privileged run = run := by simp [State.privileged, h]

end Sys2Proof.Machine
end

