-- ==== Sys2Proof/Laws/Access.lean ====
section
/-! SUPPORT. Everything the data accesses do: one access (R76, R79, R251), and the sequences of words of
the multi-register instructions (R246 to R249). -/

namespace Sys2Proof.Machine

/-! ## One access -/

theorem State.readAt_done (s : State) (w : Width) (a : Word) (program : Bool)
    (h : s.busError a w .read = false) :
    s.readAt w a program =
      .done (s.busRead w a program) ((s.afterRead a program).noteAccess a w .read) := by
  simp [State.readAt, h]

theorem State.readAt_raised (s : State) (w : Width) (a : Word) (program : Bool)
    (h : s.busError a w .read = true) :
    s.readAt w a program = .raised (s.busFault a w .read) s.pc s := by simp [State.readAt, h]

theorem State.writeAt_done (s : State) (w : Width) (a v : Word) (h : s.busError a w .write = false) :
    s.writeAt w a v = .done () ((s.store w a v).noteAccess a w .write) := by simp [State.writeAt, h]

theorem State.writeAt_raised (s : State) (w : Width) (a v : Word)
    (h : s.busError a w .write = true) :
    s.writeAt w a v = .raised (s.busFault a w .write) s.pc s := by simp [State.writeAt, h]

theorem State.loadData_some (s : State) (w : Width) (ea a : Word) (h : s.dataAddr w ea = some a) :
    s.loadData w ea = s.readAt w a false := by simp [State.loadData, h]

theorem State.storeData_some (s : State) (w : Width) (ea a v : Word)
    (h : s.dataAddr w ea = some a) : s.storeData w ea v = s.writeAt w a v := by
  simp [State.storeData, h]

theorem State.loadData_none (s : State) (w : Width) (ea : Word) (h : s.dataAddr w ea = none) :
    s.loadData w ea = .raised vecMisaligned s.pc s := by simp [State.loadData, h]

theorem State.storeData_none (s : State) (w : Width) (ea v : Word) (h : s.dataAddr w ea = none) :
    s.storeData w ea v = .raised vecMisaligned s.pc s := by simp [State.storeData, h]

/-- `DataAddr` in numbers (R76). -/
theorem State.dataAddr_eq (s : State) (w : Width) (ea : Word) :
    s.dataAddr w ea =
      if ea.toNat % w.bytes = 0 then some ea
      else if s.psr.mm then some (BitVec.ofNat 32 (ea.toNat - ea.toNat % w.bytes)) else none := by
  unfold State.dataAddr
  by_cases h : w.aligned ea = true
  · rw [if_pos h, if_pos ((w.aligned_iff ea).1 h)]
  · rw [if_neg h, if_neg (fun e => h ((w.aligned_iff ea).2 e))]
    have := w.floor_toNat ea
    have hf : w.floor ea = BitVec.ofNat 32 (ea.toNat - ea.toNat % w.bytes) := by
      apply BitVec.eq_of_toNat_eq
      have hl := ea.isLt
      rw [this, BitVec.toNat_ofNat]
      exact (Nat.mod_eq_of_lt (Nat.lt_of_le_of_lt (Nat.sub_le _ _) hl)).symm
    rw [hf]

/-- Access tests do not see the registers, a pending breakpoint, memory or the stale bytes. -/
theorem State.busError_setReg (s : State) (i : Reg) (v a : Word) (w : Width) (k : AccessKind) :
    (s.setReg i v).busError a w k = s.busError a w k := rfl

theorem State.busError_afterRead (s : State) (b : Word) (p : Bool) (a : Word) (w : Width)
    (k : AccessKind) : (s.afterRead b p).busError a w k = s.busError a w k := rfl

theorem State.busError_noteAccess (s : State) (b : Word) (x : Width) (l : AccessKind) (a : Word)
    (w : Width) (k : AccessKind) : (s.noteAccess b x l).busError a w k = s.busError a w k := rfl

theorem State.busError_store (s : State) (x : Width) (b v a : Word) (w : Width) (k : AccessKind) :
    (s.store x b v).busError a w k = s.busError a w k := rfl

/-- The bytes an access covers. -/
theorem Width.mem_footprint (w : Width) (a b : Word) :
    b.toNat ∈ w.footprint a ↔ (b - a).toNat < w.bytes := by
  have hw : w.bytes ≤ 4 := by cases w <;> decide
  unfold Width.footprint
  simp only [List.mem_map, List.mem_range]
  constructor
  · rintro ⟨k, hk, e⟩
    rw [(sub_toNat_eq_iff a b k (by omega)).2 (BitVec.eq_of_toNat_eq e).symm]
    exact hk
  · intro h
    exact ⟨_, h, (congrArg BitVec.toNat ((sub_toNat_eq_iff a b _ (by omega)).1 rfl)).symm⟩

/-! ## Sequences of words -/

/-- BRKREQ marks one of the first `n` words from `a` on. -/
def State.marksWords (s : State) (a : Word) (n : Nat) (k : AccessKind) : Bool :=
  (List.range n).any (fun j => s.brkReq (a + BitVec.ofNat 32 (4 * j)) .word k)

theorem State.marksWords_succ (s : State) (a : Word) (n : Nat) (k : AccessKind) :
    s.marksWords a (n + 1) k = (s.brkReq a .word k || s.marksWords (a + 4) n k) := by
  unfold State.marksWords
  rw [List.range_succ_eq_map, List.any_cons, List.any_map]
  simp only [Nat.mul_zero, BitVec.add_zero]
  congr 2
  funext j
  simp only [Function.comp]
  congr 1
  rw [BitVec.add_assoc, show (4 : Word) = BitVec.ofNat 32 4 from rfl, ← BitVec.ofNat_add]
  congr 2; omega

theorem word_step (a : Word) (k : Nat) :
    a + 4 + BitVec.ofNat 32 (4 * k) = a + BitVec.ofNat 32 (4 * (k + 1)) := by
  rw [BitVec.add_assoc, show (4 : Word) = BitVec.ofNat 32 4 from rfl, ← BitVec.ofNat_add]
  congr 2; omega

/-- Of the first `n` words from `a` on, the ones before the first that ends in a bus error, if any does. -/
theorem State.first_fault (s : State) (a : Word) (k : AccessKind) (n : Nat) :
    ∃ m ≤ n, (∀ j < m, s.busError (a + BitVec.ofNat 32 (4 * j)) .word k = false) ∧
      (m = n ∨ m < n ∧ s.busError (a + BitVec.ofNat 32 (4 * m)) .word k = true) := by
  induction n with
  | zero => exact ⟨0, Nat.le_refl _, by simp, .inl rfl⟩
  | succ n ih =>
    obtain ⟨m, hm, hlow, rfl | ⟨hlt, hf⟩⟩ := ih
    · cases h : s.busError (a + BitVec.ofNat 32 (4 * m)) .word k
      · refine ⟨m + 1, Nat.le_refl _, fun j hj => ?_, .inl rfl⟩
        rcases Nat.lt_succ_iff_lt_or_eq.1 hj with g | rfl
        · exact hlow j g
        · exact h
      · exact ⟨m, Nat.le_succ _, hlow, .inr ⟨Nat.lt_succ_self _, h⟩⟩
    · exact ⟨m, Nat.le_succ_of_le hm, hlow, .inr ⟨Nat.lt_succ_of_lt hlt, hf⟩⟩

/-- The state in which `loadWords` goes on after a word. -/
def State.wordLoaded (s : State) (r : Reg) (a : Word) : State :=
  ((s.afterRead a false).noteAccess a .word .read).setReg r (s.busRead .word a false)

/-- The state in which `storeWords` goes on after a word. -/
def State.wordStored (s : State) (a v : Word) : State := (s.store .word a v).noteAccess a .word .write

theorem loadWords_cons (r : Reg) (rs : List Reg) (a : Word) (s : State)
    (h : s.busError a .word .read = false) :
    loadWords (r :: rs) a s = loadWords rs (a + 4) (s.wordLoaded r a) := by
  simp only [loadWords, s.readAt_done .word a false h]; rfl

theorem storeWords_cons (v : Word) (vs : List Word) (a : Word) (s : State)
    (h : s.busError a .word .write = false) :
    storeWords (v :: vs) a s = storeWords vs (a + 4) (s.wordStored a v) := by
  simp only [storeWords, s.writeAt_done .word a v h]; rfl

/-- Where no word ends in a bus error, `loadWords` loads every register of the list from its word, where
memory answers, and changes nothing else but the breakpoint flag and the count of free values. -/
theorem loadWords_spec (rs : List Reg) : ∀ (a : Word) (s : State), rs.Nodup →
    (∀ k < rs.length, s.busError (a + BitVec.ofNat 32 (4 * k)) .word .read = false) →
    ∃ t, loadWords rs a s = .done () t ∧
      (∀ alt r, ¬ (alt = s.altFile ∧ r ∈ rs) → t.fileReg alt r = s.fileReg alt r) ∧
      (∀ r ∈ rs, (s.answer (a + BitVec.ofNat 32 (4 * rs.idxOf r)) false).reads = true →
        t.fileReg s.altFile r = s.mem.read .word (a + BitVec.ofNat 32 (4 * rs.idxOf r))) ∧
      t = { s with
        regs := t.regs, altRegs := t.altRegs
        brkPending := s.brkPending || s.marksWords a rs.length .read
        free := t.free } := by
  induction rs with
  | nil =>
    intro a s _ _
    exact ⟨s, rfl, by simp, by simp, by simp [State.marksWords]⟩
  | cons r rs ih =>
    intro a s hnd hbus
    rw [List.nodup_cons] at hnd
    have h0 := hbus 0 (by simp)
    simp only [Nat.mul_zero, BitVec.add_zero] at h0
    obtain ⟨t, e, hsame, hr, ht⟩ := ih (a + 4) (s.wordLoaded r a) hnd.2 (by
        intro k hk
        rw [word_step]
        exact hbus (k + 1) (by simp; omega))
    have hfile : ∀ alt q, (s.wordLoaded r a).fileReg alt q =
        if alt = s.altFile ∧ q = r then s.busRead .word a false else s.fileReg alt q :=
      fun alt q => State.setReg_fileReg ((s.afterRead a false).noteAccess a .word .read) r _ alt q
    refine ⟨t, (loadWords_cons r rs a s h0).trans e, ?_, ?_, ?_⟩
    · intro alt q h
      have h1 : ¬ (alt = s.altFile ∧ q = r) := fun g => h ⟨g.1, g.2 ▸ List.mem_cons_self ..⟩
      rw [hsame alt q (fun g => h ⟨g.1, List.mem_cons_of_mem _ g.2⟩), hfile, if_neg h1]
    · intro q hq hans
      by_cases hqr : q = r
      · subst hqr
        rw [List.idxOf_cons_self, Nat.mul_zero, BitVec.add_zero] at hans ⊢
        rw [hsame _ q (fun g => hnd.1 g.2), hfile, if_pos ⟨rfl, rfl⟩, s.busRead_memory .word a false hans]
      · have hm : q ∈ rs := (List.mem_cons.1 hq).resolve_left hqr
        rw [List.idxOf_cons_ne rs (Ne.symm hqr), Nat.succ_eq_add_one, ← word_step] at hans ⊢
        exact hr q hm hans
    · rw [ht]
      simp only [State.wordLoaded, State.setReg_brkPending, State.noteAccess_brkPending,
        State.afterRead_brkPending, List.length_cons, State.marksWords_succ]
      congr 1
      rw [Bool.or_assoc]; rfl

/-- At the first bus error `loadWords` stops: the registers before it are loaded, no other. -/
theorem loadWords_fault (rs : List Reg) : ∀ (a : Word) (s : State) (k : Nat), k < rs.length →
    (∀ j < k, s.busError (a + BitVec.ofNat 32 (4 * j)) .word .read = false) →
    s.busError (a + BitVec.ofNat 32 (4 * k)) .word .read = true →
    ∃ t, loadWords (rs.take k) a s = .done () t ∧
      loadWords rs a s = .raised (s.busFault (a + BitVec.ofNat 32 (4 * k)) .word .read) s.pc t := by
  induction rs with
  | nil => intro a s k hk; simp at hk
  | cons r rs ih =>
    intro a s k hk hlow hk2
    cases k with
    | zero =>
      simp only [Nat.mul_zero, BitVec.add_zero] at hk2 ⊢
      exact ⟨s, rfl, by simp only [loadWords, s.readAt_raised .word a false hk2]⟩
    | succ k =>
      have h0 := hlow 0 (by omega)
      simp only [Nat.mul_zero, BitVec.add_zero] at h0
      obtain ⟨t, e1, e2⟩ := ih (a + 4) (s.wordLoaded r a) k (by simpa using hk)
        (by intro j hj
            rw [word_step]
            exact hlow (j + 1) (by omega))
        (by rw [word_step]; exact hk2)
      refine ⟨t, ?_, ?_⟩
      · rw [List.take_succ_cons, loadWords_cons r _ a s h0, e1]
      · rw [loadWords_cons r rs a s h0, e2, word_step]; rfl

/-- Where no word ends in a bus error, `storeWords` stores every value in its word, where RAM answers, and
changes nothing else but the breakpoint flag and the list of stale bytes. -/
theorem storeWords_spec (vs : List Word) : ∀ (a : Word) (s : State), vs.length ≤ 16 →
    (∀ k < vs.length, s.busError (a + BitVec.ofNat 32 (4 * k)) .word .write = false) →
    ∃ t, storeWords vs a s = .done () t ∧
      (∀ b : Word, t.mem.byte b =
        if (b - a).toNat < 4 * vs.length ∧
          (s.answer (a + BitVec.ofNat 32 (4 * ((b - a).toNat / 4))) false).writes = true then
          (vs.getD ((b - a).toNat / 4) 0).extractLsb' (8 * (3 - (b - a).toNat % 4)) 8
        else s.mem.byte b) ∧
      (∀ b : Word, b.toNat ∈ t.stale ↔ (b - a).toNat < 4 * vs.length ∨ b.toNat ∈ s.stale) ∧
      t = { s with
        mem := t.mem, stale := t.stale
        brkPending := s.brkPending || s.marksWords a vs.length .write } := by
  induction vs with
  | nil =>
    intro a s _ _
    exact ⟨s, rfl, by simp, by simp, by simp [State.marksWords]⟩
  | cons v vs ih =>
    intro a s hlen hbus
    have h0 := hbus 0 (by simp)
    simp only [Nat.mul_zero, BitVec.add_zero] at h0
    simp only [List.length_cons] at hlen
    obtain ⟨t, e, hm, hst, ht⟩ := ih (a + 4) (s.wordStored a v) (by omega) (by
        intro k hk
        rw [word_step]
        exact hbus (k + 1) (by simp; omega))
    have hd : ∀ b : Word, (b - (a + 4)).toNat =
        if (b - a).toNat < 4 then (b - a).toNat + 4294967292 else (b - a).toNat - 4 := by
      intro b
      have h1 : b - (a + 4) = (b - a) - 4 := by bv_omega
      rw [h1]; generalize b - a = d; split <;> bv_omega
    have hmem : ∀ b : Word, (s.wordStored a v).mem.byte b =
        if (b - a).toNat < 4 ∧ (s.answer a false).writes = true then
          v.extractLsb' (8 * (3 - (b - a).toNat)) 8 else s.mem.byte b := by
      intro b
      rw [State.wordStored, State.noteAccess_mem, State.store_mem]
      by_cases hw : (s.answer a false).writes = true
      · rw [if_pos hw, Memory.byte_write, show Width.word.bytes = 4 from rfl]
        by_cases h : (b - a).toNat < 4
        · rw [if_pos h, if_pos ⟨h, hw⟩]
        · rw [if_neg h, if_neg fun g => h g.1]
      · rw [if_neg hw]; simp [hw]
    refine ⟨t, (storeWords_cons v vs a s h0).trans e, ?_, fun b => ?_, ?_⟩
    · intro b
      rw [hm b, hmem b, hd b, List.length_cons]
      change (if _ ∧ (s.answer _ false).writes = true then _ else _) = _
      generalize (b - a).toNat = d
      by_cases hd4 : d < 4
      · have h1 : ¬ d + 4294967292 < 4 * vs.length := by omega
        have h2 : d < 4 * (vs.length + 1) := by omega
        simp only [hd4, h1, h2, if_true, if_false, false_and, true_and, show d / 4 = 0 by omega,
          show d % 4 = d by omega, Nat.mul_zero, BitVec.add_zero]
        simp
      · simp only [hd4, if_false, false_and]
        rw [word_step, show d / 4 = (d - 4) / 4 + 1 by omega, show d % 4 = (d - 4) % 4 by omega]
        have h2 : d - 4 < 4 * vs.length ↔ d < 4 * (vs.length + 1) := by omega
        simp only [h2, List.getD_cons_succ]
    · rw [hst b, State.wordStored, State.noteAccess_stale, State.store_stale, List.mem_append,
        Width.mem_footprint, hd b, List.length_cons]
      generalize (b - a).toNat = d
      simp only [Width.bytes]
      have key : (if d < 4 then d + 4294967292 else d - 4) < 4 * vs.length ∨ d < 4 ↔
          d < 4 * (vs.length + 1) := by split <;> omega
      rw [← or_assoc, key]
    · rw [ht]
      simp only [State.wordStored, State.noteAccess_brkPending, State.store_brkPending,
        List.length_cons, State.marksWords_succ]
      congr 1
      rw [Bool.or_assoc]; rfl

/-- At the first bus error `storeWords` stops: the words before it are stored, no other. -/
theorem storeWords_fault (vs : List Word) : ∀ (a : Word) (s : State) (k : Nat), k < vs.length →
    (∀ j < k, s.busError (a + BitVec.ofNat 32 (4 * j)) .word .write = false) →
    s.busError (a + BitVec.ofNat 32 (4 * k)) .word .write = true →
    ∃ t, storeWords (vs.take k) a s = .done () t ∧
      storeWords vs a s = .raised (s.busFault (a + BitVec.ofNat 32 (4 * k)) .word .write) s.pc t := by
  induction vs with
  | nil => intro a s k hk; simp at hk
  | cons v vs ih =>
    intro a s k hk hlow hk2
    cases k with
    | zero =>
      simp only [Nat.mul_zero, BitVec.add_zero] at hk2 ⊢
      exact ⟨s, rfl, by simp only [storeWords, s.writeAt_raised .word a v hk2]⟩
    | succ k =>
      have h0 := hlow 0 (by omega)
      simp only [Nat.mul_zero, BitVec.add_zero] at h0
      obtain ⟨t, e1, e2⟩ := ih (a + 4) (s.wordStored a v) k (by simpa using hk)
        (by intro j hj
            rw [word_step]
            exact hlow (j + 1) (by omega))
        (by rw [word_step]; exact hk2)
      refine ⟨t, ?_, ?_⟩
      · rw [List.take_succ_cons, storeWords_cons v _ a s h0, e1]
      · rw [storeWords_cons v vs a s h0, e2, word_step]; rfl

/-! ## The transfers of the multi-register instructions -/

/-- Where no word ends in a bus error, `loadWords` completes. -/
theorem loadWords_done (rs : List Reg) : ∀ (a : Word) (s : State),
    (∀ k < rs.length, s.busError (a + BitVec.ofNat 32 (4 * k)) .word .read = false) →
    ∃ t, loadWords rs a s = .done () t := by
  induction rs with
  | nil => exact fun a s _ => ⟨s, rfl⟩
  | cons x rs ih =>
    intro a s hb
    have h0 := hb 0 (by simp)
    simp only [Nat.mul_zero, BitVec.add_zero] at h0
    rw [loadWords_cons x rs a s h0]
    exact ih (a + 4) _ fun k hk => by rw [word_step]; exact hb (k + 1) (by simp; omega)

/-- A list cut to `k` registers is loaded up to the first bus error and no further. -/
theorem loadWords_take (rs : List Reg) (a : Word) (s : State) (m k : Nat) (hm : m < rs.length)
    (hlow : ∀ j < m, s.busError (a + BitVec.ofNat 32 (4 * j)) .word .read = false)
    (hf : s.busError (a + BitVec.ofNat 32 (4 * m)) .word .read = true) :
    loadWords (rs.take (min k m)) a s = .done () (loadWords (rs.take k) a s).reached := by
  by_cases hk : k ≤ m
  · rw [Nat.min_eq_left hk]
    obtain ⟨t, e⟩ := loadWords_done (rs.take k) a s fun j hj =>
      hlow j (Nat.lt_of_lt_of_le hj (Nat.le_trans (List.length_take_le k rs) hk))
    rw [e]; rfl
  · have hl : m < (rs.take k).length := by rw [List.length_take]; omega
    obtain ⟨t, e1, e2⟩ := loadWords_fault (rs.take k) a s m hl hlow hf
    rw [List.take_take, Nat.min_comm] at e1
    rw [e1, e2]; rfl

/-- At its first bus error `loadMultiple` raises the exception of that access, some number of the transfers
before it made (R83, U28; entry 39). -/
theorem State.loadMultiple_fault (s : State) (base a : Word) (rs : List Reg) (m : Nat)
    (ha : s.dataAddr .word base = some a) (hm : m < rs.length)
    (hlow : ∀ j < m, s.busError (a + BitVec.ofNat 32 (4 * j)) .word .read = false)
    (hf : s.busError (a + BitVec.ofNat 32 (4 * m)) .word .read = true) :
    ∃ k ≤ m, ∃ t, loadWords (rs.take k) a (s.drawn 1) = .done () t ∧
      s.loadMultiple base rs =
        .raised (s.busFault (a + BitVec.ofNat 32 (4 * m)) .word .read) s.pc t := by
  obtain ⟨_, _, e⟩ := loadWords_fault rs a s m hm hlow hf
  refine ⟨_, Nat.min_le_right (Config.freeWord s.free).toNat m, _,
    loadWords_take rs a (s.drawn 1) m _ hm hlow hf, ?_⟩
  unfold State.loadMultiple
  rw [ha]
  simp only [e, Access.cutShort]

/-- Where no word ends in a bus error, `loadMultiple` does what `loadWords` does. -/
theorem State.loadMultiple_done (s : State) (base a : Word) (rs : List Reg)
    (ha : s.dataAddr .word base = some a)
    (hb : ∀ k < rs.length, s.busError (a + BitVec.ofNat 32 (4 * k)) .word .read = false) :
    s.loadMultiple base rs = loadWords rs a s := by
  obtain ⟨t, e⟩ := loadWords_done rs a s hb
  unfold State.loadMultiple
  rw [ha]
  simp only [e, Access.cutShort]

/-- Where no word ends in a bus error, `storeWords` completes. -/
theorem storeWords_done (vs : List Word) : ∀ (a : Word) (s : State),
    (∀ k < vs.length, s.busError (a + BitVec.ofNat 32 (4 * k)) .word .write = false) →
    ∃ t, storeWords vs a s = .done () t := by
  induction vs with
  | nil => exact fun a s _ => ⟨s, rfl⟩
  | cons x vs ih =>
    intro a s hb
    have h0 := hb 0 (by simp)
    simp only [Nat.mul_zero, BitVec.add_zero] at h0
    rw [storeWords_cons x vs a s h0]
    exact ih (a + 4) _ fun k hk => by rw [word_step]; exact hb (k + 1) (by simp; omega)

/-- A list cut to `k` values is stored up to the first bus error and no further. -/
theorem storeWords_take (vs : List Word) (a : Word) (s : State) (m k : Nat) (hm : m < vs.length)
    (hlow : ∀ j < m, s.busError (a + BitVec.ofNat 32 (4 * j)) .word .write = false)
    (hf : s.busError (a + BitVec.ofNat 32 (4 * m)) .word .write = true) :
    storeWords (vs.take (min k m)) a s = .done () (storeWords (vs.take k) a s).reached := by
  by_cases hk : k ≤ m
  · rw [Nat.min_eq_left hk]
    obtain ⟨t, e⟩ := storeWords_done (vs.take k) a s fun j hj =>
      hlow j (Nat.lt_of_lt_of_le hj (Nat.le_trans (List.length_take_le k vs) hk))
    rw [e]; rfl
  · have hl : m < (vs.take k).length := by rw [List.length_take]; omega
    obtain ⟨t, e1, e2⟩ := storeWords_fault (vs.take k) a s m hl hlow hf
    rw [List.take_take, Nat.min_comm] at e1
    rw [e1, e2]; rfl

/-- At its first bus error `storeMultiple` raises the exception of that access, some number of the transfers
before it made (R83, U28; entry 39). -/
theorem State.storeMultiple_fault (s : State) (base a : Word) (vs : List Word) (m : Nat)
    (ha : s.dataAddr .word base = some a) (hm : m < vs.length)
    (hlow : ∀ j < m, s.busError (a + BitVec.ofNat 32 (4 * j)) .word .write = false)
    (hf : s.busError (a + BitVec.ofNat 32 (4 * m)) .word .write = true) :
    ∃ k ≤ m, ∃ t, storeWords (vs.take k) a (s.drawn 1) = .done () t ∧
      s.storeMultiple base vs =
        .raised (s.busFault (a + BitVec.ofNat 32 (4 * m)) .word .write) s.pc t := by
  obtain ⟨_, _, e⟩ := storeWords_fault vs a s m hm hlow hf
  refine ⟨_, Nat.min_le_right (Config.freeWord s.free).toNat m, _,
    storeWords_take vs a (s.drawn 1) m _ hm hlow hf, ?_⟩
  unfold State.storeMultiple
  rw [ha]
  simp only [e, Access.cutShort]

/-- Where no word ends in a bus error, `storeMultiple` does what `storeWords` does. -/
theorem State.storeMultiple_done (s : State) (base a : Word) (vs : List Word)
    (ha : s.dataAddr .word base = some a)
    (hb : ∀ k < vs.length, s.busError (a + BitVec.ofNat 32 (4 * k)) .word .write = false) :
    s.storeMultiple base vs = storeWords vs a s := by
  obtain ⟨t, e⟩ := storeWords_done vs a s hb
  unfold State.storeMultiple
  rw [ha]
  simp only [e, Access.cutShort]

/-! ## Register lists -/

theorem regsFrom_nodup (rf : Reg) : (regsFrom rf).Nodup := by revert rf; decide

theorem regsFrom_length (rf : Reg) : (regsFrom rf).length = 16 - rf.toNat := by revert rf; decide

theorem mem_regsFrom (rf r : Reg) : r ∈ regsFrom rf ↔ rf ≤ r := by revert rf r; decide

theorem idxOf_regsFrom (rf r : Reg) (h : rf ≤ r) :
    (regsFrom rf).idxOf r = r.toNat - rf.toNat := by revert rf r; decide

theorem getElem_regsFrom (rf : Reg) (k : Fin 16) (h : k.val < 16 - rf.toNat) :
    (regsFrom rf)[k.val]? = some (rf + BitVec.ofNat 4 k.val) := by revert rf k; decide

theorem mem_quadRegs (r : Reg) : r ∈ quadRegs ↔ inQuad r = true := by revert r; decide

theorem idxOf_quadRegs (r : Reg) (h : inQuad r = true) : quadRegs.idxOf r = r.toNat - 4 := by
  revert r; decide

end Sys2Proof.Machine
end

