-- ==== Sys2Proof/Laws/Control.lean ====
section
/-! SUPPORT. What a move to or from a control register comes down to in supervisor mode, whichever register
its field names (R286, R287). -/

namespace Sys2Proof.Machine

theorem exec_mfcr_named {s : State} {cr : CregField} {c : CtrlReg} (rx : Reg)
    (h : s.supervisor = true) (hc : ctrlReg cr = some c) :
    exec (.mfcr cr rx) s = s.completeReg rx (s.readCtrl c) := by
  change execMfcr cr rx s = _
  simp [execMfcr, State.privileged, h, hc]

theorem exec_mfcr_unnamed {s : State} {cr : CregField} (rx : Reg) (h : s.supervisor = true)
    (hc : ctrlReg cr = none) : exec (.mfcr cr rx) s = .refused .unnamedControlRegister := by
  change execMfcr cr rx s = _
  simp [execMfcr, State.privileged, h, hc]

theorem exec_mtcr_named {s : State} {cr : CregField} {c : CtrlReg} {rx : Reg}
    (h : s.supervisor = true) (hc : ctrlReg cr = some c) (hr : ctrlWriteRefusal (s.reg rx) c = none) :
    exec (.mtcr cr rx) s = .next (s.advance.writeCtrl (s.reg rx) c) := by
  change execMtcr cr rx s = _
  simp [execMtcr, State.privileged, h, hc, hr]

theorem exec_mtcr_refused {s : State} {cr : CregField} {c : CtrlReg} {rx : Reg} {r : Refusal}
    (h : s.supervisor = true) (hc : ctrlReg cr = some c)
    (hr : ctrlWriteRefusal (s.reg rx) c = some r) : exec (.mtcr cr rx) s = .refused r := by
  change execMtcr cr rx s = _
  simp [execMtcr, State.privileged, h, hc, hr]

theorem exec_mtcr_unnamed {s : State} {cr : CregField} (rx : Reg) (h : s.supervisor = true)
    (hc : ctrlReg cr = none) : exec (.mtcr cr rx) s = .refused .unnamedControlRegister := by
  change execMtcr cr rx s = _
  simp [execMtcr, State.privileged, h, hc]

/-- The PSR image of a `mtcr` to CR0 is accepted exactly where SP, the reserved bits and TM are legal. -/
theorem ctrlWriteRefusal_psr (v : Word) :
    ctrlWriteRefusal v .psr = none ↔ psrBitsOk v = true ∧ traceModeOk v = true := by
  unfold ctrlWriteRefusal
  cases psrBitsOk v <;> cases traceModeOk v <;> simp

/-- A changed value joins the older ones at the end of its window. -/
theorem pushOld_eq {α : Type} [DecidableEq α] (old new : α) (older : List α) :
    pushOld old new older = older ++ (if new = old then [] else [old]) := by
  unfold pushOld
  by_cases h : old = new
  · simp [h]
  · simp [h, Ne.symm h]

end Sys2Proof.Machine
end

