-- ==== Sys2Proof/Laws/Decode.lean ====
section
/-! SUPPORT. The fields of the words that the format builders of R103 make, and the words of the instruction
pages as format words. -/

namespace Sys2Proof

/-! ## Taking a concatenation apart -/

theorem extract_append_low {n m k : Nat} (a : BitVec n) (b : BitVec m) (h : k ≤ m) :
    (a ++ b).extractLsb' 0 k = b.extractLsb' 0 k := by
  ext i hi
  simp [BitVec.getLsbD_append, show i < m by omega]

theorem extract_append_high {n m s k : Nat} (a : BitVec n) (b : BitVec m) (h : m ≤ s) :
    (a ++ b).extractLsb' s k = a.extractLsb' (s - m) k := by
  ext i hi
  simp only [BitVec.getElem_extractLsb', BitVec.getLsbD_append, show ¬ s + i < m by omega, if_false]
  congr 1; omega

theorem extract_append_inner {n m s k : Nat} (a : BitVec n) (b : BitVec m) (h : s + k ≤ m) :
    (a ++ b).extractLsb' s k = b.extractLsb' s k := by
  ext i hi
  simp [BitVec.getLsbD_append, show s + i < m by omega]

theorem extract_all {n : Nat} (a : BitVec n) : a.extractLsb' 0 n = a := by
  ext i hi
  simp

/-! ## The fields of each format -/

@[simp] theorem trapWord_op4 (op : BitVec 14) (v : BitVec 2) :
    op4 (trapWord op v) = op.extractLsb' 10 4 := by
  unfold op4 trapWord; rw [extract_append_high _ _ (by decide)]

@[simp] theorem trapWord_op8 (op : BitVec 14) (v : BitVec 2) :
    op8 (trapWord op v) = op.extractLsb' 6 8 := by
  unfold op8 trapWord; rw [extract_append_high _ _ (by decide)]

@[simp] theorem trapWord_op12 (op : BitVec 14) (v : BitVec 2) :
    op12 (trapWord op v) = op.extractLsb' 2 12 := by
  unfold op12 trapWord; rw [extract_append_high _ _ (by decide)]

@[simp] theorem trapWord_op14 (op : BitVec 14) (v : BitVec 2) :
    op14 (trapWord op v) = op := by
  unfold op14 trapWord; rw [extract_append_high _ _ (by decide)]; exact extract_all _

@[simp] theorem trapWord_fieldVec2 (op : BitVec 14) (v : BitVec 2) :
    fieldVec2 (trapWord op v) = v := by
  unfold fieldVec2 trapWord; rw [extract_append_inner _ _ (by decide)]; exact extract_all _

@[simp] theorem monadicWord_op4 (op : BitVec 12) (rx : BitVec 4) :
    op4 (monadicWord op rx) = op.extractLsb' 8 4 := by
  unfold op4 monadicWord; rw [extract_append_high _ _ (by decide)]

@[simp] theorem monadicWord_op7 (op : BitVec 12) (rx : BitVec 4) :
    op7 (monadicWord op rx) = op.extractLsb' 5 7 := by
  unfold op7 monadicWord; rw [extract_append_high _ _ (by decide)]

@[simp] theorem monadicWord_op8 (op : BitVec 12) (rx : BitVec 4) :
    op8 (monadicWord op rx) = op.extractLsb' 4 8 := by
  unfold op8 monadicWord; rw [extract_append_high _ _ (by decide)]

@[simp] theorem monadicWord_op12 (op : BitVec 12) (rx : BitVec 4) :
    op12 (monadicWord op rx) = op := by
  unfold op12 monadicWord; rw [extract_append_high _ _ (by decide)]; exact extract_all _

@[simp] theorem monadicWord_fieldImm5 (op : BitVec 12) (rx : BitVec 4) :
    fieldImm5 (monadicWord op rx) = op.extractLsb' 0 5 := by
  unfold fieldImm5 monadicWord; rw [extract_append_high _ _ (by decide)]

@[simp] theorem monadicWord_fieldRx (op : BitVec 12) (rx : BitVec 4) :
    fieldRx (monadicWord op rx) = rx := by
  unfold fieldRx monadicWord; rw [extract_append_inner _ _ (by decide)]; exact extract_all _

@[simp] theorem dyadicWord_op4 (op : BitVec 8) (ry : BitVec 4) (rx : BitVec 4) :
    op4 (dyadicWord op ry rx) = op.extractLsb' 4 4 := by
  unfold op4 dyadicWord; rw [extract_append_high _ _ (by decide), extract_append_high _ _ (by decide)]

@[simp] theorem dyadicWord_op7 (op : BitVec 8) (ry : BitVec 4) (rx : BitVec 4) :
    op7 (dyadicWord op ry rx) = op.extractLsb' 1 7 := by
  unfold op7 dyadicWord; rw [extract_append_high _ _ (by decide), extract_append_high _ _ (by decide)]

@[simp] theorem dyadicWord_op8 (op : BitVec 8) (ry : BitVec 4) (rx : BitVec 4) :
    op8 (dyadicWord op ry rx) = op := by
  unfold op8 dyadicWord; rw [extract_append_high _ _ (by decide), extract_append_high _ _ (by decide)]; exact extract_all _

@[simp] theorem dyadicWord_fieldRy (op : BitVec 8) (ry : BitVec 4) (rx : BitVec 4) :
    fieldRy (dyadicWord op ry rx) = ry := by
  unfold fieldRy dyadicWord; rw [extract_append_high _ _ (by decide), extract_append_inner _ _ (by decide)]; exact extract_all _

@[simp] theorem dyadicWord_fieldRx (op : BitVec 8) (ry : BitVec 4) (rx : BitVec 4) :
    fieldRx (dyadicWord op ry rx) = rx := by
  unfold fieldRx dyadicWord; rw [extract_append_inner _ _ (by decide)]; exact extract_all _

@[simp] theorem imm5Word_op4 (op : BitVec 7) (imm : BitVec 5) (rx : BitVec 4) :
    op4 (imm5Word op imm rx) = op.extractLsb' 3 4 := by
  unfold op4 imm5Word; rw [extract_append_high _ _ (by decide), extract_append_high _ _ (by decide)]

@[simp] theorem imm5Word_op7 (op : BitVec 7) (imm : BitVec 5) (rx : BitVec 4) :
    op7 (imm5Word op imm rx) = op := by
  unfold op7 imm5Word; rw [extract_append_high _ _ (by decide), extract_append_high _ _ (by decide)]; exact extract_all _

@[simp] theorem imm5Word_fieldImm5 (op : BitVec 7) (imm : BitVec 5) (rx : BitVec 4) :
    fieldImm5 (imm5Word op imm rx) = imm := by
  unfold fieldImm5 imm5Word; rw [extract_append_high _ _ (by decide), extract_append_inner _ _ (by decide)]; exact extract_all _

@[simp] theorem imm5Word_fieldRx (op : BitVec 7) (imm : BitVec 5) (rx : BitVec 4) :
    fieldRx (imm5Word op imm rx) = rx := by
  unfold fieldRx imm5Word; rw [extract_append_inner _ _ (by decide)]; exact extract_all _

@[simp] theorem imm7Word_op4 (op : BitVec 5) (imm : BitVec 7) (rx : BitVec 4) :
    op4 (imm7Word op imm rx) = op.extractLsb' 1 4 := by
  unfold op4 imm7Word; rw [extract_append_high _ _ (by decide), extract_append_high _ _ (by decide)]

@[simp] theorem imm7Word_op5 (op : BitVec 5) (imm : BitVec 7) (rx : BitVec 4) :
    op5 (imm7Word op imm rx) = op := by
  unfold op5 imm7Word; rw [extract_append_high _ _ (by decide), extract_append_high _ _ (by decide)]; exact extract_all _

@[simp] theorem imm7Word_fieldImm7 (op : BitVec 5) (imm : BitVec 7) (rx : BitVec 4) :
    fieldImm7 (imm7Word op imm rx) = imm := by
  unfold fieldImm7 imm7Word; rw [extract_append_high _ _ (by decide), extract_append_inner _ _ (by decide)]; exact extract_all _

@[simp] theorem imm7Word_fieldRx (op : BitVec 5) (imm : BitVec 7) (rx : BitVec 4) :
    fieldRx (imm7Word op imm rx) = rx := by
  unfold fieldRx imm7Word; rw [extract_append_inner _ _ (by decide)]; exact extract_all _

@[simp] theorem haiWord_op4 (op : BitVec 4) (uu : BitVec 2) (x : BitVec 10) :
    op4 (haiWord op uu x) = op := by
  unfold op4 haiWord; rw [extract_append_high _ _ (by decide), extract_append_high _ _ (by decide)]; exact extract_all _

@[simp] theorem haiWord_fieldUu (op : BitVec 4) (uu : BitVec 2) (x : BitVec 10) :
    fieldUu (haiWord op uu x) = uu := by
  unfold fieldUu haiWord; rw [extract_append_high _ _ (by decide), extract_append_inner _ _ (by decide)]; exact extract_all _

@[simp] theorem haiWord_fieldHai (op : BitVec 4) (uu : BitVec 2) (x : BitVec 10) :
    fieldHai (haiWord op uu x) = x := by
  unfold fieldHai haiWord; rw [extract_append_inner _ _ (by decide)]; exact extract_all _

@[simp] theorem literalWord_op4 (op : BitVec 4) (rz : BitVec 4) (d : BitVec 8) :
    op4 (literalWord op rz d) = op := by
  unfold op4 literalWord; rw [extract_append_high _ _ (by decide), extract_append_high _ _ (by decide)]; exact extract_all _

@[simp] theorem literalWord_fieldRz (op : BitVec 4) (rz : BitVec 4) (d : BitVec 8) :
    fieldRz (literalWord op rz d) = rz := by
  unfold fieldRz literalWord; rw [extract_append_high _ _ (by decide), extract_append_inner _ _ (by decide)]; exact extract_all _

@[simp] theorem literalWord_fieldDisp8 (op : BitVec 4) (rz : BitVec 4) (d : BitVec 8) :
    fieldDisp8 (literalWord op rz d) = d := by
  unfold fieldDisp8 literalWord; rw [extract_append_inner _ _ (by decide)]; exact extract_all _

@[simp] theorem loadStoreWord_op4 (op : BitVec 4) (rz : BitVec 4) (imm : BitVec 4) (rx : BitVec 4) :
    op4 (loadStoreWord op rz imm rx) = op := by
  unfold op4 loadStoreWord; rw [extract_append_high _ _ (by decide), extract_append_high _ _ (by decide), extract_append_high _ _ (by decide)]; exact extract_all _

@[simp] theorem loadStoreWord_fieldRz (op : BitVec 4) (rz : BitVec 4) (imm : BitVec 4) (rx : BitVec 4) :
    fieldRz (loadStoreWord op rz imm rx) = rz := by
  unfold fieldRz loadStoreWord; rw [extract_append_high _ _ (by decide), extract_append_high _ _ (by decide), extract_append_inner _ _ (by decide)]; exact extract_all _

@[simp] theorem loadStoreWord_fieldRy (op : BitVec 4) (rz : BitVec 4) (imm : BitVec 4) (rx : BitVec 4) :
    fieldRy (loadStoreWord op rz imm rx) = imm := by
  unfold fieldRy loadStoreWord; rw [extract_append_high _ _ (by decide), extract_append_inner _ _ (by decide)]; exact extract_all _

@[simp] theorem loadStoreWord_fieldRx (op : BitVec 4) (rz : BitVec 4) (imm : BitVec 4) (rx : BitVec 4) :
    fieldRx (loadStoreWord op rz imm rx) = rx := by
  unfold fieldRx loadStoreWord; rw [extract_append_inner _ _ (by decide)]; exact extract_all _

@[simp] theorem branchWord_op4 (op : BitVec 5) (d : BitVec 11) :
    op4 (branchWord op d) = op.extractLsb' 1 4 := by
  unfold op4 branchWord; rw [extract_append_high _ _ (by decide)]

@[simp] theorem branchWord_op5 (op : BitVec 5) (d : BitVec 11) :
    op5 (branchWord op d) = op := by
  unfold op5 branchWord; rw [extract_append_high _ _ (by decide)]; exact extract_all _

@[simp] theorem branchWord_fieldDisp11 (op : BitVec 5) (d : BitVec 11) :
    fieldDisp11 (branchWord op d) = d := by
  unfold fieldDisp11 branchWord; rw [extract_append_inner _ _ (by decide)]; exact extract_all _

/-! ## Joining the fields of a word -/

theorem append_fields12 (w : Half) : op12 w ++ fieldRx w = w := by
  apply BitVec.eq_of_getLsbD_eq; intro i hi
  simp only [BitVec.getLsbD_append, op12, fieldRx, BitVec.getLsbD_extractLsb']
  interval_cases i <;> simp

theorem append_fields14 (w : Half) : op14 w ++ fieldVec2 w = w := by
  apply BitVec.eq_of_getLsbD_eq; intro i hi
  simp only [BitVec.getLsbD_append, op14, fieldVec2, BitVec.getLsbD_extractLsb']
  interval_cases i <;> simp

theorem append_fields8 (w : Half) : op8 w ++ fieldRy w ++ fieldRx w = w := by
  apply BitVec.eq_of_getLsbD_eq; intro i hi
  simp only [BitVec.getLsbD_append, op8, fieldRy, fieldRx, BitVec.getLsbD_extractLsb']
  interval_cases i <;> simp

theorem append_fields7 (w : Half) : op7 w ++ fieldImm5 w ++ fieldRx w = w := by
  apply BitVec.eq_of_getLsbD_eq; intro i hi
  simp only [BitVec.getLsbD_append, op7, fieldImm5, fieldRx, BitVec.getLsbD_extractLsb']
  interval_cases i <;> simp

theorem append_fields5 (w : Half) : op5 w ++ fieldImm7 w ++ fieldRx w = w := by
  apply BitVec.eq_of_getLsbD_eq; intro i hi
  simp only [BitVec.getLsbD_append, op5, fieldImm7, fieldRx, BitVec.getLsbD_extractLsb']
  interval_cases i <;> simp

theorem append_fields_branch (w : Half) : op5 w ++ fieldDisp11 w = w := by
  apply BitVec.eq_of_getLsbD_eq; intro i hi
  simp only [BitVec.getLsbD_append, op5, fieldDisp11, BitVec.getLsbD_extractLsb']
  interval_cases i <;> simp

theorem append_fields_hai (w : Half) : op4 w ++ fieldUu w ++ fieldHai w = w := by
  apply BitVec.eq_of_getLsbD_eq; intro i hi
  simp only [BitVec.getLsbD_append, op4, fieldUu, fieldHai, BitVec.getLsbD_extractLsb']
  interval_cases i <;> simp

theorem append_fields_literal (w : Half) : op4 w ++ fieldRz w ++ fieldDisp8 w = w := by
  apply BitVec.eq_of_getLsbD_eq; intro i hi
  simp only [BitVec.getLsbD_append, op4, fieldRz, fieldDisp8, BitVec.getLsbD_extractLsb']
  interval_cases i <;> simp

theorem append_fields_loadStore (w : Half) : op4 w ++ fieldRz w ++ fieldRy w ++ fieldRx w = w := by
  apply BitVec.eq_of_getLsbD_eq; intro i hi
  simp only [BitVec.getLsbD_append, op4, fieldRz, fieldRy, fieldRx, BitVec.getLsbD_extractLsb']
  interval_cases i <;> simp

/-! ## The words of the pages -/

theorem pageRx_eq (op : BitVec 12) (rx : Reg) :
    Machine.pageRx (op ++ 0#4) rx = monadicWord op rx := by
  apply BitVec.eq_of_getLsbD_eq; intro i hi
  simp only [Machine.pageRx, monadicWord, BitVec.getLsbD_or, BitVec.getLsbD_append,
    BitVec.getLsbD_setWidth]
  by_cases h : i < 4
  · simp [h, hi]
  · simp [h, BitVec.getLsbD_of_ge rx i (by omega)]

theorem pageRyRx_eq (op : BitVec 8) (ry rx : Reg) :
    Machine.pageRyRx (op ++ 0#8) ry rx = dyadicWord op ry rx := by
  apply BitVec.eq_of_getLsbD_eq; intro i hi
  simp only [Machine.pageRyRx, dyadicWord, BitVec.getLsbD_or, BitVec.getLsbD_append,
    BitVec.getLsbD_setWidth, BitVec.getLsbD_shiftLeft]
  by_cases h : i < 4
  · simp [h, show i < 8 by omega, hi]
  · by_cases h8 : i < 8
    · simp [h, h8, show i - 4 < 4 by omega, hi, show i - 4 < 16 by omega,
        BitVec.getLsbD_of_ge rx i (by omega)]
    · simp [h, h8, show ¬ i - 4 < 4 by omega, BitVec.getLsbD_of_ge rx i (by omega),
        BitVec.getLsbD_of_ge ry (i - 4) (by omega), show i - 4 - 4 = i - 8 by omega]

theorem pageImm5Rx_eq (op : BitVec 7) (n : BitVec 5) (rx : Reg) :
    Machine.pageImm5Rx (op ++ 0#9) n rx = imm5Word op n rx := by
  apply BitVec.eq_of_getLsbD_eq; intro i hi
  simp only [Machine.pageImm5Rx, imm5Word, BitVec.getLsbD_or, BitVec.getLsbD_append,
    BitVec.getLsbD_setWidth, BitVec.getLsbD_shiftLeft]
  by_cases h : i < 4
  · simp [h, show i < 9 by omega, hi]
  · by_cases h8 : i < 9
    · simp [h, h8, show i - 4 < 5 by omega, hi, show i - 4 < 16 by omega,
        BitVec.getLsbD_of_ge rx i (by omega)]
    · simp [h, h8, show ¬ i - 4 < 5 by omega, BitVec.getLsbD_of_ge rx i (by omega),
        BitVec.getLsbD_of_ge n (i - 4) (by omega), show i - 4 - 5 = i - 9 by omega]

theorem pageRzRx_eq (op : BitVec 4) (rz : Reg) (n : BitVec 4) (rx : Reg) :
    Machine.pageRzRx (op ++ 0#12) rz n rx = loadStoreWord op rz n rx := by
  apply BitVec.eq_of_getLsbD_eq; intro i hi
  simp only [Machine.pageRzRx, loadStoreWord, BitVec.getLsbD_or, BitVec.getLsbD_append,
    BitVec.getLsbD_setWidth, BitVec.getLsbD_shiftLeft]
  by_cases h : i < 4
  · simp [h, show i < 12 by omega, show i < 8 by omega, hi]
  · by_cases h8 : i < 8
    · simp [h, h8, show i < 12 by omega, show i - 4 < 4 by omega, hi, show i - 4 < 16 by omega,
        BitVec.getLsbD_of_ge rx i (by omega)]
    · by_cases h12 : i < 12
      · simp [h, h8, h12, show ¬ i - 4 < 4 by omega, show i - 8 < 4 by omega, hi,
          show i - 8 < 16 by omega, BitVec.getLsbD_of_ge rx i (by omega),
          BitVec.getLsbD_of_ge n (i - 4) (by omega), show i - 4 - 4 = i - 8 by omega]
      · simp [h, h8, h12, show ¬ i - 4 < 4 by omega, show ¬ i - 4 - 4 < 4 by omega,
          BitVec.getLsbD_of_ge rx i (by omega), BitVec.getLsbD_of_ge n (i - 4) (by omega),
          BitVec.getLsbD_of_ge rz (i - 8) (by omega), show i - 4 - 4 - 4 = i - 12 by omega]

end Sys2Proof
end

