-- ==== Sys2Proof/Laws/Exec.lean ====
section
/-! SUPPORT. Everything an instruction can answer with a next state, once for all instructions: it writes
registers of the file in effect, C and, if it stores, memory, and then completes in one of a few ways or
raises an exception. -/

namespace Sys2Proof.Machine

/-! ## What the effect of an instruction may touch before it completes -/

/-- `u` is `s` but for registers of the file in effect, C, memory where `stores`, the breakpoint flag, the
stale bytes and the count of free values. -/
structure Touched (stores : Bool) (s u : State) : Prop where
  rest : u = { s with
    regs := u.regs, altRegs := u.altRegs, psr := { s.psr with c := u.psr.c }, mem := u.mem
    brkPending := u.brkPending, stale := u.stale, free := u.free }
  file : ∀ r : Reg, u.fileReg (!s.altFile) r = s.fileReg (!s.altFile) r
  mem_wf : s.mem.wf = true → u.mem.wf = true
  mem_same : stores = false → u.mem = s.mem

theorem Touched.refl (b : Bool) (s : State) : Touched b s s := ⟨rfl, fun _ => rfl, id, fun _ => rfl⟩

theorem Touched.altFile {b : Bool} {s u : State} (h : Touched b s u) : u.altFile = s.altFile := by
  rw [h.rest]; rfl

theorem Touched.trans {b : Bool} {s u v : State} (h : Touched b s u) (k : Touched b u v) :
    Touched b s v := by
  refine ⟨?_, fun r => ?_, fun w => k.mem_wf (h.mem_wf w), fun w => (k.mem_same w).trans (h.mem_same w)⟩
  · have e := k.rest
    rw [h.rest] at e
    exact e
  · have e := k.file r
    rw [h.altFile] at e
    exact e.trans (h.file r)

theorem Touched.setReg {b : Bool} {s u : State} (h : Touched b s u) (i : Reg) (v : Word) :
    Touched b s (u.setReg i v) :=
  h.trans ⟨rfl, fun r => by rw [State.setReg_fileReg]; simp, id, fun _ => rfl⟩

theorem Touched.setC {b : Bool} {s u : State} (h : Touched b s u) (c : Bool) :
    Touched b s (u.setC c) := h.trans ⟨rfl, fun _ => rfl, id, fun _ => rfl⟩

theorem Touched.drawn {b : Bool} {s u : State} (h : Touched b s u) (n : Nat) :
    Touched b s (u.drawn n) := h.trans ⟨rfl, fun _ => rfl, id, fun _ => rfl⟩

theorem Touched.afterRead {b : Bool} {s u : State} (h : Touched b s u) (a : Word) (p : Bool) :
    Touched b s (u.afterRead a p) := h.drawn _

theorem Touched.noteAccess {b : Bool} {s u : State} (h : Touched b s u) (a : Word) (w : Width)
    (k : AccessKind) : Touched b s (u.noteAccess a w k) := h.trans ⟨rfl, fun _ => rfl, id, fun _ => rfl⟩

theorem Touched.store {s u : State} (h : Touched true s u) (w : Width) (a v : Word) :
    Touched true s (u.store w a v) :=
  h.trans ⟨rfl, fun _ => rfl,
    fun m => by rw [State.store_mem]; split; exacts [Memory.write_wf _ w a v m, m], fun e => by cases e⟩

/-! ## Access sequences -/

theorem touched_readAt {b : Bool} {s u : State} (h : Touched b s u) (w : Width) (a : Word) (p : Bool) :
    Touched b s (u.readAt w a p).reached := by
  unfold State.readAt
  split
  · exact h
  · exact (h.afterRead a p).noteAccess a w .read

theorem touched_readLiteral {b : Bool} {s u : State} (h : Touched b s u) (d : BitVec 8) :
    Touched b s (u.readLiteral d).reached := touched_readAt h _ _ _

theorem touched_writeAt {s u : State} (h : Touched true s u) (w : Width) (a v : Word) :
    Touched true s (u.writeAt w a v).reached := by
  unfold State.writeAt
  split
  · exact h
  · exact (h.store w a v).noteAccess a w .write

theorem touched_loadData {b : Bool} {s u : State} (h : Touched b s u) (w : Width) (ea : Word) :
    Touched b s (u.loadData w ea).reached := by
  unfold State.loadData
  split
  · exact h
  · exact touched_readAt h w _ _

theorem touched_storeData {s u : State} (h : Touched true s u) (w : Width) (ea v : Word) :
    Touched true s (u.storeData w ea v).reached := by
  unfold State.storeData
  split
  · exact h
  · exact touched_writeAt h w _ v

theorem touched_loadWords {b : Bool} (rs : List Reg) : ∀ {s u : State} (a : Word), Touched b s u →
    Touched b s (loadWords rs a u).reached := by
  induction rs with
  | nil => exact fun _ h => h
  | cons r rs ih =>
    intro s u a h
    have hr := touched_readAt h .word a false
    unfold loadWords
    split
    · rename_i v t e
      rw [e] at hr
      exact ih (a + 4) (hr.setReg r v)
    · rename_i n ret t e
      rw [e] at hr
      exact hr

theorem touched_storeWords (vs : List Word) : ∀ {s u : State} (a : Word), Touched true s u →
    Touched true s (storeWords vs a u).reached := by
  induction vs with
  | nil => exact fun _ h => h
  | cons v vs ih =>
    intro s u a h
    have hr := touched_writeAt h .word a v
    unfold storeWords
    split
    · rename_i t e
      rw [e] at hr
      exact ih (a + 4) hr
    · rename_i n ret t e
      rw [e] at hr
      exact hr

theorem touched_cutShort {b : Bool} {s u : State} {whole : Access Unit}
    {part : Nat → State → Access Unit} (hu : Touched b s u) (hw : Touched b s whole.reached)
    (hp : ∀ k t, Touched b s t → Touched b s (part k t).reached) :
    Touched b s (whole.cutShort u part).reached := by
  unfold Access.cutShort
  split
  · exact hw
  · exact hp _ _ (hu.drawn 1)

theorem touched_loadMultiple {b : Bool} {s u : State} (h : Touched b s u) (base : Word)
    (rs : List Reg) : Touched b s (u.loadMultiple base rs).reached := by
  unfold State.loadMultiple
  split
  · exact h
  · exact touched_cutShort h (touched_loadWords rs _ h) fun _ _ g => touched_loadWords _ _ g

theorem touched_storeMultiple {s u : State} (h : Touched true s u) (base : Word) (vs : List Word) :
    Touched true s (u.storeMultiple base vs).reached := by
  unfold State.storeMultiple
  split
  · exact h
  · exact touched_cutShort h (touched_storeWords vs _ h) fun _ _ g => touched_storeWords _ _ g

theorem touched_quadDrawn {b : Bool} {s u : State} (h : Touched b s u) (rx : Reg) :
    Touched b s (u.quadDrawn rx) := by
  unfold State.quadDrawn
  split
  · exact h.drawn 1
  · exact h

/-- The part of a multi-register transfer that an abandoned instruction makes (R83, R335). -/
theorem touched_partialTransfer (s : State) (i : Instr) (k : Nat) :
    Touched true s (s.partialTransfer i k).reached := by
  unfold State.partialTransfer
  split
  · exact touched_loadMultiple (.refl _ s) _ _
  · exact touched_storeMultiple (.refl _ s) _ _
  · exact touched_loadMultiple (.refl _ s) _ _
  · exact touched_storeMultiple (touched_quadDrawn (.refl _ s) _) _ _
  · exact .refl _ s

/-! ## How an instruction ends -/

/-- The ways an instruction ends in a next state. -/
inductive Ends (stores : Bool) (s : State) : State → Prop
  /-- the next instruction follows -/
  | advanced (u : State) : Touched stores s u → Ends stores s u.advance
  /-- a conditional change of flow is not taken -/
  | fell (u : State) : Touched stores s u → Ends stores s u.fallThrough
  /-- a change of flow is taken -/
  | jumped (u : State) (p : Word) : Touched stores s u →
    (s.pc.getLsbD 0 = false → p.getLsbD 0 = false) → Ends stores s (u.flowTo p)
  /-- `br` -/
  | branched (p : Word) : (s.pc.getLsbD 0 = false → p.getLsbD 0 = false) →
    Ends stores s { s.flowTo p with windows := Windows.closed }
  /-- an exception is raised -/
  | raised (u : State) (n : BitVec 7) (ret : Word) : Touched stores s u → Ends stores s (u.raise n ret)
  /-- a low-power state is entered -/
  | slept (m : LowPower) : s.supervisor = true → Ends stores s (s.fallAsleep m)
  /-- an exception is returned from -/
  | returned (shadow ret : Word) : s.supervisor = true → psrBitsOk shadow = true →
    traceModeOk shadow = true → Ends stores s (s.restored shadow ret)
  /-- a control register is written -/
  | wrote (v : Word) (c : CtrlReg) : s.supervisor = true → ctrlWriteRefusal v c = none →
    Ends stores s (s.advance.writeCtrl v c)

section

variable {b : Bool} {s t : State}

theorem ends_completeReg {i : Reg} {v : Word} (h : s.completeReg i v = .next t) : Ends b s t := by
  injection h with h
  exact h ▸ .advanced _ ((Touched.refl b s).setReg i v)

theorem ends_completeC {c : Bool} (h : s.completeC c = .next t) : Ends b s t := by
  injection h with h
  exact h ▸ .advanced _ ((Touched.refl b s).setC c)

theorem ends_completeRegC {i : Reg} {v : Word} {c : Bool} (h : s.completeRegC i v c = .next t) :
    Ends b s t := by
  injection h with h
  exact h ▸ .advanced _ (((Touched.refl b s).setReg i v).setC c)

theorem ends_completeRegIf {cond : Bool} {i : Reg} {v : Word}
    (h : s.completeRegIf cond i v = .next t) : Ends b s t := by
  unfold State.completeRegIf at h
  split at h
  · exact ends_completeReg h
  · injection h with h
    exact h ▸ .advanced _ (.refl b s)

theorem ends_raise {n : BitVec 7} {ret : Word}
    (h : Host.Outcome.next (φ := Fault) (ρ := Refusal) (s.raise n ret) = .next t) : Ends b s t := by
  injection h with h
  exact h ▸ .raised _ n ret (.refl b s)

theorem ends_divide {rx : Reg} {q : Word} {k : Nat} (h : s.divide rx q k = .next t) :
    Ends b s t := by
  unfold State.divide at h
  split at h
  · exact ends_raise h
  · injection h with h
    exact h ▸ .advanced _ ((((Touched.refl b s).setReg _ _).setC _).drawn _)

/-- An access sequence and then the completion `f` of one that is done. -/
theorem ends_finish {α : Type} {r : Access α} {f : α → State → State} (hr : Touched b s r.reached)
    (hf : ∀ x u, Touched b s u → Ends b s (f x u)) (h : r.finish f = .next t) : Ends b s t := by
  cases r with
  | done x u => injection h with h; exact h ▸ hf x u hr
  | raised n ret u => injection h with h; exact h ▸ .raised u n ret hr

theorem ends_advance (x : α) (u : State) (h : Touched b s u) :
    Ends b s ((fun (_ : α) (v : State) => v.advance) x u) := .advanced u h

theorem ends_loadReg {w : Width} {rz rx : Reg} {n : BitVec 4}
    (h : s.loadReg w rz rx n = .next t) : Ends b s t :=
  ends_finish (touched_loadData (.refl b s) _ _) (fun v _ hu => .advanced _ (hu.setReg rz v)) h

theorem ends_storeReg {w : Width} {rz rx : Reg} {n : BitVec 4}
    (h : s.storeReg w rz rx n = .next t) : Ends true s t :=
  ends_finish (touched_storeData (.refl true s) _ _ _) ends_advance h

theorem ends_privileged {run : Result} (h : s.privileged run = .next t)
    (hr : s.supervisor = true → run = .next t → Ends b s t) : Ends b s t := by
  unfold State.privileged at h
  split at h
  · exact hr ‹_› h
  · exact ends_raise h

theorem ends_returnThrough {shadow ret : Word}
    (h : s.privileged (s.returnThrough shadow ret) = .next t) : Ends b s t := by
  refine ends_privileged h fun hs h => ?_
  unfold State.returnThrough at h
  split at h
  · cases h
  · rename_i hb
    split at h
    · cases h
    · rename_i ht
      injection h with h
      exact h ▸ .returned shadow ret hs (by simpa using hb) (by simpa using ht)

/-- An even displacement keeps an even address even. -/
theorem even_add (p d : Word) (hd : d.getLsbD 0 = false) (hp : p.getLsbD 0 = false) :
    (p + 2#32 + d).getLsbD 0 = false := by
  have h0 : ∀ x : Word, x.getLsbD 0 = decide (x.toNat % 2 = 1) := by
    intro x; simp [BitVec.getLsbD, Nat.testBit_zero]
  rw [h0] at hd hp ⊢
  have h1 : ¬ d.toNat % 2 = 1 := by simpa using hd
  have h2 : ¬ p.toNat % 2 = 1 := by simpa using hp
  have : ¬ (p + 2#32 + d).toNat % 2 = 1 := by
    rw [BitVec.toNat_add, BitVec.toNat_add]; simp only [BitVec.toNat_ofNat]; omega
  simpa using this

theorem even_branchTarget (d : BitVec 11) (h : s.pc.getLsbD 0 = false) :
    (s.branchTarget d).getLsbD 0 = false := even_add _ _ (by simp) h

theorem even_loopTarget (d : BitVec 4) (h : s.pc.getLsbD 0 = false) :
    (s.loopTarget d).getLsbD 0 = false := even_add _ _ (by simp) h

theorem even_evenAddr (a : Word) : (evenAddr a).getLsbD 0 = false := by
  simp [evenAddr]

theorem ends_branchIf {u : State} {cond : Bool} {p : Word} (hu : Touched b s u)
    (hp : s.pc.getLsbD 0 = false → p.getLsbD 0 = false) : Ends b s (u.branchIf cond p) := by
  unfold State.branchIf
  split
  · exact .jumped u p hu hp
  · exact .fell u hu

end

/-- Everything an instruction can answer with a next state. -/
theorem exec_ends (i : Instr) (s t : State) (h : exec i s = .next t) : Ends (storesMemory i) s t := by
  cases i
  case divs rx =>
    change execDivs rx s = _ at h
    unfold execDivs at h
    split at h <;> exact ends_divide h
  case divu rx => exact ends_divide h
  case ldW => exact ends_loadReg h
  case ldB => exact ends_loadReg h
  case ldH => exact ends_loadReg h
  case stW => exact ends_storeReg h
  case stB => exact ends_storeReg h
  case stH => exact ends_storeReg h
  case ldm rf =>
    change execLdm rf s = _ at h
    unfold execLdm at h
    split at h
    · exact ends_finish (touched_loadMultiple (.refl _ s) _ _) ends_advance h
    · cases h
  case stm rf =>
    change execStm rf s = _ at h
    unfold execStm at h
    split at h
    · exact ends_finish (touched_storeMultiple (.refl _ s) _ _) ends_advance h
    · cases h
  case ldq rx =>
    change execLdq rx s = _ at h
    unfold execLdq at h
    split at h
    · cases h
    · exact ends_finish (touched_loadMultiple (.refl _ s) _ _) ends_advance h
  case stq rx =>
    exact ends_finish (touched_storeMultiple (touched_quadDrawn (.refl _ s) rx) _ _) ends_advance h
  case lrw rz d =>
    exact ends_finish (touched_readLiteral (.refl _ s) d) (fun v _ hu => .advanced _ (hu.setReg rz v)) h
  case br d => injection h with h; exact h ▸ .branched _ (even_branchTarget d)
  case bt d => injection h with h; exact h ▸ ends_branchIf (.refl _ s) (even_branchTarget d)
  case bf d => injection h with h; exact h ▸ ends_branchIf (.refl _ s) (even_branchTarget d)
  case bsr d =>
    injection h with h
    exact h ▸ .jumped _ _ ((Touched.refl _ s).setReg _ _) (even_branchTarget d)
  case jmp rx => injection h with h; exact h ▸ .jumped _ _ (.refl _ s) (fun _ => even_evenAddr _)
  case jsr rx =>
    change execJsr rx s = _ at h
    unfold execJsr at h
    split at h
    · cases h
    · injection h with h
      exact h ▸ .jumped _ _ ((Touched.refl _ s).setReg _ _) (fun _ => even_evenAddr _)
  case jmpi d =>
    change execJmpi d s = _ at h
    have hr := touched_readLiteral (.refl (storesMemory (.jmpi d)) s) d
    unfold execJmpi at h
    split at h
    · rename_i e; rw [e] at hr; injection h with h; exact h ▸ .raised _ _ _ hr
    · rename_i e
      rw [e] at hr
      split at h
      · injection h with h; exact h ▸ .raised _ _ _ hr
      · rename_i hv
        injection h with h
        exact h ▸ .jumped _ _ hr (fun _ => by simpa using hv)
  case jsri d =>
    change execJsri d s = _ at h
    have hr := touched_readLiteral (.refl (storesMemory (.jsri d)) s) d
    unfold execJsri at h
    split at h
    · rename_i e
      rw [e] at hr
      injection h with h
      exact h ▸ .raised _ _ _ ((hr.setReg _ _).drawn 1)
    · rename_i e
      rw [e] at hr
      split at h
      · injection h with h; exact h ▸ .raised _ _ _ ((hr.setReg _ _).drawn 1)
      · rename_i hv
        injection h with h
        exact h ▸ .jumped _ _ (hr.setReg _ _) (fun _ => by simpa using hv)
  case loopt ry d =>
    injection h with h
    exact h ▸ ends_branchIf (((Touched.refl _ s).setReg _ _).setC _) (even_loopTarget d)
  case bkpt => exact ends_raise h
  case trap => exact ends_raise h
  case rte => exact ends_returnThrough h
  case rfi => exact ends_returnThrough h
  case mfcr cr rx =>
    refine ends_privileged h fun _ h => ?_
    split at h
    · cases h
    · exact ends_completeReg h
  case mtcr cr rx =>
    refine ends_privileged h fun hs h => ?_
    split at h
    · cases h
    · split at h
      · cases h
      · rename_i hc
        injection h with h
        exact h ▸ .wrote _ _ hs hc
  case stop => exact ends_privileged h fun hs h => by injection h with h; exact h ▸ .slept _ hs
  case wait => exact ends_privileged h fun hs h => by injection h with h; exact h ▸ .slept _ hs
  case doze => exact ends_privileged h fun hs h => by injection h with h; exact h ▸ .slept _ hs
  case sync => injection h with h; exact h ▸ .advanced _ (.refl _ s)
  case hai uu x =>
    change execHai uu x s = _ at h
    unfold execHai at h
    split at h
    · cases h
    · exact ends_raise h
  all_goals first
    | exact ends_completeReg h
    | exact ends_completeC h
    | exact ends_completeRegC h
    | exact ends_completeRegIf h

end Sys2Proof.Machine
end

