-- ==== Sys2Proof/Laws/Step.lean ====
section
/-! SUPPORT. What a step comes down to in each situation of R363, and what sampling the inputs and deciding
the windows leaves alone. -/

namespace Sys2Proof.Machine

/-! ## Windows and inputs -/

/-- Deciding a window gives up some of its oldest values. -/
theorem settleWindow_suffix {α : Type} (older : List α) (n : Nat) :
    (settleWindow older n).1 <:+ older := by
  induction older generalizing n with
  | nil => exact List.suffix_refl _
  | cons x rest ih =>
    unfold settleWindow
    split
    · exact (ih _).trans (List.suffix_cons ..)
    · exact List.suffix_refl _

/-- Deciding the windows touches nothing but the windows and the count of free values. -/
theorem State.settle_eq (s : State) :
    s.settle = { s with windows := s.settle.windows, free := s.settle.free } := rfl

/-- Sampling touches nothing but the inputs. -/
theorem State.sample_eq (s : State) :
    s.sample = { s with inputs := s.sample.inputs, upcoming := s.sample.upcoming } := by
  unfold State.sample
  split <;> rfl

/-- What acting at a recognition point leaves alone. -/
theorem State.now_eq (s : State) :
    s.now =
      { s with
        inputs := s.now.inputs, upcoming := s.now.upcoming, windows := s.now.windows
        free := s.now.free } := by
  unfold State.now State.sample
  split <;> rfl

theorem State.settle_closed (s : State) (h : s.windows = Windows.closed) : s.settle = s := by
  have e : s.settle.windows = s.windows := by rw [h]; unfold State.settle; rw [h]; rfl
  have f : s.settle.free = s.free := by unfold State.settle; rw [h]; rfl
  rw [State.settle_eq, e, f]

theorem State.sample_quiet (s : State) (h : s.upcoming = []) : s.sample = s := by
  unfold State.sample; rw [h]

/-! ## The step -/

/-- At an instruction boundary. -/
theorem step_boundary (s : State) (h : AtBoundary s.now) : step s = s.now.boundary := by
  obtain ⟨ha, hr, hs, hl⟩ := h
  have ha' : s.sample.activity = .running := ha
  have hr' : s.sample.inputs.hardReset = none := hr
  have hs' : s.sample.inputs.srst = false := hs
  have hl' : s.sample.softResetSeen = false := hl
  simp [step, State.sampledStep, State.coreStep, ha', hr', hs', hl', State.now]

/-- In a low-power state. -/
theorem step_asleep (s : State) (m : LowPower) (ha : s.now.activity = .asleep m)
    (hr : s.now.inputs.hardReset = none) (hs : s.now.inputs.srst = false)
    (hl : s.now.softResetSeen = false) : step s = s.now.sleepStep := by
  have ha' : s.sample.activity = .asleep m := ha
  have hr' : s.sample.inputs.hardReset = none := hr
  have hs' : s.sample.inputs.srst = false := hs
  have hl' : s.sample.softResetSeen = false := hl
  simp [step, State.sampledStep, State.coreStep, ha', hr', hs', hl', State.now]

/-- At a boundary where nothing stands between. -/
theorem State.boundary_undisturbed (s : State) (h : Undisturbed s) : s.boundary = s.executeNext := by
  obtain ⟨-, ⟨hb, hf⟩, ha, ht⟩ := h
  simp [State.boundary, hb, hf, ha, ht]

/-- What an accepted request comes to in a low-power state: the breakpoint due at the next instruction, if one
is, else the interrupt (R293, R363). The entry itself leaves the low-power state. -/
theorem State.sleepStep_accepted (s : State) (n : BitVec 7) (fast : Bool)
    (h : s.accepted s.inputs = some (n, fast)) :
    s.sleepStep =
      if s.brkPending || s.brkReq s.pc .half .fetch then
        .next (s.enter vecBreakpoint s.pc false s.tracePending)
      else .next (s.enter n s.pc fast s.tracePending) := by
  have ha : s.awake.accepted s.awake.inputs = some (n, fast) := h
  simp only [State.sleepStep, h, State.boundary, ha]
  rfl

/-- The word a fetch gives: the one in memory where memory answers, else a free one (R74, R87). -/
def State.fetchedWord (s : State) : Half := (s.busRead .half s.pc true).setWidth 16

theorem State.fetchedWord_memory (s : State) (h : (s.answer s.pc true).reads = true) :
    s.fetchedWord = s.wordAtPc := by
  rw [State.fetchedWord, s.busRead_memory _ _ _ h, State.wordAtPc, Memory.read]
  exact BitVec.setWidth_setWidth_of_le _ (by decide) |>.trans (by simp)

/-- Where the fetch is made, the decoder sees the word it gives. -/
theorem State.executeNext_made (s : State) (h : FetchMade s) :
    s.executeNext =
      match decode s.fetchedWord with
      | .error _ => .next (s.afterFetch.raise vecIllegal s.pc)
      | .ok i => s.afterFetch.execOrAbandon i := by
  obtain ⟨hb, hs⟩ := h
  have e : (s.busRead .half s.pc true).extractLsb' 8 8 ++ (s.busRead .half s.pc true).extractLsb' 0 8 =
      s.fetchedWord := by
    unfold State.fetchedWord
    ext i hi
    simp only [BitVec.getElem_append, BitVec.getElem_extractLsb', BitVec.getElem_setWidth]
    split
    · simp
    · congr 1; omega
  simp only [State.executeNext, hb, hs, State.fetchBytes, decodeBytes, e]
  cases decode s.fetchedWord <;> rfl

/-- Where memory answers the fetch, the decoder sees the word at PC. -/
theorem State.executeNext_fetchable (s : State) (h : Fetchable s) :
    s.executeNext =
      match decode s.wordAtPc with
      | .error _ => .next (s.raise vecIllegal s.pc)
      | .ok i => s.execOrAbandon i := by
  obtain ⟨hm, ha⟩ := h
  rw [s.executeNext_made hm, s.fetchedWord_memory ha, State.afterFetch, s.afterRead_memory _ _ ha]

/-- Everything a step can answer with a next state (R363), one case for each kind of event. -/
theorem sampledStep_next (s t : State) (h : s.sampledStep = .next t) :
    (∃ cells, s.inputs.hardReset = some cells ∧ t = s.hardReset cells) ∨
    (s.activity = .stuck ∧ t = s) ∨
    t = { s with softResetSeen := true } ∨ t = s.softReset ∨
    ((∃ m, s.activity = .asleep m) ∧ s.settle.sleepStep = .next t) ∨
    (s.activity = .running ∧ s.settle.boundary = .next t) := by
  unfold State.sampledStep at h
  split at h
  · rename_i cells hr
    injection h with h
    exact .inl ⟨cells, hr, h.symm⟩
  · split at h
    · rename_i ha
      injection h with h
      exact .inr (.inl ⟨ha, h.symm⟩)
    · rename_i hn
      split at h
      · injection h with h
        exact .inr (.inr (.inl h.symm))
      · split at h
        · injection h with h
          exact .inr (.inr (.inr (.inl h.symm)))
        · unfold State.coreStep at h
          split at h
          · rename_i ha
            exact absurd ha hn
          · rename_i m ha
            exact .inr (.inr (.inr (.inr (.inl ⟨⟨m, ha⟩, h⟩))))
          · rename_i ha
            exact .inr (.inr (.inr (.inr (.inr ⟨ha, h⟩))))

/-- What a boundary can answer with a next state: an exception taken in place of the instruction, an
abandoned instruction, or an executed one; in the last two nothing was pending. -/
theorem State.boundary_next (s t : State) (h : s.boundary = .next t) :
    (∃ n fast tp, ∃ u : State, u = { s with free := u.free } ∧ t = u.enter n s.pc fast tp) ∨
    (s.brkPending = false ∧ s.tracePending = false ∧
      ((∃ i e, ∃ u : State, u = { s with free := u.free } ∧ t = u.abandon i e) ∨
        ∃ i u, u = { s with free := u.free } ∧ exec i u = .next t)) := by
  unfold State.boundary at h
  split at h
  · injection h with h
    exact .inl ⟨_, _, _, s, rfl, h.symm⟩
  · rename_i hb
    have hb : s.brkPending = false := by
      cases hp : s.brkPending
      · rfl
      · exact absurd (by rw [hp]; rfl) hb
    split at h
    · injection h with h
      exact .inl ⟨_, _, _, s, rfl, h.symm⟩
    · split at h
      · injection h with h
        exact .inl ⟨_, _, _, s, rfl, h.symm⟩
      · rename_i htp
        have htp : s.tracePending = false := by simpa using htp
        unfold State.executeNext at h
        split at h
        · injection h with h
          exact .inl ⟨_, _, _, s, rfl, h.symm⟩
        · split at h
          · cases h
          · split at h
            · injection h with h
              exact .inl ⟨_, _, _, s.afterFetch, rfl, h.symm⟩
            · rename_i i _ _
              unfold State.execOrAbandon at h
              split at h
              · exact .inr ⟨hb, htp, .inr ⟨i, s.afterFetch, rfl, h⟩⟩
              · rename_i e _
                split at h
                · injection h with h
                  exact .inr ⟨hb, htp, .inl ⟨i, e, s.afterFetch.drawn 1, rfl, h.symm⟩⟩
                · exact .inr ⟨hb, htp, .inr ⟨i, s.afterFetch.drawn 1, rfl, h⟩⟩

end Sys2Proof.Machine
end

