-- ==== Sys2Proof/Tests/Slice0.lean ====
section
/-! SUPPORT. Tests: the well-formedness checks, a word of every constructor, one step of every
instruction on the vectors of `95_test_vectors.md` (V, M, F and E numbers), and a state that meets the
hypotheses of each obligation (the `witness_` theorems). -/

namespace Sys2Proof.Machine

/-! ## WellFormed: each check refuses an ill-formed term -/

theorem test_wf_rejects_shift_count_zero :
    [Instr.rotli 0 3, .asri 0 3, .lsli 0 3, .lsri 0 3].all (fun i => !i.wf) = true := by decide

theorem test_wf_rejects_bmaski_1_to_7 :
    [Instr.bmaski 1 3, .bmaski 2 3, .bmaski 7 3].all (fun i => !i.wf) = true := by decide

theorem test_wf_rejects_bgeni_0_to_6 :
    [Instr.bgeni 0 3, .bgeni 1 3, .bgeni 6 3].all (fun i => !i.wf) = true := by decide

theorem test_wf_rejects_lrw_r0_and_r15 :
    [Instr.lrw 0 3, .lrw 15 3].all (fun i => !i.wf) = true := by decide

/-- The ends of the ranges that the checks accept; also the hypothesis of `DecodeInvertsEncode`. -/
theorem witness_DecodeInvertsEncode :
    [Instr.rotli 1 3, .asri 31 3, .lsli 1 3, .lsri 31 3, .bmaski 0 3, .bmaski 8 3, .bgeni 7 3, .lrw 1 3,
      .lrw 14 3, .hai 3 1023, .bsr 0x7FF].all Instr.wf = true := by decide

/-! ## Decode: a word of every constructor, from the encoding column of the opcode table -/

/-- Each word decodes to its instruction, by itself and in memory order, and is the word of it. -/
def reads (rows : List (Half × Instr)) : Bool :=
  rows.all (fun r =>
    decide (decode r.1 = .ok r.2) && encode r.2 == r.1 && decodeTableWord 16 r.1.toNat == some r.2)

theorem test_decode_system_and_monadic :
    reads
      [(0b0000000000000000#16, .bkpt), (0b0000000000000001#16, .sync), (0b0000000000000010#16, .rte),
        (0b0000000000000011#16, .rfi), (0b0000000000000100#16, .stop), (0b0000000000000101#16, .wait),
        (0b0000000000000110#16, .doze), (0b0000000000001010#16, .trap 2),
        (0b0000000000101011#16, .mvc 11), (0b0000000000111011#16, .mvcv 11),
        (0b0000000001001011#16, .ldq 11), (0b0000000001011011#16, .stq 11),
        (0b0000000001101101#16, .ldm 13), (0b0000000001111101#16, .stm 13),
        (0b0000000010001011#16, .dect 11), (0b0000000010011011#16, .decf 11),
        (0b0000000010101011#16, .inct 11), (0b0000000010111011#16, .incf 11),
        (0b0000000011001011#16, .jmp 11), (0b0000000011011011#16, .jsr 11),
        (0b0000000011101011#16, .ff1 11), (0b0000000011111011#16, .brev 11),
        (0b0000000100001011#16, .xtrb3 11), (0b0000000100011011#16, .xtrb2 11),
        (0b0000000100101011#16, .xtrb1 11), (0b0000000100111011#16, .xtrb0 11),
        (0b0000000101001011#16, .zextb 11), (0b0000000101011011#16, .sextb 11),
        (0b0000000101101011#16, .zexth 11), (0b0000000101111011#16, .sexth 11),
        (0b0000000110001011#16, .declt 11), (0b0000000110011011#16, .tstnbz 11),
        (0b0000000110101011#16, .decgt 11), (0b0000000110111011#16, .decne 11),
        (0b0000000111001011#16, .clrt 11), (0b0000000111011011#16, .clrf 11),
        (0b0000000111101011#16, .abs 11), (0b0000000111111011#16, .not 11)] = true := by decide

theorem test_decode_dyadic :
    reads
      [(0b0000001001101011#16, .movt 6 11), (0b0000001101101011#16, .mult 6 11),
        (0b0000010001101010#16, .loopt 6 10), (0b0000010101101011#16, .subu 6 11),
        (0b0000011001101011#16, .addc 6 11), (0b0000011101101011#16, .subc 6 11),
        (0b0000101001101011#16, .movf 6 11), (0b0000101101101011#16, .lsr 6 11),
        (0b0000110001101011#16, .cmphs 6 11), (0b0000110101101011#16, .cmplt 6 11),
        (0b0000111001101011#16, .tst 6 11), (0b0000111101101011#16, .cmpne 6 11),
        (0b0001000101011011#16, .mfcr 21 11), (0b0001001001101011#16, .mov 6 11),
        (0b0001001101101011#16, .bgenr 6 11), (0b0001010001101011#16, .rsub 6 11),
        (0b0001010101101011#16, .ixw 6 11), (0b0001011001101011#16, .and 6 11),
        (0b0001011101101011#16, .xor 6 11), (0b0001100101011011#16, .mtcr 21 11),
        (0b0001101001101011#16, .asr 6 11), (0b0001101101101011#16, .lsl 6 11),
        (0b0001110001101011#16, .addu 6 11), (0b0001110101101011#16, .ixh 6 11),
        (0b0001111001101011#16, .or 6 11), (0b0001111101101011#16, .andn 6 11)] = true := by decide

theorem test_decode_immediate :
    reads
      [(0b0010000110011011#16, .addi 25 11), (0b0010001110011011#16, .cmplti 25 11),
        (0b0010010110011011#16, .subi 25 11), (0b0010100110011011#16, .rsubi 25 11),
        (0b0010101110011011#16, .cmpnei 25 11), (0b0010110110011011#16, .bmaski 25 11),
        (0b0010110000011011#16, .divu 11), (0b0010111110011011#16, .andi 25 11),
        (0b0011000110011011#16, .bclri 25 11), (0b0011001110011011#16, .bgeni 25 11),
        (0b0011001000011011#16, .divs 11), (0b0011010110011011#16, .bseti 25 11),
        (0b0011011110011011#16, .btsti 25 11), (0b0011100110011011#16, .rotli 25 11),
        (0b0011100000001011#16, .xsr 11), (0b0011101110011011#16, .asri 25 11),
        (0b0011101000001011#16, .asrc 11), (0b0011110110011011#16, .lsli 25 11),
        (0b0011110000001011#16, .lslc 11), (0b0011111110011011#16, .lsri 25 11),
        (0b0011111000001011#16, .lsrc 11)] = true := by decide

theorem test_decode_memory_and_flow :
    reads
      [(0b0100101001110101#16, .hai 2 629), (0b0110010100111011#16, .movi 83 11),
        (0b0111100110110010#16, .lrw 9 178), (0b0111000010110010#16, .jmpi 178),
        (0b0111111110110010#16, .jsri 178), (0b1000100101101011#16, .ldW 9 6 11),
        (0b1001100101101011#16, .stW 9 6 11), (0b1010100101101011#16, .ldB 9 6 11),
        (0b1011100101101011#16, .stB 9 6 11), (0b1100100101101011#16, .ldH 9 6 11),
        (0b1101100101101011#16, .stH 9 6 11), (0b1110010011010111#16, .bt 1239),
        (0b1110110011010111#16, .bf 1239), (0b1111010011010111#16, .br 1239),
        (0b1111110011010111#16, .bsr 1239)] = true := by decide

/-- Decode vectors of the spec where encodings share a slot (K12 to K17, K20 to K23, K28 to K30). -/
theorem test_decode_shared_encodings :
    reads
      [(0x2C00#16, .bmaski 0 0), (0x2C1F#16, .divu 15), (0x2C80#16, .bmaski 8 0), (0x321F#16, .divs 15),
        (0x3270#16, .bgeni 7 0), (0x3800#16, .xsr 0), (0x3810#16, .rotli 1 0), (0x3A00#16, .asrc 0),
        (0x3A10#16, .asri 1 0), (0x3C00#16, .lslc 0), (0x3C10#16, .lsli 1 0), (0x3E00#16, .lsrc 0),
        (0x3E10#16, .lsri 1 0), (0x70FF#16, .jmpi 255), (0x7EFF#16, .lrw 14 255), (0x7FFF#16, .jsri 255)] =
      true := by decide

/-- The first and the last word of each slot of R122 decode to no instruction. -/
theorem test_decode_reserved_slots :
    [0x0007, 0x000C, 0x001F, 0x0800, 0x09FF, 0x2600, 0x27FF, 0x2C20, 0x2C7F, 0x3200, 0x320F, 0x3220, 0x326F,
      0x5000, 0x5FFF, 0x6800, 0x6FFF].all (fun w => (decodeTableWord 16 w).isNone) = true := by decide

theorem witness_EncodeInvertsDecode : decode 0x7101#16 = .ok (.lrw 1 1) := by decide

/-! ## One step on the vectors of the spec -/

/-- The state before most vectors: PSR = 0x80000100, PC = 0x100. -/
def at0 : State := { State.reset with pc := 0x100, psr := Psr.ofWord 0x80000100#32 }

/-- One step with the word stored at PC. -/
def run1 (s : State) (w : Nat) : Option State :=
  match step (s.withFetchWord 16 w) with
  | .next t => some t
  | _ => none

/-- A register after one step. -/
def regAfter (s : State) (w : Nat) (r : Reg) : Option Word := (run1 s w).map (fun t => t.reg r)

/-- A register and C after one step. -/
def regCAfter (s : State) (w : Nat) (r : Reg) : Option (Word × Bool) :=
  (run1 s w).map (fun t => (t.reg r, t.psr.c))

/-- PC after one step. -/
def pcAfter (s : State) (w : Nat) : Option Word := (run1 s w).map (fun t => t.pc)

/-- A word of memory after one step. -/
def wordAfter (s : State) (w : Nat) (a : Word) : Option Word :=
  (run1 s w).map (fun t => t.mem.read .word a)

/-- The state with a word in memory. -/
def State.poke (s : State) (a v : Word) : State := { s with mem := s.mem.write .word a v }

/-- What an exception leaves: PC, PSR without its C bit, EPSR, EPC. -/
def entryAfter (s : State) (w : Nat) : Option (Word × Word × Word × Word) :=
  (run1 s w).map (fun t => (t.pc, { t.psr with c := false }.toWord, t.epsr, t.epc))

/-- PC and register after one step. -/
def pcRegAfter (s : State) (w : Nat) (r : Reg) : Option (Word × Word) :=
  (run1 s w).map (fun t => (t.pc, t.reg r))

theorem test_addc_v2 :
    regCAfter (((at0.setReg 2 0xFFFFFFFF#32).setReg 3 0x00000000#32).setC true) 0x0632 2 =
      some (0x00000000#32, true) := by decide

theorem test_addc_v4 :
    regCAfter ((at0.setReg 4 0x80000000#32).setC true) 0x0644 4 =
      some (0x00000001#32, true) := by decide

theorem test_addi_v5 :
    regCAfter ((at0.setReg 5 0xFFFFFFF0#32).setC true) 0x21F5 5 =
      some (0x00000010#32, true) := by decide

theorem test_addi_v6 :
    regCAfter (at0.setReg 1 0xFFFFFFFF#32) 0x2001 1 = some (0x00000000#32, false) := by decide

theorem test_addu_v7 :
    regCAfter (((at0.setReg 1 0x80000000#32).setReg 2 0x80000000#32).setC true) 0x1C21 1 =
      some (0x00000000#32, true) := by decide

theorem test_subu_v8 :
    regCAfter ((at0.setReg 3 0x00000000#32).setReg 4 0x00000001#32) 0x0543 3 =
      some (0xFFFFFFFF#32, false) := by decide

theorem test_subc_v11 :
    regCAfter (((at0.setReg 2 0x00000003#32).setReg 3 0x00000005#32).setC true) 0x0732 2 =
      some (0xFFFFFFFE#32, false) := by decide

theorem test_subc_v14 :
    regCAfter ((at0.setReg 2 0x00000000#32).setReg 3 0xFFFFFFFF#32) 0x0732 2 =
      some (0x00000000#32, false) := by decide

theorem test_rsub_v15 :
    regCAfter ((at0.setReg 1 0x00000001#32).setReg 2 0x0000000A#32) 0x1421 1 =
      some (0x00000009#32, false) := by decide

theorem test_subi_v16 :
    regCAfter (at0.setReg 0 0x00000000#32) 0x2470 0 = some (0xFFFFFFF8#32, false) := by decide

theorem test_rsubi_v17 :
    regCAfter (at0.setReg 4 0x00000001#32) 0x2804 4 = some (0xFFFFFFFF#32, false) := by decide

theorem test_rsubi_v18 :
    regCAfter (at0.setReg 4 0x80000000#32) 0x29F4 4 = some (0x8000001F#32, false) := by decide

theorem test_abs_v19 :
    regCAfter (at0.setReg 7 0xFFFFFFFB#32) 0x01E7 7 = some (0x00000005#32, false) := by decide

theorem test_abs_v20 :
    regCAfter (at0.setReg 7 0x80000000#32) 0x01E7 7 = some (0x80000000#32, false) := by decide

theorem test_mult_v21 :
    regCAfter ((at0.setReg 1 0xFFFFFFFF#32).setReg 2 0xFFFFFFFF#32) 0x0321 1 =
      some (0x00000001#32, false) := by decide

theorem test_mult_v23 :
    regCAfter ((at0.setReg 1 0x12345678#32).setReg 2 0x9ABCDEF0#32) 0x0321 1 =
      some (0x242D2080#32, false) := by decide

theorem test_divs_v24 :
    regAfter ((at0.setReg 2 0xFFFFFFF9#32).setReg 1 0x00000002#32) 0x3212 2 =
      some 0xFFFFFFFD#32 := by decide

theorem test_divs_v25 :
    regAfter ((at0.setReg 2 0x00000007#32).setReg 1 0xFFFFFFFE#32) 0x3212 2 =
      some 0xFFFFFFFD#32 := by decide

theorem test_divu_v27 :
    regAfter ((at0.setReg 2 0xFFFFFFF9#32).setReg 1 0x00000002#32) 0x2C12 2 =
      some 0x7FFFFFFC#32 := by decide

theorem test_divu_v28 :
    regAfter ((at0.setReg 2 0x80000000#32).setReg 1 0xFFFFFFFF#32) 0x2C12 2 =
      some 0x00000000#32 := by decide

theorem test_ixh_v30 :
    regCAfter ((at0.setReg 1 0x00000100#32).setReg 2 0x80000001#32) 0x1D21 1 =
      some (0x00000102#32, false) := by decide

theorem test_ixw_v31 :
    regCAfter ((at0.setReg 1 0x00000100#32).setReg 2 0xC0000003#32) 0x1521 1 =
      some (0x0000010C#32, false) := by decide

theorem test_incf_v32 :
    regCAfter (at0.setReg 3 0xFFFFFFFF#32) 0x00B3 3 = some (0x00000000#32, false) := by decide

theorem test_incf_v33 :
    regCAfter ((at0.setReg 3 0xFFFFFFFF#32).setC true) 0x00B3 3 =
      some (0xFFFFFFFF#32, true) := by decide

theorem test_inct_v34 :
    regCAfter ((at0.setReg 3 0x00000007#32).setC true) 0x00A3 3 =
      some (0x00000008#32, true) := by decide

theorem test_decf_v35 :
    regCAfter (at0.setReg 3 0x00000000#32) 0x0093 3 = some (0xFFFFFFFF#32, false) := by decide

theorem test_dect_v36 :
    regCAfter (at0.setReg 3 0x00000000#32) 0x0083 3 = some (0x00000000#32, false) := by decide

theorem test_decgt_v38 :
    regCAfter ((at0.setReg 1 0x00000001#32).setC true) 0x01A1 1 =
      some (0x00000000#32, false) := by decide

theorem test_decgt_v40 :
    regCAfter (at0.setReg 1 0x80000000#32) 0x01A1 1 = some (0x7FFFFFFF#32, true) := by decide

theorem test_declt_v41 :
    regCAfter (at0.setReg 1 0x00000000#32) 0x0181 1 = some (0xFFFFFFFF#32, true) := by decide

theorem test_declt_v42 :
    regCAfter ((at0.setReg 1 0x80000000#32).setC true) 0x0181 1 =
      some (0x7FFFFFFF#32, false) := by decide

theorem test_decne_v43 :
    regCAfter ((at0.setReg 1 0x00000001#32).setC true) 0x01B1 1 =
      some (0x00000000#32, false) := by decide

theorem test_decne_v44 :
    regCAfter (at0.setReg 1 0x00000000#32) 0x01B1 1 = some (0xFFFFFFFF#32, true) := by decide

theorem test_and_v45 :
    regCAfter ((at0.setReg 1 0xFF00FF00#32).setReg 2 0x0FF00FF0#32) 0x1621 1 =
      some (0x0F000F00#32, false) := by decide

theorem test_andi_v46 :
    regCAfter (at0.setReg 3 0x12345678#32) 0x2EF3 3 = some (0x00000008#32, false) := by decide

theorem test_andi_v47 :
    regCAfter (at0.setReg 3 0xFFFFFFFF#32) 0x2FF3 3 = some (0x0000001F#32, false) := by decide

theorem test_andn_v48 :
    regCAfter ((at0.setReg 1 0xFFFFFFFF#32).setReg 2 0x0000FFFF#32) 0x1F21 1 =
      some (0xFFFF0000#32, false) := by decide

theorem test_or_v49 :
    regCAfter ((at0.setReg 1 0x000000F0#32).setReg 2 0x0000000F#32) 0x1E21 1 =
      some (0x000000FF#32, false) := by decide

theorem test_xor_v50 :
    regCAfter ((at0.setReg 1 0xAAAAAAAA#32).setReg 2 0xFFFFFFFF#32) 0x1721 1 =
      some (0x55555555#32, false) := by decide

theorem test_not_v51 :
    regCAfter (at0.setReg 4 0x00000000#32) 0x01F4 4 = some (0xFFFFFFFF#32, false) := by decide

theorem test_bclri_v52 :
    regCAfter (at0.setReg 2 0xFFFFFFFF#32) 0x31F2 2 = some (0x7FFFFFFF#32, false) := by decide

theorem test_bseti_v54 :
    regCAfter (at0.setReg 2 0x00000001#32) 0x35F2 2 = some (0x80000001#32, false) := by decide

theorem test_btsti_v55 :
    regCAfter (at0.setReg 2 0x80000000#32) 0x37F2 2 = some (0x80000000#32, true) := by decide

theorem test_btsti_v56 :
    regCAfter ((at0.setReg 2 0xFFFFFFFE#32).setC true) 0x3602 2 =
      some (0xFFFFFFFE#32, false) := by decide

theorem test_bgeni_v57 :
    regCAfter (at0.setReg 1 0xFFFFFFFF#32) 0x3271 1 = some (0x00000080#32, false) := by decide

theorem test_bgeni_v58 :
    regCAfter (at0.setReg 1 0x00000000#32) 0x33F1 1 = some (0x80000000#32, false) := by decide

theorem test_bgenr_v60 :
    regCAfter ((at0.setReg 1 0xFFFFFFFF#32).setReg 2 0x00000020#32) 0x1321 1 =
      some (0x00000000#32, false) := by decide

theorem test_bgenr_v62 :
    regCAfter ((at0.setReg 1 0x00000000#32).setReg 2 0xFFFFFFDF#32) 0x1321 1 =
      some (0x80000000#32, false) := by decide

theorem test_bmaski_v64 :
    regCAfter (at0.setReg 1 0x00000000#32) 0x2DF1 1 = some (0x7FFFFFFF#32, false) := by decide

theorem test_bmaski_v65 :
    regCAfter (at0.setReg 1 0x00000000#32) 0x2C01 1 = some (0xFFFFFFFF#32, false) := by decide

theorem test_brev_v66 :
    regCAfter (at0.setReg 1 0x12345678#32) 0x00F1 1 = some (0x1E6A2C48#32, false) := by decide +kernel

theorem test_ff1_v68 :
    regCAfter (at0.setReg 1 0x00010000#32) 0x00E1 1 = some (0x0000000F#32, false) := by decide

theorem test_ff1_v69 :
    regCAfter (at0.setReg 1 0x00000000#32) 0x00E1 1 = some (0x00000020#32, false) := by decide

theorem test_asr_v73 :
    regCAfter ((at0.setReg 1 0x80000000#32).setReg 2 0x0000003F#32) 0x1A21 1 =
      some (0xFFFFFFFF#32, false) := by decide

theorem test_asr_v76 :
    regCAfter (at0.setReg 1 0x80000004#32) 0x1A11 1 = some (0xF8000000#32, false) := by decide

theorem test_asrc_v77 :
    regCAfter (at0.setReg 3 0x80000001#32) 0x3A03 3 = some (0xC0000000#32, true) := by decide

theorem test_asri_v78 :
    regCAfter (at0.setReg 3 0xFFFFFF00#32) 0x3A43 3 = some (0xFFFFFFF0#32, false) := by decide

theorem test_asri_v79 :
    regCAfter (at0.setReg 3 0x7FFFFFFF#32) 0x3BF3 3 = some (0x00000000#32, false) := by decide

theorem test_lsl_v81 :
    regCAfter ((at0.setReg 1 0x00000001#32).setReg 2 0x00000020#32) 0x1B21 1 =
      some (0x00000000#32, false) := by decide

theorem test_lsl_v82 :
    regCAfter ((at0.setReg 1 0x00000001#32).setReg 2 0x00000040#32) 0x1B21 1 =
      some (0x00000001#32, false) := by decide

theorem test_lslc_v83 :
    regCAfter (at0.setReg 3 0x80000001#32) 0x3C03 3 = some (0x00000002#32, true) := by decide

theorem test_lsli_v84 :
    regCAfter (at0.setReg 3 0x00FF00FF#32) 0x3C83 3 = some (0xFF00FF00#32, false) := by decide

theorem test_lsr_v85 :
    regCAfter ((at0.setReg 1 0x80000000#32).setReg 2 0x0000001F#32) 0x0B21 1 =
      some (0x00000001#32, false) := by decide

theorem test_lsr_v86 :
    regCAfter ((at0.setReg 1 0x80000000#32).setReg 2 0x00000020#32) 0x0B21 1 =
      some (0x00000000#32, false) := by decide

theorem test_lsrc_v87 :
    regCAfter (at0.setReg 3 0x80000001#32) 0x3E03 3 = some (0x40000000#32, true) := by decide

theorem test_lsri_v88 :
    regCAfter (at0.setReg 3 0xFFFFFF00#32) 0x3E43 3 = some (0x0FFFFFF0#32, false) := by decide

theorem test_rotli_v89 :
    regCAfter (at0.setReg 3 0x12345678#32) 0x3883 3 = some (0x34567812#32, false) := by decide

theorem test_rotli_v90 :
    regCAfter (at0.setReg 3 0x00000001#32) 0x39F3 3 = some (0x80000000#32, false) := by decide

theorem test_xsr_v91 :
    regCAfter ((at0.setReg 3 0x00000003#32).setC true) 0x3803 3 =
      some (0x80000001#32, true) := by decide

theorem test_xsr_v92 :
    regCAfter (at0.setReg 3 0x00000002#32) 0x3803 3 = some (0x00000001#32, false) := by decide

theorem test_mov_v93 :
    regCAfter ((at0.setReg 1 0x00000001#32).setReg 2 0xCAFEBABE#32) 0x1221 1 =
      some (0xCAFEBABE#32, false) := by decide

theorem test_movf_v94 :
    regCAfter (((at0.setReg 1 0x00000001#32).setReg 2 0x00000002#32).setC true) 0x0A21 1 =
      some (0x00000001#32, true) := by decide

theorem test_movf_v95 :
    regCAfter ((at0.setReg 1 0x00000001#32).setReg 2 0x00000002#32) 0x0A21 1 =
      some (0x00000002#32, false) := by decide

theorem test_movt_v96 :
    regCAfter (((at0.setReg 1 0x00000001#32).setReg 2 0x00000002#32).setC true) 0x0221 1 =
      some (0x00000002#32, true) := by decide

theorem test_movi_v97 :
    regCAfter (at0.setReg 15 0x00000000#32) 0x67FF 15 = some (0x0000007F#32, false) := by decide

theorem test_movi_v98 :
    regCAfter (at0.setReg 1 0xFFFFFFFF#32) 0x6001 1 = some (0x00000000#32, false) := by decide

theorem test_clrf_v99 :
    regCAfter (at0.setReg 5 0x00000009#32) 0x01D5 5 = some (0x00000000#32, false) := by decide

theorem test_clrt_v100 :
    regCAfter (at0.setReg 5 0x00000009#32) 0x01C5 5 = some (0x00000009#32, false) := by decide

theorem test_mvc_v101 :
    regCAfter ((at0.setReg 1 0xFFFFFFFF#32).setC true) 0x0021 1 =
      some (0x00000001#32, true) := by decide

theorem test_mvcv_v102 :
    regCAfter ((at0.setReg 1 0xFFFFFFFF#32).setC true) 0x0031 1 =
      some (0x00000000#32, true) := by decide

theorem test_sextb_v103 :
    regCAfter (at0.setReg 1 0x12345680#32) 0x0151 1 = some (0xFFFFFF80#32, false) := by decide

theorem test_sexth_v104 :
    regCAfter (at0.setReg 1 0x12348000#32) 0x0171 1 = some (0xFFFF8000#32, false) := by decide

theorem test_zextb_v105 :
    regCAfter (at0.setReg 1 0x12345680#32) 0x0141 1 = some (0x00000080#32, false) := by decide

theorem test_zexth_v106 :
    regCAfter (at0.setReg 1 0x12348000#32) 0x0161 1 = some (0x00008000#32, false) := by decide

theorem test_xtrb0_v107 :
    regCAfter ((at0.setReg 1 0xFFFFFFFF#32).setReg 2 0xAB000000#32) 0x0132 1 =
      some (0x000000AB#32, true) := by decide

theorem test_xtrb1_v108 :
    regCAfter (((at0.setReg 1 0xFFFFFFFF#32).setReg 2 0xFF00FFFF#32).setC true) 0x0122 1 =
      some (0x00000000#32, false) := by decide

theorem test_xtrb2_v109 :
    regCAfter (at0.setReg 2 0x12345678#32) 0x0112 1 = some (0x00000056#32, true) := by decide

theorem test_xtrb3_v110 :
    regCAfter (at0.setReg 1 0x12345678#32) 0x0101 1 = some (0x00000078#32, true) := by decide

theorem test_cmphs_v111 :
    regCAfter ((at0.setReg 1 0x80000000#32).setReg 2 0x00000001#32) 0x0C21 1 =
      some (0x80000000#32, true) := by decide

theorem test_cmphs_v112 :
    regCAfter (((at0.setReg 1 0x00000003#32).setReg 2 0x00000005#32).setC true) 0x0C21 1 =
      some (0x00000003#32, false) := by decide

theorem test_cmplt_v113 :
    regCAfter ((at0.setReg 1 0x80000000#32).setReg 2 0x00000001#32) 0x0D21 1 =
      some (0x80000000#32, true) := by decide

theorem test_cmplt_v114 :
    regCAfter (((at0.setReg 1 0x7FFFFFFF#32).setReg 2 0x80000000#32).setC true) 0x0D21 1 =
      some (0x7FFFFFFF#32, false) := by decide

theorem test_cmplti_v116 :
    regCAfter ((at0.setReg 1 0x00000020#32).setC true) 0x23F1 1 =
      some (0x00000020#32, false) := by decide

theorem test_cmplti_v117 :
    regCAfter (at0.setReg 1 0xFFFFFFFF#32) 0x23F1 1 = some (0xFFFFFFFF#32, true) := by decide

theorem test_cmpne_v118 :
    regCAfter (((at0.setReg 1 0x00000005#32).setReg 2 0x00000005#32).setC true) 0x0F21 1 =
      some (0x00000005#32, false) := by decide

theorem test_cmpnei_v119 :
    regCAfter ((at0.setReg 1 0x0000001F#32).setC true) 0x2BF1 1 =
      some (0x0000001F#32, false) := by decide

theorem test_cmpnei_v120 :
    regCAfter (at0.setReg 1 0x00000100#32) 0x2A01 1 = some (0x00000100#32, true) := by decide

theorem test_tst_v121 :
    regCAfter (((at0.setReg 1 0x000000F0#32).setReg 2 0x0000000F#32).setC true) 0x0E21 1 =
      some (0x000000F0#32, false) := by decide

theorem test_tstnbz_v122 :
    regCAfter (at0.setReg 1 0x01010101#32) 0x0191 1 = some (0x01010101#32, true) := by decide

theorem test_tstnbz_v123 :
    regCAfter ((at0.setReg 1 0x41424300#32).setC true) 0x0191 1 =
      some (0x41424300#32, false) := by decide
/-! ### Memory access (M vectors) -/

/-- M[0x1008..] = 11 22 33 44 -/
def atData : State := at0.poke 0x1008 0x11223344

theorem test_ldw_m1 : regAfter (atData.setReg 3 0x1000) 0x8223 2 = some 0x11223344#32 := by decide

theorem test_ldw_m9_wraps :
    regAfter ((at0.poke 0x2C 0xCAFEF00D).setReg 3 0xFFFFFFF0#32) 0x82F3 2 = some 0xCAFEF00D#32 := by decide

theorem test_ldb_m2 : regAfter (atData.setReg 3 0x1008) 0xA233 2 = some 0x44#32 := by decide

theorem test_ldb_m3_zero_extends :
    regAfter ((at0.poke 0x1008 0x80223344#32).setReg 3 0x1008) 0xA203 2 = some 0x80#32 := by decide

/-- MM set: 0x100B loses its low bit. -/
theorem test_ldh_m6 :
    regAfter ({ atData with psr := Psr.ofWord 0x80000300#32 }.setReg 3 0x1009) 0xC213 2 =
      some 0x3344#32 := by decide

theorem test_ldh_m7_misaligned :
    entryAfter ((atData.poke 4 0x800).setReg 3 0x1009) 0xC213 =
      some (0x800#32, 0x80010000#32, 0x80000100#32, 0x100#32) := by decide

theorem test_stw_m10 :
    wordAfter ((at0.setReg 0 0x2000).setReg 2 0xDEADBEEF#32) 0x9200 0x2000 = some 0xDEADBEEF#32 := by decide

theorem test_stw_m13_misaligned :
    (run1 (((at0.poke 4 0x800).setReg 3 0x2002).setReg 2 0xDEADBEEF#32) 0x9203).map
      (fun t => (t.pc, t.epc, t.mem.read .word 0x2000, t.mem.read .word 0x2004)) =
      some (0x800#32, 0x100#32, 0#32, 0#32) := by decide

theorem test_stb_m11 :
    wordAfter ((at0.setReg 3 0x2000).setReg 2 0x12345678#32) 0xB213 0x2000 = some 0x00780000#32 := by decide

theorem test_sth_m12 :
    wordAfter ((at0.setReg 3 0x2000).setReg 2 0x12345678#32) 0xD223 0x2004 = some 0x56780000#32 := by decide

theorem test_ldm_m14 :
    (run1 (((at0.poke 0x3000 0xA).poke 0x3004 0xB).setReg 0 0x3000) 0x006E).map
      (fun t => (t.reg 14, t.reg 15, t.reg 0, t.reg 13)) = some (0xA#32, 0xB#32, 0x3000#32, 0#32) := by
  decide

theorem test_stm_m15 :
    (run1 ((((at0.setReg 0 0x3000).setReg 13 0x0D0D0D0D#32).setReg 14 0x0E0E0E0E#32).setReg 15
      0x0F0F0F0F#32) 0x007D).map
      (fun t => (t.mem.read .word 0x3000, t.mem.read .word 0x3004, t.mem.read .word 0x3008,
        t.mem.read .word 0x300C, t.reg 0)) =
      some (0x0D0D0D0D#32, 0x0E0E0E0E#32, 0x0F0F0F0F#32, 0#32, 0x3000#32) := by decide

theorem test_ldq_m16 :
    (run1 (((((at0.poke 0x3000 1).poke 0x3004 2).poke 0x3008 3).poke 0x300C 4).setReg 2 0x3000) 0x0042).map
      (fun t => (t.reg 4, t.reg 5, t.reg 6, t.reg 7, t.reg 2, t.reg 8)) =
      some (1#32, 2#32, 3#32, 4#32, 0x3000#32, 0#32) := by decide

theorem test_stq_m17 :
    (run1 (((((at0.setReg 0 0x3000).setReg 4 0x44444444#32).setReg 5 0x55555555#32).setReg 6
      0x66666666#32).setReg 7 0x77777777#32) 0x0050).map
      (fun t => (t.mem.read .word 0x3000, t.mem.read .word 0x3004, t.mem.read .word 0x3008,
        t.mem.read .word 0x300C)) =
      some (0x44444444#32, 0x55555555#32, 0x66666666#32, 0x77777777#32) := by decide

/-- X5: a base in R4 to R7: the word of the base is a free value, the other three are stored. -/
theorem test_stq_x5 :
    ((at0.setReg 4 0x44444444#32).setReg 7 0x77777777#32).quadValues 5 =
      [0x44444444#32, Config.freeWord 0, 0#32, 0x77777777#32] := by rfl

theorem test_lrw_m19 :
    regAfter { at0.poke 0x104 0x12345678 with pc := 0x102 } 0x7100 1 = some 0x12345678#32 := by decide

theorem test_lrw_m21 :
    regAfter { at0.poke 0x500 0xABCD0123#32 with pc := 0x102 } 0x71FF 1 = some 0xABCD0123#32 := by decide

/-! ### Flow of control (F vectors) -/

theorem test_br_f3 : pcAfter { at0 with pc := 0x1000 } 0xF400 = some 0x802#32 := by decide

theorem test_br_f4 : pcAfter { at0 with pc := 0x1000 } 0xF3FF = some 0x1800#32 := by decide

theorem test_bt_f5 : pcAfter { at0.setC true with pc := 0x200 } 0xE001 = some 0x204#32 := by decide

theorem test_bt_f6 : pcAfter { at0 with pc := 0x200 } 0xE001 = some 0x202#32 := by decide

theorem test_bf_f7 : pcAfter { at0 with pc := 0x200 } 0xEFFE = some 0x1FE#32 := by decide

theorem test_bf_f8 : pcAfter { at0.setC true with pc := 0x200 } 0xEFFE = some 0x202#32 := by decide

theorem test_bsr_f9 :
    pcRegAfter { at0 with pc := 0x300 } 0xF810 15 = some (0x322#32, 0x302#32) := by decide

theorem test_jmp_f10 : pcRegAfter (at0.setReg 15 0x403) 0x00CF 15 = some (0x402#32, 0x403#32) := by decide

theorem test_jsr_f12 : pcRegAfter (at0.setReg 2 0x2001) 0x00D2 15 = some (0x2000#32, 0x102#32) := by decide

theorem test_jsr_r15_x1 :
    step (at0.withFetchWord 16 0x00DF) = .refused .jsrLinkRegister := by rfl

theorem test_jmpi_f13 : pcAfter (at0.poke 0x104 0x4000) 0x7001 = some 0x4000#32 := by decide

theorem test_jmpi_f14_odd :
    entryAfter ((at0.poke 0x104 0x4001).poke 4 0x800) 0x7001 =
      some (0x800#32, 0x80010000#32, 0x80000100#32, 0x4001#32) := by decide

theorem test_jsri_f15 :
    pcRegAfter { at0.poke 0x108 0x4000 with pc := 0x102 } 0x7F01 15 = some (0x4000#32, 0x104#32) := by decide

/-- PC, the count and C after a `loopt`. -/
def loopAfter (s : State) (w : Nat) : Option (Word × Word × Bool) :=
  (run1 { s with pc := 0x110 } w).map (fun t => (t.pc, t.reg 3, t.psr.c))

theorem test_loopt_f17 :
    loopAfter ((at0.setC true).setReg 3 1) 0x043B = some (0x108#32, 0#32, false) := by decide

theorem test_loopt_f20 :
    loopAfter ((at0.setC true).setReg 3 0x80000000#32) 0x0430 = some (0xF2#32, 0x7FFFFFFF#32, true) := by
  decide

/-! ### System instructions and exceptions (E vectors) -/

theorem test_mfcr_e1 :
    regAfter { at0 with psr := Psr.ofWord 0x80000141#32 } 0x1001 1 = some 0x80000141#32 := by decide

theorem test_mfcr_e5_user :
    entryAfter { at0.poke 0x14 0x900 with psr := Psr.ofWord 0x100#32 } 0x1001 =
      some (0x900#32, 0x80050000#32, 0x100#32, 0x100#32) := by decide

theorem test_mtcr_e2 :
    (run1 (at0.setReg 7 0x12345678#32) 0x1817).map (fun t => t.vbrWord) = some 0x12345400#32 := by decide

theorem test_mtcr_e3 :
    (run1 (at0.setReg 2 0xA5A5A5A5#32) 0x1862).map (fun t => t.readCtrl (.ss 0)) =
      some 0xA5A5A5A5#32 := by decide

theorem test_rte_e6 :
    (run1 { at0 with epsr := 0x101, epc := 0x2000 } 0x0002).map (fun t => (t.psr.toWord, t.pc)) =
      some (0x101#32, 0x2000#32) := by decide

/-- TP in EPSR and an odd EPC: the trace is pending at 0x2000. -/
theorem test_rte_e7 :
    (run1 { at0 with epsr := 0x2101, epc := 0x2001 } 0x0002).map
      (fun t => (t.psr.toWord, t.pc, t.tracePending)) = some (0x101#32, 0x2000#32, true) := by decide

theorem test_rfi_e8 :
    (run1 { at0 with fpsr := 0x80000153#32, fpc := 0x3000, epc := 0x22 } 0x0003).map
      (fun t => (t.psr.toWord, t.pc, t.epc)) = some (0x80000153#32, 0x3000#32, 0x22#32) := by decide

theorem test_trap_e9 :
    entryAfter { at0.poke 0x40 0x701 with psr := Psr.ofWord 0x141#32 } 0x0008 =
      some (0x700#32, 0x80100002#32, 0x141#32, 0x100#32) := by decide

/-- EE clear: vector 8 instead of 19. -/
theorem test_trap_e10 :
    entryAfter { (at0.poke 0x20 0x880).poke 0x4C 0x700 with psr := Psr.ofWord 0x80000000#32 } 0x000B =
      some (0x880#32, 0x80080000#32, 0x80000000#32, 0x100#32) := by decide

theorem test_bkpt_e11 :
    entryAfter { at0.poke 0x1C 0x500 with psr := Psr.ofWord 0xC140#32 } 0x0000 =
      some (0x500#32, 0x80070000#32, 0xC140#32, 0x100#32) := by decide

theorem test_illegal_e13 :
    entryAfter (at0.poke 0x10 0x444) 0x5000 =
      some (0x444#32, 0x80040000#32, 0x80000100#32, 0x100#32) := by decide

theorem test_divu_e14_zero :
    (run1 ((at0.poke 0xC 0x300).setReg 2 5) 0x2C12).map (fun t => (t.pc, t.reg 2, t.epc)) =
      some (0x300#32, 5#32, 0x100#32) := by decide

/-- E15, first step: the trace is due at the next boundary. -/
theorem test_trace_e15_due :
    (run1 ({ at0 with psr := Psr.ofWord 0x80004140#32 }.setReg 1 1) 0x2001).map
      (fun t => (t.reg 1, t.pc, t.tracePending)) = some (2#32, 0x102#32, true) := by decide

/-- E15, second step: it is taken. -/
theorem test_trace_e15_taken :
    entryAfter { at0.poke 0x18 0x600 with
        pc := 0x102, psr := Psr.ofWord 0x80004140#32, tracePending := true } 0x2001 =
      some (0x600#32, 0x80060000#32, 0x80004140#32, 0x102#32) := by decide

/-- INT under AVEC, INT with a number, FINT under AVEC. -/
def withInt (s : State) (v : VectorSource) : State := { s with inputs := { Inputs.quiet with int := some v } }

def withFint (s : State) (v : VectorSource) : State :=
  { s with inputs := { Inputs.quiet with fint := some v } }

/-- E17: the interrupt wins over the trace, TP is saved. -/
theorem test_int_e17 :
    entryAfter (withInt { at0.poke 0x28 0xA00 with
        pc := 0x102, psr := Psr.ofWord 0x80004140#32, tracePending := true } .avec) 0x2001 =
      some (0xA00#32, 0x800A0000#32, 0x80006140#32, 0x102#32) := by decide

theorem test_int_e18_number :
    entryAfter (withInt { at0.poke 0x114 0x4500 with psr := Psr.ofWord 0x80000140#32 } (.number 0x45))
        0x2001 =
      some (0x4500#32, 0x80450000#32, 0x80000140#32, 0x100#32) := by decide

theorem test_int_e19_masked : pcAfter (withInt at0 .avec) 0x2001 = some 0x102#32 := by decide

theorem test_fint_e20 :
    (run1 (withFint { at0.poke 0x2C 0xB01 with
        psr := Psr.ofWord 0x80000050#32, epsr := 0x11, epc := 0x22 } .avec) 0x2001).map
      (fun t => (t.pc, { t.psr with c := false }.toWord, t.fpsr, t.fpc, t.epsr, t.epc)) =
      some (0xB00#32, 0x800B0002#32, 0x80000050#32, 0x100#32, 0x11#32, 0x22#32) := by decide

theorem test_hai_e21 :
    entryAfter (at0.poke 0x30 0xC00) 0x4000 =
      some (0xC00#32, 0x800C0000#32, 0x80000100#32, 0x100#32) := by decide

theorem test_hai_x8_enabled :
    step ({ at0 with psr := Psr.ofWord 0x88000100#32 }.withFetchWord 16 0x4C00) =
      .refused .acceleratorUnit := by rfl

/-- E22: hard reset with 00 00 01 01 at address 0. -/
theorem test_hard_reset_e22 :
    (run1 { at0 with inputs := { Inputs.quiet with hardReset := some [(2, 1#8), (3, 1#8)] } } 0).map
      (fun t => (t.pc, { t.psr with c := false }.toWord, t.vbr)) = some (0x100#32, 0x80000002#32, 0#22) := by
  decide

/-- E23: soft reset after the negation of SRST. -/
theorem test_soft_reset_e23 :
    (run1 { at0.poke 0x24 0x200 with softResetSeen := true, vbr := 5, fpc := 7 } 0).map
      (fun t => (t.pc, t.psr.s, t.psr.vec, t.psr.ee, t.vbr, t.fpc)) =
      some (0x200#32, true, 9#7, false, 0#22, 7#32) := by decide

theorem test_stop_sleeps :
    (run1 at0 0x0004).map (fun t => (t.activity, t.pc)) = some (.asleep .stop, 0x102#32) := by decide

theorem test_wait_sleeps :
    (run1 at0 0x0005).map (fun t => (t.activity, t.pc)) = some (.asleep .wait, 0x102#32) := by decide

theorem test_doze_sleeps :
    (run1 at0 0x0006).map (fun t => (t.activity, t.pc)) = some (.asleep .doze, 0x102#32) := by decide

theorem test_sync_advances : pcAfter at0 0x0001 = some 0x102#32 := by decide

theorem test_stale_fetch_refused :
    step { at0 with stale := [0x101] } = .refused .staleFetch := by rfl

/-- One step of memory after hard reset leaves it in canonical form. -/
theorem test_hard_reset_memory :
    Memory.ofCells [(5, 1#8), (2, 7#8), (5, 0#8), (4294967296, 3#8)] = [(2, 7#8)] := by decide

/-! ### The memory map and marked bus errors (no vector of the spec: R87, R318, R362, entry 38) -/

/-- `at0` with one kind of answer for data accesses to the words at 0x2000 to 0x20FF. -/
def mapped (a : Answer) : State :=
  { at0 with inputs := { Inputs.quiet with memMap := [⟨0x2000, 0x100, true, false, a⟩] } }

/-- A store to RAM, ROM, a device and nothing. -/
theorem test_store_only_in_ram :
    [Answer.ram, .rom, .device, .nothing].map (fun a =>
      wordAfter ((((mapped a).poke 0x20FC 1).setReg 0 0x20FC).setReg 2 5) 0x9200 0x20FC) =
      [some 5#32, some 1#32, some 1#32, some 1#32] := by decide

theorem test_load_from_rom :
    regAfter (((mapped .rom).poke 0x20FC 7).setReg 0 0x20FC) 0x8200 2 = some 7#32 := by decide

/-- What a byte read from a device gives is not said, but that it is a byte. -/
theorem test_load_from_device :
    regAfter (((mapped .device).poke 0x2000 7).setReg 0 0x2000) 0xA200 2 =
      some (Config.freeWord 0 &&& 0xFF#32) := by rfl

/-- The vector number that a load of R14 and R15 from 0 raises, with TEA on the second word and BRKREQ on the
word given. -/
def loadMultipleVector (marked : Nat) : Option (BitVec 7) :=
  match { at0 with inputs := { Inputs.quiet with
      busErrors := [⟨4, 4, .word, .read, true⟩]
      brkReqs := [⟨marked, 4, .word, .read⟩] } }.loadMultiple 0 [14, 15] with
  | .raised n _ _ => some n
  | .done _ _ => none

theorem test_bus_error_marked_is_breakpoint : loadMultipleVector 4 = some 7#7 := by decide

theorem test_bus_error_after_marked_is_access_error : loadMultipleVector 0 = some 2#7 := by decide

/-! ## Witnesses: states that meet the hypotheses of the obligations -/

/-- `at0` with one row in the table of bus errors. -/
def faultAt (base : Nat) (w : Width) (k : AccessKind) : State :=
  { at0 with inputs := { Inputs.quiet with busErrors := [⟨base, 4, w, k, true⟩] } }

/-- The same access is marked with BRKREQ too. -/
def markedFaultAt (base : Nat) (w : Width) (k : AccessKind) : State :=
  { at0 with inputs := { Inputs.quiet with
      busErrors := [⟨base, 4, w, k, true⟩], brkReqs := [⟨base, 4, w, k⟩] } }

/-- An access that TEA ends and BRKREQ marks, where vector 7 can be taken. -/
def endsMarked (a : Word) (w : Width) (k : AccessKind) : Prop :=
  (markedFaultAt a.toNat w k).dataAddr w a = some a ∧ (markedFaultAt a.toNat w k).busError a w k = true ∧
    (markedFaultAt a.toNat w k).brkReq a w k = true ∧ CanTake (markedFaultAt a.toNat w k) 7#7 false

theorem witness_DivideResults :
    (at0.setReg 1 1).reg r1 ≠ 0 ∧
    ¬ ((at0.setReg 1 1).reg 2 = 0x80000000#32 ∧ (at0.setReg 1 1).reg r1 = 0xFFFFFFFF#32) ∧
    ((at0.setReg 1 0xFFFFFFFF#32).setReg 2 0x80000000#32).reg r1 ≠ 0 ∧
    ((at0.setReg 1 0xFFFFFFFF#32).setReg 2 0x80000000#32).reg 2 = 0x80000000#32 ∧
    ((at0.setReg 1 0xFFFFFFFF#32).setReg 2 0x80000000#32).reg r1 = 0xFFFFFFFF#32 := by decide

theorem witness_DivideByZeroRaises : at0.reg r1 = 0 ∧ CanTake at0 3#7 false := ⟨rfl, rfl⟩

theorem witness_SingleBitResults :
    7 ≤ (7#5).toNat ∧ 7 ≤ (31#5).toNat ∧ ((0#5).toNat = 0 ∨ 8 ≤ (0#5).toNat) ∧
    ((8#5).toNat = 0 ∨ 8 ≤ (8#5).toNat) ∧ ((31#5).toNat = 0 ∨ 8 ≤ (31#5).toNat) := by decide

theorem witness_ShiftResults : 1 ≤ (1#5).toNat ∧ 1 ≤ (31#5).toNat := by decide

theorem witness_ArithmeticShiftResults : 1 ≤ (1#5).toNat ∧ 1 ≤ (31#5).toNat := witness_ShiftResults

theorem witness_AlignmentOfDataAccesses_addresses :
    (0x1008#32).toNat % Width.word.bytes = 0 ∧ (0x1009#32).toNat % Width.half.bytes ≠ 0 ∧
    (0x100B#32).toNat % Width.word.bytes ≠ 0 ∧ at0.psr.mm = false ∧
    { at0 with psr := Psr.ofWord 0x80000300#32 }.psr.mm = true := by decide

theorem witness_AlignmentOfDataAccesses_transfers :
    CanTake (at0.setReg 0 0x1001) 1#7 false ∧
    (at0.setReg 0 0x1001).dataAddr .word ((at0.setReg 0 0x1001).reg r0) = none ∧
    CanTake (at0.setReg 3 0x1002) 1#7 false ∧
    (at0.setReg 3 0x1002).dataAddr .word ((at0.setReg 3 0x1002).reg 3) = none ∧
    ¬ (4 ≤ (3#4).toNat ∧ (3#4).toNat ≤ 7) ∧
    (at0.setReg 8 0x1003).dataAddr .word ((at0.setReg 8 0x1003).reg 8) = none ∧
    (at0.setReg 4 0x1003).dataAddr .word ((at0.setReg 4 0x1003).reg 4) = none := by
  refine ⟨rfl, rfl, rfl, rfl, by decide, rfl, rfl⟩

/-- The access is done at 0x1008, is misaligned at 0x1009, ends in a bus error at 0x1008. -/
theorem witness_LoadResults :
    at0.dataAddr .half 0x1008 = some 0x1008 ∧ at0.busError 0x1008 .half .read = false ∧
    at0.dataAddr .half 0x1009 = none ∧ CanTake at0 1#7 false ∧
    (faultAt 0x1008 .half .read).busError 0x1008 .half .read = true ∧
    (faultAt 0x1008 .half .read).brkReq 0x1008 .half .read = false ∧
    CanTake (faultAt 0x1008 .half .read) 2#7 false ∧ endsMarked 0x1008 .half .read :=
  ⟨rfl, rfl, rfl, rfl, rfl, rfl, rfl, rfl, rfl, rfl, rfl⟩

theorem witness_StoreResults :
    at0.dataAddr .word 0x1008 = some 0x1008 ∧ at0.busError 0x1008 .word .write = false ∧
    at0.dataAddr .word 0x100A = none ∧ CanTake at0 1#7 false ∧
    (faultAt 0x1008 .word .write).busError 0x1008 .word .write = true ∧
    (faultAt 0x1008 .word .write).brkReq 0x1008 .word .write = false ∧
    CanTake (faultAt 0x1008 .word .write) 2#7 false ∧ endsMarked 0x1008 .word .write :=
  ⟨rfl, rfl, rfl, rfl, rfl, rfl, rfl, rfl, rfl, rfl, rfl⟩

theorem witness_LoadMultipleResults :
    1 ≤ (1#4).toNat ∧ (14#4).toNat ≤ 14 ∧ at0.dataAddr .word (at0.reg r0) = some 0 ∧
    (∀ k < 15, at0.busError (0 + BitVec.ofNat 32 (4 * k)) .word .read = false) ∧
    ¬ (4 ≤ (3#4).toNat ∧ (3#4).toNat ≤ 7) ∧ ¬ (4 ≤ (8#4).toNat ∧ (8#4).toNat ≤ 7) ∧
    at0.dataAddr .word (at0.reg 8) = some 0 :=
  ⟨by decide, by decide, rfl, fun _ _ => rfl, by decide, by decide, rfl⟩

theorem witness_StoreMultipleResults :
    1 ≤ (1#4).toNat ∧ (14#4).toNat ≤ 14 ∧ at0.dataAddr .word (at0.reg r0) = some 0 ∧
    (∀ k < 15, at0.busError (0 + BitVec.ofNat 32 (4 * k)) .word .write = false) ∧
    at0.dataAddr .word (at0.reg 4) = some 0 ∧
    ¬ (((4#32) - 0).toNat < 16 ∧ ((4#32) - 0).toNat / 4 + 4 = (4#4).toNat) :=
  ⟨by decide, by decide, rfl, fun _ _ => rfl, rfl, by decide⟩

/-- Words 0 and 14 of a transfer at 0, word 3 of a quadrant at 0, read and written: one that ends in a bus
error, unmarked and marked. -/
theorem witness_FaultingTransfersMakeAPrefix :
    [(AccessKind.read, false), (.read, true), (.write, false), (.write, true)].all (fun (kind, marked) =>
      [0, 3, 14].all (fun k =>
        let s := { at0 with inputs := { Inputs.quiet with
          busErrors := [⟨4 * k, 4, .word, kind, true⟩]
          brkReqs := if marked then [⟨4 * k, 4, .word, kind⟩] else [] } }
        decide (s.dataAddr .word (s.reg r0) = some 0#32) && decide (s.dataAddr .word (s.reg 8) = some 0#32) &&
          (List.range k).all (fun j => !s.busError (0 + BitVec.ofNat 32 (4 * j)) .word kind) &&
          s.busError (0 + BitVec.ofNat 32 (4 * k)) .word kind &&
          s.brkReq (0 + BitVec.ofNat 32 (4 * k)) .word kind == marked)) = true ∧
    1 ≤ (1#4).toNat ∧ (1#4).toNat ≤ 14 ∧ 14 < 16 - (1#4).toNat ∧ 3 < 4 ∧
    ¬ (4 ≤ (8#4).toNat ∧ (8#4).toNat ≤ 7) ∧ CanTake (faultAt 0 .word .read) 2#7 false ∧
    CanTake (faultAt 56 .word .write) 7#7 false :=
  ⟨by decide, by decide, by decide, by decide, by decide, by decide, rfl, rfl⟩

/-- The literal of `lrw rz, 1` at 0x100 is at 0x104. -/
theorem witness_LoadRelativeWordResults :
    1 ≤ (1#4).toNat ∧ (14#4).toNat ≤ 14 ∧
    (at0.pc + 2 + 4 * (1#8).setWidth 32) &&& 0xFFFFFFFC#32 = 0x104#32 ∧
    at0.busError 0x104 .word .read = false ∧
    (faultAt 0x104 .word .read).busError 0x104 .word .read = true ∧
    (faultAt 0x104 .word .read).brkReq 0x104 .word .read = false ∧
    CanTake (faultAt 0x104 .word .read) 2#7 false ∧ endsMarked 0x104 .word .read :=
  ⟨by decide, by decide, by decide, rfl, rfl, rfl, rfl, rfl, rfl, rfl, rfl⟩

theorem witness_BranchResults : (at0.setC true).psr.c = true ∧ at0.psr.c = false := by decide

theorem witness_LoopResults : (at0.setC true).psr.c = true ∧ at0.psr.c = false := witness_BranchResults

theorem witness_RegisterJumpResults : (14#4 : Reg) ≠ 15#4 ∧ (0#4 : Reg) ≠ 15#4 := by decide

/-- An even and an odd literal, and a bus error on its read. -/
theorem witness_IndirectJumpResults :
    (at0.poke 0x104 0x4000).busError 0x104 .word .read = false ∧
    ((at0.poke 0x104 0x4000).busRead .word 0x104 Config.literalIsProgram).getLsbD 0 = false ∧
    ((at0.poke 0x104 0x4001).busRead .word 0x104 Config.literalIsProgram).getLsbD 0 = true ∧
    CanTake (at0.poke 0x104 0x4001) 1#7 false ∧
    (faultAt 0x104 .word .read).busError 0x104 .word .read = true ∧
    (faultAt 0x104 .word .read).brkReq 0x104 .word .read = false ∧
    CanTake (faultAt 0x104 .word .read) 2#7 false ∧ endsMarked 0x104 .word .read :=
  ⟨rfl, rfl, rfl, rfl, rfl, rfl, rfl, rfl, rfl, rfl, rfl⟩

/-- A state in user mode. -/
def atUser : State := { at0 with psr := Psr.ofWord 0x100#32 }

theorem witness_PrivilegedInstructionsRaiseInUserMode :
    atUser.supervisor = false ∧ CanTake atUser 5#7 false := ⟨rfl, rfl⟩

theorem witness_MoveFromControlRegisterResults : at0.supervisor = true := by decide

theorem witness_LowPowerEntry : at0.supervisor = true := by decide

theorem witness_MoveToControlRegisterResults :
    at0.supervisor = true ∧ psrBitsOk ((at0.setReg 1 0x80002141#32).reg 1) = true := by decide

theorem witness_MoveToPsrOpensWindows :
    (at0.setReg 1 0x8000C141#32).supervisor = true ∧
    psrBitsOk ((at0.setReg 1 0x8000C141#32).reg 1) = true ∧
    traceModeOk ((at0.setReg 1 0x8000C141#32).reg 1) = true := by decide

theorem witness_FormsWithoutMeaningStop :
    (0#4).toNat = 0 ∧ (15#4).toNat = 15 ∧ 4 ≤ (4#4).toNat ∧ (7#4).toNat ≤ 7 ∧ at0.supervisor = true ∧
    13 ≤ (13#5).toNat ∧ 13 ≤ (31#5).toNat ∧
    [0x10000000#32, 0x20000000#32, 0x40000000#32, 0x00800000#32, 0x800#32, 0x20#32, 8#32, 4#32].all
      (fun v => !psrBitsOk v) = true ∧
    psrBitsOk 0x80008000#32 = true ∧ traceModeOk 0x80008000#32 = false := by decide

theorem witness_ReturnFromExceptionRestores :
    { at0 with epsr := 0x2101, fpsr := 0x80000153#32 }.supervisor = true ∧
    psrBitsOk 0x2101#32 = true ∧ traceModeOk 0x2101#32 = true ∧ psrBitsOk 0x80000153#32 = true ∧
    traceModeOk 0x80000153#32 = true := by decide

theorem witness_SoftwareExceptionsRaise :
    CanTake at0 7#7 false ∧ CanTake at0 (BitVec.ofNat 7 (16 + (0#2).toNat)) false ∧
    CanTake at0 (BitVec.ofNat 7 (16 + (3#2).toNat)) false := ⟨rfl, rfl, rfl⟩

theorem witness_AcceleratorOpcodes :
    at0.psr.toWord.getLsbD (24 + (0#2).toNat) = false ∧ CanTake at0 12#7 false ∧
    (Psr.ofWord 0x88000100#32).toWord.getLsbD (24 + (3#2).toNat) = true := ⟨rfl, rfl, rfl⟩

/-- With EE set and clear, normal and fast. -/
theorem witness_ExceptionEntryState :
    CanTake at0 127#7 false ∧ CanTake at0 11#7 true ∧
    CanTake { at0 with psr := Psr.reset } 10#7 false ∧
    vectorFor { at0 with psr := Psr.reset } 10#7 false = 8#7 ∧
    vectorFor { at0 with psr := Psr.reset } 11#7 true = 11#7 := ⟨rfl, rfl, rfl, rfl, rfl⟩

/-- A bus error on the read of vector 10 alone, of vector 8 alone, and of the whole table. -/
theorem witness_VectorFetchFaults :
    ¬ VectorReadable (faultAt 40 .word .vector) 10#7 ∧ (10#7 : BitVec 7) ≠ 8#7 ∧
    VectorReadable (faultAt 40 .word .vector) 8#7 ∧
    ¬ VectorReadable (faultAt 32 .word .vector) 8#7 ∧
    ¬ VectorReadable { at0 with inputs := { Inputs.quiet with
        busErrors := [⟨0, 512, .word, .vector, true⟩] } } 10#7 ∧
    ¬ VectorReadable { at0 with inputs := { Inputs.quiet with
        busErrors := [⟨0, 512, .word, .vector, true⟩] } } 8#7 := by
  refine ⟨?_, by decide, rfl, ?_, ?_, ?_⟩ <;> (unfold VectorReadable; decide)

/-- `addi r1,1` at 0x100. -/
def atAddi : State := at0.withFetchWord 16 0x2001

theorem atAddi_undisturbed : Undisturbed atAddi.now :=
  ⟨⟨rfl, rfl, rfl, rfl⟩, ⟨rfl, rfl⟩, rfl, rfl⟩

theorem witness_StepRunsTheDecodedInstruction :
    Undisturbed atAddi.now ∧ Fetchable atAddi.now ∧
    decode atAddi.now.wordAtPc = .ok (.addi 0 1) ∧ atAddi.now.midEvent (.addi 0 1) = none ∧
    atAddi.upcoming = [] ∧ atAddi.windows = Windows.closed :=
  ⟨atAddi_undisturbed, ⟨⟨rfl, rfl⟩, rfl⟩, by decide, rfl, rfl, rfl⟩

/-- The inputs with a device in the words at 0 to 0x1FF, whoever accesses them. -/
def deviceLow : Inputs :=
  { Inputs.quiet with
    memMap := [⟨0, 0x200, true, true, .device⟩, ⟨0, 0x200, true, false, .device⟩] }

/-- A device answers the fetch. -/
theorem witness_StepRunsTheDecodedInstruction_device :
    Undisturbed { at0 with inputs := deviceLow }.now ∧ FetchMade { at0 with inputs := deviceLow }.now ∧
    ({ at0 with inputs := deviceLow }.now.answer { at0 with inputs := deviceLow }.now.pc true).reads =
      false :=
  ⟨⟨⟨rfl, rfl, rfl, rfl⟩, ⟨rfl, rfl⟩, rfl, rfl⟩, ⟨rfl, rfl⟩, rfl⟩

theorem witness_FetchBusErrorRaises :
    Undisturbed (faultAt 0x100 .half .fetch).now ∧
    (faultAt 0x100 .half .fetch).now.busError (faultAt 0x100 .half .fetch).now.pc .half .fetch = true ∧
    CanTake (faultAt 0x100 .half .fetch).now 2#7 false :=
  ⟨⟨⟨rfl, rfl, rfl, rfl⟩, ⟨rfl, rfl⟩, rfl, rfl⟩, rfl, rfl⟩

/-- The word 0x5000 at PC; a stale first and a stale second byte. -/
theorem witness_ReservedAndStaleWords :
    Undisturbed (at0.withFetchWord 16 0x5000).now ∧ Fetchable (at0.withFetchWord 16 0x5000).now ∧
    reservedWord (at0.withFetchWord 16 0x5000).now.wordAtPc ∧
    CanTake (at0.withFetchWord 16 0x5000).now 4#7 false ∧
    Undisturbed { at0 with stale := [0x100] }.now ∧
    { at0 with stale := [0x100] }.now.busError { at0 with stale := [0x100] }.now.pc .half .fetch = false ∧
    { at0 with stale := [0x100] }.now.pc.toNat ∈ { at0 with stale := [0x100] }.now.stale ∧
    ({ at0 with stale := [0x101] }.now.pc + 1).toNat ∈ { at0 with stale := [0x101] }.now.stale := by
  refine ⟨⟨⟨rfl, rfl, rfl, rfl⟩, ⟨rfl, rfl⟩, rfl, rfl⟩, ⟨⟨rfl, rfl⟩, rfl⟩, ?_, rfl,
    ⟨⟨rfl, rfl, rfl, rfl⟩, ⟨rfl, rfl⟩, rfl, rfl⟩, rfl, by decide, by decide⟩
  unfold reservedWord
  decide

/-- Everything pending at once, everything enabled: the breakpoint comes first. -/
def atBreak : State :=
  { at0 with
    brkPending := true, tracePending := true, psr := Psr.ofWord 0x80000150#32
    inputs := { Inputs.quiet with int := some .avec, fint := some (.number 64) } }

theorem witness_BoundaryEventOrder :
    AtBoundary atBreak.now ∧ ¬ NoBreak atBreak.now ∧
    AtBoundary { atBreak with brkPending := false }.now ∧
    NoBreak { atBreak with brkPending := false }.now ∧
    { atBreak with brkPending := false }.now.inputs.fint = some (.number 64) ∧
    { atBreak with brkPending := false }.now.psr.fe = true ∧
    { atBreak with brkPending := false }.now.inputs.int = some .avec ∧
    { atBreak with brkPending := false }.now.psr.ie = true ∧
    { atBreak with brkPending := false }.now.shadowsFree = true ∧
    { at0 with tracePending := true }.now.inputs.fint = none ∧
    { at0 with tracePending := true }.now.inputs.int = none ∧
    { at0 with tracePending := true }.now.tracePending = true := by
  refine ⟨⟨rfl, rfl, rfl, rfl⟩, fun h => ?_, ⟨rfl, rfl, rfl, rfl⟩, ⟨rfl, rfl⟩, rfl, rfl, rfl, rfl, rfl, rfl,
    rfl, rfl⟩
  exact Bool.noConfusion h.1

/-- FE clear with FINT asserted: INT is what the boundary takes. -/
theorem witness_BoundaryEventOrder_int :
    { atBreak with brkPending := false, psr := Psr.ofWord 0x80000140#32 }.now.psr.fe = false ∧
    { atBreak with brkPending := false, psr := Psr.ofWord 0x80000140#32 }.now.inputs.int = some .avec ∧
    NoBreak { atBreak with brkPending := false, psr := Psr.ofWord 0x80000140#32 }.now :=
  ⟨rfl, rfl, rfl, rfl⟩

/-- A sleeping core, quiet. -/
def atSleep : State := { at0 with activity := .asleep .doze }

theorem witness_LowPowerSteps :
    atSleep.now.activity = .asleep .doze ∧ atSleep.now.inputs.hardReset = none ∧
    atSleep.now.inputs.srst = false ∧ atSleep.now.softResetSeen = false ∧
    atSleep.now.inputs.int = none ∧ atSleep.now.inputs.fint = none ∧
    atSleep.now.accepted atSleep.now.inputs = none ∧
    (withInt { atSleep with psr := Psr.ofWord 0x80000140#32 } .avec).now.accepted
      (withInt { atSleep with psr := Psr.ofWord 0x80000140#32 } .avec).now.inputs = some (10#7, false) ∧
    NoBreak (withInt { atSleep with psr := Psr.ofWord 0x80000140#32 } .avec).now ∧
    (withInt atSleep .avec).now.accepted (withInt atSleep .avec).now.inputs = none :=
  ⟨rfl, rfl, rfl, rfl, rfl, rfl, rfl, rfl, ⟨rfl, rfl⟩, rfl⟩

/-- A core asleep before 0x100 with INT accepted and BRKREQ on the fetch at 0x100. -/
def atSleepBreak : State :=
  { atSleep with
    psr := Psr.ofWord 0x80000140#32
    inputs := { Inputs.quiet with int := some .avec, brkReqs := [⟨0x100, 2, .half, .fetch⟩] } }

theorem witness_LowPowerSteps_break :
    atSleepBreak.now.activity = .asleep .doze ∧
    atSleepBreak.now.accepted atSleepBreak.now.inputs = some (10#7, false) ∧ ¬ NoBreak atSleepBreak.now :=
  ⟨rfl, rfl, fun h => Bool.noConfusion h.2⟩

/-- The breakpoint comes before the interrupt that ends the sleep (R360). -/
theorem test_wake_takes_breakpoint_first :
    (run1 atSleepBreak 0x2001).map (fun t => (t.psr.vec, t.epc, t.activity)) =
      some (7#7, 0x100#32, .running) := by decide

/-- A divide at 0x100 with IC, IE and EE set, INT arriving while it runs. -/
def atDivide : State :=
  { at0.withFetchWord 16 0x2C12 with
    psr := Psr.ofWord 0x800001C0#32
    upcoming := [Inputs.quiet, { Inputs.quiet with int := some .avec }] }

theorem witness_AbandonedArithmeticRestarts :
    Undisturbed atDivide.now ∧ Fetchable atDivide.now ∧ decode atDivide.now.wordAtPc = .ok (.divu 2) ∧
    atDivide.now.psr.ic = true ∧
    atDivide.now.accepted atDivide.now.nextInputs = some (10#7, false) ∧
    CanTake atDivide.now 10#7 false :=
  ⟨⟨⟨rfl, rfl, rfl, rfl⟩, ⟨rfl, rfl⟩, rfl, rfl⟩, ⟨⟨rfl, rfl⟩, rfl⟩, by decide, rfl, rfl, rfl⟩

/-- A transfer at 0x100 with IC, IE and EE set, INT arriving while it runs. -/
def atTransfer (w : Nat) : State := { atDivide with mem := (at0.withFetchWord 16 w).mem }

/-- The same with SRST arriving and IC clear. -/
def atTransferSrst (w : Nat) : State :=
  { atTransfer w with
    psr := Psr.ofWord 0x80000140#32
    upcoming := [Inputs.quiet, { Inputs.quiet with srst := true }] }

/-- `ldm r14-r15,(r0)`, `stm r14-r15,(r0)`, `ldq r4-r7,(r2)`, `stq r4-r7,(r9)`. -/
theorem witness_AbandonedTransfersMakeAPrefix :
    [(0x006E, Instr.ldm 14), (0x007E, .stm 14), (0x0042, .ldq 2), (0x0059, .stq 9)].all (fun (w, i) =>
      decide (decode (atTransfer w).now.wordAtPc = .ok i) && (atTransfer w).now.psr.ic &&
        !(atTransfer w).now.nextInputs.srst &&
        decide ((atTransfer w).now.accepted (atTransfer w).now.nextInputs = some (10#7, false)) &&
        decide (decode (atTransferSrst w).now.wordAtPc = .ok i) &&
        (atTransferSrst w).now.nextInputs.srst) = true ∧
    (∀ w, Undisturbed (atTransfer w).now ∧ Fetchable (atTransfer w).now) ∧
    (∀ w, Undisturbed (atTransferSrst w).now ∧ Fetchable (atTransferSrst w).now) ∧
    CanTake (atTransfer 0x006E).now 10#7 false ∧ CanTake (atTransfer 0x006E).now 7#7 false :=
  ⟨by decide, fun _ => ⟨⟨⟨rfl, rfl, rfl, rfl⟩, ⟨rfl, rfl⟩, rfl, rfl⟩, ⟨rfl, rfl⟩, rfl⟩,
    fun _ => ⟨⟨⟨rfl, rfl, rfl, rfl⟩, ⟨rfl, rfl⟩, rfl, rfl⟩, ⟨rfl, rfl⟩, rfl⟩, rfl, rfl⟩

/-- Hard reset arriving while the core is stuck. -/
def atHard : State :=
  { at0 with
    activity := .stuck, vbr := 9
    upcoming := [{ Inputs.quiet with hardReset := some [(2, 1#8), (3, 1#8)] }] }

theorem witness_HardResetState :
    atHard.now.inputs.hardReset = some [(2, 1#8), (3, 1#8)] ∧
    VectorReadable { atHard.now with vbr := 0, mem := Memory.ofCells [(2, 1#8), (3, 1#8)] } 0#7 :=
  ⟨rfl, rfl⟩

/-- Hard reset at hand, soft reset at hand, with TEA on the vector reads in `size` bytes from `base` on. -/
def hardFault (base size : Nat) : State :=
  { at0 with inputs := { Inputs.quiet with
      hardReset := some [], busErrors := [⟨base, size, .word, .vector, true⟩] } }

def softFault (base size : Nat) : State :=
  { at0 with
    softResetSeen := true
    inputs := { Inputs.quiet with busErrors := [⟨base, size, .word, .vector, true⟩] } }

/-- A bus error on the read of vector 0 alone, and of the whole table. -/
theorem witness_HardResetState_vector :
    (∀ b n, (hardFault b n).now.inputs.hardReset = some []) ∧
    ¬ VectorReadable { (hardFault 0 4).now with vbr := 0, mem := Memory.ofCells [] } 0#7 ∧
    VectorReadable { (hardFault 0 4).now with vbr := 0, mem := Memory.ofCells [] } 8#7 ∧
    ¬ VectorReadable { (hardFault 0 512).now with vbr := 0, mem := Memory.ofCells [] } 0#7 ∧
    ¬ VectorReadable { (hardFault 0 512).now with vbr := 0, mem := Memory.ofCells [] } 8#7 := by
  refine ⟨fun _ _ => rfl, ?_, rfl, ?_, ?_⟩ <;> (unfold VectorReadable; decide)

/-- A bus error on the read of vector 9 alone, and of the whole table. -/
theorem witness_SoftResetState_vector :
    (∀ b n, (softFault b n).now.inputs.hardReset = none ∧ (softFault b n).now.activity = .running ∧
      (softFault b n).now.inputs.srst = false ∧ (softFault b n).now.softResetSeen = true) ∧
    ¬ VectorReadable { (softFault 36 4).now with vbr := 0 } 9#7 ∧
    VectorReadable { (softFault 36 4).now with vbr := 0 } 8#7 ∧
    ¬ VectorReadable { (softFault 0 512).now with vbr := 0 } 9#7 ∧
    ¬ VectorReadable { (softFault 0 512).now with vbr := 0 } 8#7 := by
  refine ⟨fun _ _ => ⟨rfl, rfl, rfl, rfl⟩, ?_, rfl, ?_, ?_⟩ <;> (unfold VectorReadable; decide)

theorem witness_SoftResetState :
    { atSleep with inputs := { Inputs.quiet with srst := true } }.now.inputs.hardReset = none ∧
    { atSleep with inputs := { Inputs.quiet with srst := true } }.now.activity ≠ .stuck ∧
    { atSleep with inputs := { Inputs.quiet with srst := true } }.now.inputs.srst = true ∧
    { atSleep with softResetSeen := true }.now.inputs.srst = false ∧
    { atSleep with softResetSeen := true }.now.softResetSeen = true ∧
    VectorReadable { { atSleep with softResetSeen := true }.now with vbr := 0 } 9#7 :=
  ⟨rfl, by decide, rfl, rfl, rfl, rfl⟩

theorem atAddi_steps : step atAddi = .next ((atAddi.setReg 1 1).advance) := by rfl

theorem witness_EveryStepKeepsLegal :
    atAddi.Legal ∧ step atAddi = .next ((atAddi.setReg 1 1).advance) := by
  refine ⟨⟨rfl, by decide, rfl, by decide, ?_, rfl, rfl, .inl rfl⟩, atAddi_steps⟩
  rintro m ⟨⟩

theorem witness_UserModeKeepsControlState :
    atUser.supervisor = false ∧ exec .sync atUser = .next atUser.advance := ⟨rfl, rfl⟩

theorem witness_UnselectedFileIsUntouched :
    exec (.movi 5 1) at0 = .next (at0.setReg 1 5).advance ∧ at0.altFile = false := ⟨rfl, rfl⟩

theorem witness_OnlyStoresChangeMemory :
    storesMemory (.movi 5 1) = false ∧ exec (.movi 5 1) at0 = .next (at0.setReg 1 5).advance :=
  ⟨rfl, rfl⟩

end Sys2Proof.Machine
end

section
/-! The layout of the PSR word, the invariant of every step, and the state that no instruction changes: register
file out of effect, control state in user mode. -/

namespace Sys2Proof.Machine

/-! ## The PSR as a word (R32) -/

/-- What stands at bit `k` of the PSR word: a bit of a field, or zero for TP and the reserved bits, which have no
storage (R38, R48). -/
def Psr.bit (p : Psr) (k : Nat) : Bool :=
  if k = 31 then p.s
  else if k = 28 ∨ k = 29 then p.sp.getLsbD (k - 28)
  else if 24 ≤ k ∧ k ≤ 27 then p.u.getLsbD (k - 24)
  else if 16 ≤ k ∧ k ≤ 22 then p.vec.getLsbD (k - 16)
  else if k = 14 ∨ k = 15 then p.tm.getLsbD (k - 14)
  else if k = 12 then p.tc else if k = 10 then p.sc else if k = 9 then p.mm
  else if k = 8 then p.ee else if k = 7 then p.ic else if k = 6 then p.ie
  else if k = 4 then p.fe else if k = 1 then p.af else if k = 0 then p.c else false

theorem Psr.toWord_getLsbD (p : Psr) {k : Nat} (hk : k < 32) : p.toWord.getLsbD k = p.bit k := by
  simp only [Psr.toWord]
  simp only [BitVec.getLsbD_append]
  interval_cases k <;> simp [Psr.bit]

/-- A field of `w` bits is read back from where its bits stand. -/
theorem Psr.extract_toWord (p : Psr) {w : Nat} (start : Nat) (x : BitVec w) (hw : start + w ≤ 32)
    (hx : ∀ i < w, p.bit (start + i) = x.getLsbD i) : p.toWord.extractLsb' start w = x := by
  refine BitVec.eq_of_getLsbD_eq fun i hi => ?_
  rw [BitVec.getLsbD_extractLsb', p.toWord_getLsbD (by omega), hx i hi]
  simp [hi]

theorem Psr.ofWord_toWord (p : Psr) : Psr.ofWord p.toWord = p := by
  have hsp := p.extract_toWord 28 p.sp (by omega) (by intro i hi; interval_cases i <;> rfl)
  have hu := p.extract_toWord 24 p.u (by omega) (by intro i hi; interval_cases i <;> rfl)
  have hvec := p.extract_toWord 16 p.vec (by omega) (by intro i hi; interval_cases i <;> rfl)
  have htm := p.extract_toWord 14 p.tm (by omega) (by intro i hi; interval_cases i <;> rfl)
  rw [Psr.ofWord, hsp, hu, hvec, htm]
  simp only [Psr.toWord_getLsbD, Nat.reduceLT]
  rfl

theorem Psr.toWord_ofWord (w : Word) : (Psr.ofWord w).toWord = w &&& 0xBF7FD7D3#32 := by
  refine BitVec.eq_of_getLsbD_eq fun k hk => ?_
  rw [Psr.toWord_getLsbD _ hk]
  interval_cases k <;> simp [Psr.bit, Psr.ofWord]

/-- Settles O35: the layout bit by bit, and from it both inverse directions. -/
theorem psrWordLayout : Obligations.PsrWordLayout :=
  ⟨fun p _ hk => p.toWord_getLsbD hk, Psr.ofWord_toWord, Psr.toWord_ofWord⟩

/-! ## PSR images without SP and reserved bits (R34, R48) -/

theorem psrBitsOk_iff (w : Word) :
    psrBitsOk w = true ↔ ∀ k, psrZeroBits.getLsbD k = true → w.getLsbD k = false := by
  rw [psrBitsOk, beq_iff_eq]
  constructor
  · intro h k hk
    have := congrArg (BitVec.getLsbD · k) h
    simpa [BitVec.getLsbD_and, hk] using this
  · intro h
    refine BitVec.eq_of_getLsbD_eq fun k _ => ?_
    cases hk : psrZeroBits.getLsbD k
    · simp [hk]
    · simp [h k hk]

/-- The places of SP and of the reserved bits. -/
theorem psrZeroBits_getLsbD {k : Nat} (h : psrZeroBits.getLsbD k = true) :
    k = 2 ∨ k = 3 ∨ k = 5 ∨ k = 11 ∨ k = 23 ∨ k = 28 ∨ k = 29 ∨ k = 30 := by
  have hk : k < 32 := BitVec.lt_of_getLsbD h
  revert h
  interval_cases k <;> decide

theorem psrBitsOk_freePsrImage (n : Nat) : psrBitsOk (freePsrImage n) = true := by
  rw [psrBitsOk_iff]
  intro k hk
  simp [freePsrImage, hk]

/-- The shadow of a PSR with SP zero has SP and the reserved bits zero. -/
theorem psrBitsOk_toShadow {p : Psr} (tp : Bool) (h : p.sp = 0#2) : psrBitsOk (p.toShadow tp) = true := by
  rw [psrBitsOk_iff]
  intro k hk
  have hbit : p.bit k = false := by
    rcases psrZeroBits_getLsbD hk with rfl | rfl | rfl | rfl | rfl | rfl | rfl | rfl <;> simp [Psr.bit, h]
  have htp : (if tp then 0x00002000#32 else 0#32).getLsbD k = false := by
    rcases psrZeroBits_getLsbD hk with rfl | rfl | rfl | rfl | rfl | rfl | rfl | rfl <;> cases tp <;> rfl
  rw [Psr.toShadow, BitVec.getLsbD_or, p.toWord_getLsbD (BitVec.lt_of_getLsbD hk), hbit, htp, Bool.or_self]

theorem ofWord_sp {w : Word} (h : psrBitsOk w = true) : (Psr.ofWord w).sp = 0#2 := by
  rw [psrBitsOk_iff] at h
  refine BitVec.eq_of_getLsbD_eq fun i hi => ?_
  have hi' : w.getLsbD (28 + i) = false := h _ (by interval_cases i <;> rfl)
  simp [Psr.ofWord, BitVec.getLsbD_extractLsb', hi']

theorem ofWord_tm {w : Word} (h : traceModeOk w = true) : (Psr.ofWord w).tm ≠ 2#2 := by
  simpa [traceModeOk, Psr.ofWord] using h

/-! ## The invariant after a reset and after an exception entry -/

/-- Settles O56, on the one state of reset. -/
theorem resetStateIsLegal : Obligations.ResetStateIsLegal :=
  ⟨⟨rfl, State.reset_mem_wf, rfl, by decide, by simp [State.reset, Windows.closed], by decide, by decide,
    .inl rfl⟩, by decide, rfl, rfl, rfl, rfl, rfl⟩

theorem State.goToHandler_legal {s : State} (n : BitVec 7) (h : s.Legal) : (s.goToHandler n).Legal := by
  obtain ⟨-, hmem, hsp, htm, hw, he, hf, ha⟩ := h
  exact ⟨even_evenAddr _, hmem, hsp, htm, hw, he, hf, ha⟩

theorem State.unrecoverable_legal {s : State} (h : s.Legal) : s.unrecoverable.Legal := by
  obtain ⟨hpc, hmem, hsp, htm, hw, -, hf, ha⟩ := h
  exact ⟨hpc, hmem, hsp, htm, hw, psrBitsOk_freePsrImage _, hf, ha⟩

theorem State.getStuck_legal {s : State} (h : s.Legal) (ht : s.tracePending = false)
    (hb : s.brkPending = false) : s.getStuck.Legal := by
  obtain ⟨hpc, hmem, hsp, htm, hw, he, hf, -⟩ := h
  exact ⟨hpc, hmem, hsp, htm, hw, he, hf, .inr ⟨ht, hb⟩⟩

/-- A vector fetch keeps the invariant where nothing is pending, whatever bus errors it meets. -/
theorem State.vectorFetch_legal {s : State} (n : BitVec 7) (h : s.Legal) (ht : s.tracePending = false)
    (hb : s.brkPending = false) : (s.vectorFetch n).Legal := by
  rcases s.vectorFetch_cases n with e | e | e | e <;> rw [e]
  · exact State.goToHandler_legal n h
  · exact State.getStuck_legal h ht hb
  · exact State.getStuck_legal (State.unrecoverable_legal h) ht hb
  · exact State.goToHandler_legal _ (State.unrecoverable_legal h)

theorem State.saveContext_legal {s : State} (n : BitVec 7) (ret : Word) (fast tp : Bool) (h : s.Legal) :
    (s.saveContext n ret fast tp).Legal := by
  obtain ⟨hpc, hmem, hsp, -, -, he, hf, -⟩ := h
  have hshadow := psrBitsOk_toShadow tp hsp
  refine ⟨hpc, hmem, hsp, by simp, by simp [Windows.closed], ?_, ?_, .inl rfl⟩
  · cases fast
    · exact hshadow
    · exact he
  · cases fast
    · exact hf
    · exact hshadow

theorem State.enter_legal {s : State} (n : BitVec 7) (ret : Word) (fast tp : Bool) (h : s.Legal) :
    (s.enter n ret fast tp).Legal :=
  State.vectorFetch_legal _ (State.saveContext_legal _ ret fast tp h) rfl rfl

theorem State.hardReset_legal {s : State} (cells : List Host.Cell) (h : s.Legal) :
    (s.hardReset cells).Legal := by
  obtain ⟨hpc, -⟩ := h
  refine State.vectorFetch_legal _ ⟨hpc, Memory.ofCells_wf cells, rfl, ?_, ?_, ?_, ?_, .inl rfl⟩ rfl rfl
  · simp [Psr.reset]
  · simp [Windows.closed]
  · exact psrBitsOk_freePsrImage _
  · exact psrBitsOk_freePsrImage _

theorem State.softReset_legal {s : State} (h : s.Legal) : s.softReset.Legal := by
  obtain ⟨hpc, hmem, -, -, -, -, hf, -⟩ := h
  refine State.vectorFetch_legal _ ⟨hpc, hmem, rfl, by simp, ?_, ?_, hf, .inl rfl⟩ rfl rfl
  · simp [Windows.closed]
  · exact psrBitsOk_freePsrImage _

/-! ## The invariant after an instruction -/

/-- The next instruction's address is even where this one's is (R26). -/
theorem even_add_two {p : Word} (h : p.getLsbD 0 = false) : (p + 2).getLsbD 0 = false := by
  simpa using even_add p 0#32 rfl h

/-- What an instruction touches before it completes keeps the invariant of a running core. -/
theorem Touched.legal {b : Bool} {s u : State} (h : Touched b s u) (hs : s.Legal)
    (hrun : s.activity = .running) : u.Legal := by
  obtain ⟨hpc, hmem, hsp, htm, hw, he, hf, -⟩ := hs
  rw [h.rest]
  exact ⟨hpc, h.mem_wf hmem, hsp, htm, hw, he, hf, .inl hrun⟩

theorem Touched.activity {b : Bool} {s u : State} (h : Touched b s u) : u.activity = s.activity := by
  rw [h.rest]

/-- A running core keeps the invariant with any even PC, whatever is then pending or stale. -/
theorem State.Legal.running_at {s t : State} (h : s.Legal) (ht : t = { s with
    pc := t.pc, tracePending := t.tracePending, stale := t.stale }) (hpc : t.pc.getLsbD 0 = false)
    (hrun : s.activity = .running) : t.Legal := by
  obtain ⟨-, hmem, hsp, htm, hw, he, hf, -⟩ := h
  rw [ht]
  exact ⟨hpc, hmem, hsp, htm, hw, he, hf, .inl hrun⟩

theorem State.advance_legal {s : State} (h : s.Legal) (hrun : s.activity = .running) : s.advance.Legal :=
  h.running_at rfl (even_add_two h.1) hrun

theorem State.fallThrough_legal {s : State} (h : s.Legal) (hrun : s.activity = .running) :
    s.fallThrough.Legal :=
  h.running_at rfl (even_add_two h.1) hrun

theorem State.flowTo_legal {s : State} {p : Word} (h : s.Legal) (hrun : s.activity = .running)
    (hp : p.getLsbD 0 = false) : (s.flowTo p).Legal :=
  h.running_at rfl hp hrun

/-- A core falls asleep with nothing pending where no breakpoint is due. -/
theorem State.fallAsleep_legal {s : State} (m : LowPower) (h : s.Legal) (hb : s.brkPending = false) :
    (s.fallAsleep m).Legal := by
  obtain ⟨hpc, hmem, hsp, htm, hw, he, hf, -⟩ := h
  exact ⟨even_add_two hpc, hmem, hsp, htm, hw, he, hf, .inr ⟨rfl, hb⟩⟩

theorem State.restored_legal {s : State} {shadow : Word} (ret : Word) (h : s.Legal)
    (hrun : s.activity = .running) (hbits : psrBitsOk shadow = true) (hmode : traceModeOk shadow = true) :
    (s.restored shadow ret).Legal := by
  obtain ⟨-, hmem, -, -, -, he, hf, -⟩ := h
  exact ⟨even_evenAddr _, hmem, ofWord_sp hbits, ofWord_tm hmode, by simp [Windows.closed], he, hf, .inl hrun⟩

/-- The window of TM after a `mtcr` to CR0 holds the old TM and what it held before. -/
theorem State.writePsr_legal {s : State} {v : Word} (h : s.Legal) (hrun : s.activity = .running)
    (hbits : psrBitsOk v = true) (hmode : traceModeOk v = true) : (s.writePsr v).Legal := by
  obtain ⟨hpc, hmem, -, htm, hw, he, hf, -⟩ := h
  refine ⟨hpc, hmem, ofWord_sp hbits, ofWord_tm hmode, fun m hm => ?_, he, hf, .inl hrun⟩
  rw [State.writePsr_windows] at hm
  rw [pushOld_eq s.psr.tm, List.mem_append] at hm
  rcases hm with hm | hm
  · exact hw m hm
  · split at hm
    · cases hm
    · rw [List.mem_singleton.1 hm]; exact htm

theorem State.writeCtrl_legal {s : State} {v : Word} {c : CtrlReg} (h : s.Legal)
    (hrun : s.activity = .running) (hc : ctrlWriteRefusal v c = none) : (s.writeCtrl v c).Legal := by
  cases c
  case psr =>
    obtain ⟨hbits, hmode⟩ := (ctrlWriteRefusal_psr v).1 hc
    exact State.writePsr_legal h hrun hbits hmode
  case epsr =>
    obtain ⟨hpc, hmem, hsp, htm, hw, -, hf, ha⟩ := h
    exact ⟨hpc, hmem, hsp, htm, hw, by simpa [ctrlWriteRefusal, State.writeCtrl] using hc, hf, ha⟩
  case fpsr =>
    obtain ⟨hpc, hmem, hsp, htm, hw, he, -, ha⟩ := h
    exact ⟨hpc, hmem, hsp, htm, hw, he, by simpa [ctrlWriteRefusal, State.writeCtrl] using hc, ha⟩
  all_goals exact h

/-- However an instruction ends, a running core with no breakpoint due keeps the invariant. -/
theorem Ends.legal {b : Bool} {s t : State} (h : Ends b s t) (hs : s.Legal) (hrun : s.activity = .running)
    (hb : s.brkPending = false) : t.Legal := by
  cases h with
  | advanced u hu => exact State.advance_legal (hu.legal hs hrun) (hu.activity.trans hrun)
  | fell u hu => exact State.fallThrough_legal (hu.legal hs hrun) (hu.activity.trans hrun)
  | jumped u p hu hp => exact State.flowTo_legal (hu.legal hs hrun) (hu.activity.trans hrun) (hp hs.1)
  | branched p hp =>
    obtain ⟨hpc, hmem, hsp, htm, -, he, hf, ha⟩ := State.flowTo_legal hs hrun (hp hs.1)
    exact ⟨hpc, hmem, hsp, htm, by simp [Windows.closed], he, hf, ha⟩
  | raised u n ret hu => exact State.enter_legal n ret false false (hu.legal hs hrun)
  | slept m => exact State.fallAsleep_legal m hs hb
  | returned shadow ret _ hbits hmode => exact State.restored_legal ret hs hrun hbits hmode
  | wrote v c _ hc => exact State.writeCtrl_legal (State.advance_legal hs hrun) hrun hc

/-! ## The invariant after a step -/

theorem State.sample_legal {s : State} (h : s.Legal) : s.sample.Legal := by
  rw [s.sample_eq]
  exact h

/-- Deciding the windows gives up values and adds none. -/
theorem State.settle_legal {s : State} (h : s.Legal) : s.settle.Legal := by
  obtain ⟨hpc, hmem, hsp, htm, hw, he, hf, ha⟩ := h
  have hsub : s.settle.windows.tm ⊆ s.windows.tm := (settleWindow_suffix _ _).subset
  exact ⟨hpc, hmem, hsp, htm, fun m hm => hw m (hsub hm), he, hf, ha⟩

theorem State.awake_legal {s : State} (h : s.Legal) : s.awake.Legal := by
  obtain ⟨hpc, hmem, hsp, htm, hw, he, hf, -⟩ := h
  exact ⟨hpc, hmem, hsp, htm, hw, he, hf, .inl rfl⟩

/-- An abandoned instruction leaves what its transfers so far touched, or enters an exception from there. -/
theorem State.abandon_legal {s : State} (i : Instr) (e : MidEvent) (h : s.Legal)
    (hrun : s.activity = .running) : (s.abandon i e).Legal := by
  have hr := (touched_partialTransfer (s.drawn 1) i (Config.freeWord s.free).toNat).legal h hrun
  cases e with
  | softReset => exact hr
  | interrupt n fast =>
    rw [State.abandon]
    split
    · exact State.enter_legal _ _ _ _ hr
    · exact State.enter_legal _ _ _ _ hr

theorem State.boundary_legal {s t : State} (h : s.Legal) (hrun : s.activity = .running)
    (ht : s.boundary = .next t) : t.Legal := by
  have drew : ∀ {u : State}, u = { s with free := u.free } → u.Legal := fun hu => by rw [hu]; exact h
  have running : ∀ {u : State}, u = { s with free := u.free } → u.activity = .running :=
    fun hu => by rw [hu]; exact hrun
  rcases s.boundary_next t ht with ⟨n, fast, tp, u, hu, rfl⟩ | ⟨hb, -, ⟨i, e, u, hu, rfl⟩ | ⟨i, u, hu, hx⟩⟩
  · exact State.enter_legal n s.pc fast tp (drew hu)
  · exact State.abandon_legal i e (drew hu) (running hu)
  · exact (exec_ends i u t hx).legal (drew hu) (running hu) (by rw [hu]; exact hb)

theorem State.sleepStep_legal {s t : State} (h : s.Legal) (ht : s.sleepStep = .next t) : t.Legal := by
  unfold State.sleepStep at ht
  split at ht
  · exact State.boundary_legal (State.awake_legal h) rfl ht
  · split at ht <;> injection ht with ht <;> subst ht
    · exact State.awake_legal h
    · exact h

/-- Settles O57, one case for each kind of event that a step can be. -/
theorem everyStepKeepsLegal : Obligations.EveryStepKeepsLegal := by
  intro s t hs ht
  have h := State.sample_legal hs
  rcases sampledStep_next s.sample t ht with
    ⟨cells, -, rfl⟩ | ⟨-, rfl⟩ | rfl | rfl | ⟨-, hsleep⟩ | ⟨hrun, hbound⟩
  · exact State.hardReset_legal cells h
  · exact h
  · exact h
  · exact State.softReset_legal h
  · exact State.sleepStep_legal (State.settle_legal h) hsleep
  · exact State.boundary_legal (State.settle_legal h) hrun hbound

/-! ## What an instruction leaves alone -/

theorem State.raise_fileReg (s : State) (n : BitVec 7) (ret : Word) (alt : Bool) (r : Reg) :
    (s.raise n ret).fileReg alt r = s.fileReg alt r := by
  obtain ⟨hregs, halt, -⟩ :=
    (s.saveContext (s.vectorTaken n false) ret false false).vectorFetch_frame (s.vectorTaken n false)
  have hregs : (s.raise n ret).regs = s.regs := hregs
  have halt : (s.raise n ret).altRegs = s.altRegs := halt
  simp only [State.fileReg, hregs, halt]

theorem State.writeCtrl_fileReg (s : State) (v : Word) (c : CtrlReg) (alt : Bool) (r : Reg) :
    (s.writeCtrl v c).fileReg alt r = s.fileReg alt r := by
  cases c <;> rfl

/-- The control state that neither a completion nor an ordinary exception entry writes. -/
def SameControl (s t : State) : Prop :=
  t.vbr = s.vbr ∧ t.fpsr = s.fpsr ∧ t.fpc = s.fpc ∧ t.ss = s.ss ∧ t.gcr = s.gcr

/-- The PSR but for C and the ordinary shadow pair are as before. -/
def SamePsrButC (s t : State) : Prop :=
  t.psr = { s.psr with c := t.psr.c } ∧ t.epsr = s.epsr ∧ t.epc = s.epc

theorem Touched.sameControl {b : Bool} {s u : State} (h : Touched b s u) : SameControl s u := by
  rw [h.rest]
  exact ⟨rfl, rfl, rfl, rfl, rfl⟩

theorem Touched.samePsrButC {b : Bool} {s u : State} (h : Touched b s u) : SamePsrButC s u := by
  rw [h.rest]
  exact ⟨rfl, rfl, rfl⟩

/-- An exception of an instruction leaves the fast shadow pair and the other control registers (R310). -/
theorem State.raise_sameControl {s u : State} (n : BitVec 7) (ret : Word) (h : SameControl s u) :
    SameControl s (u.raise n ret) := by
  obtain ⟨hvbr, hfpsr, hfpc, hss, hgcr⟩ := h
  obtain ⟨-, -, -, evbr, ess, egcr, efpsr, efpc, -⟩ :=
    (u.saveContext (u.vectorTaken n false) ret false false).vectorFetch_frame (u.vectorTaken n false)
  exact ⟨evbr.trans hvbr, efpsr.trans hfpsr, efpc.trans hfpc, ess.trans hss, egcr.trans hgcr⟩

/-- Of the ways an instruction ends, those that write more control state than C ask for supervisor mode or are
exception entries. -/
theorem Ends.user_control {b : Bool} {s t : State} (h : Ends b s t) (huser : s.supervisor = false) :
    SameControl s t ∧ (SamePsrButC s t ∨
      ∃ (u : State) (n : BitVec 7) (ret : Word),
        u.psr = { s.psr with c := u.psr.c } ∧ t = u.enter n ret false false) := by
  cases h with
  | advanced u hu => exact ⟨hu.sameControl, .inl hu.samePsrButC⟩
  | fell u hu => exact ⟨hu.sameControl, .inl hu.samePsrButC⟩
  | jumped u p hu => exact ⟨hu.sameControl, .inl hu.samePsrButC⟩
  | branched p => exact ⟨⟨rfl, rfl, rfl, rfl, rfl⟩, .inl ⟨rfl, rfl, rfl⟩⟩
  | raised u n ret hu =>
    obtain ⟨hpsr, -⟩ := hu.samePsrButC
    exact ⟨State.raise_sameControl n ret hu.sameControl, .inr ⟨u, n, ret, hpsr, rfl⟩⟩
  | slept m hsup => simp [huser] at hsup
  | returned shadow ret hsup => simp [huser] at hsup
  | wrote v c hsup => simp [huser] at hsup

/-- Settles O58, over the ways an instruction ends. -/
theorem userModeKeepsControlState : Obligations.UserModeKeepsControlState := by
  intro i s t huser hx
  obtain ⟨⟨hvbr, hfpsr, hfpc, hss, hgcr⟩, hpsr⟩ := (exec_ends i s t hx).user_control huser
  exact ⟨hvbr, hfpsr, hfpc, hss, hgcr, hpsr⟩

/-- Settles O59: of the ways an instruction ends, none writes a register after the state it has touched. -/
theorem unselectedFileIsUntouched : Obligations.UnselectedFileIsUntouched := by
  intro i s t hx r
  cases exec_ends i s t hx with
  | advanced u hu => exact hu.file r
  | fell u hu => exact hu.file r
  | jumped u p hu => exact hu.file r
  | branched p => rfl
  | raised u n ret hu => exact (u.raise_fileReg n ret _ r).trans (hu.file r)
  | slept m => rfl
  | returned shadow ret => rfl
  | wrote v c => exact s.advance.writeCtrl_fileReg v c _ r

end Sys2Proof.Machine
end

section
/-! Memory byte by byte, the address of a data access, what no instruction but a store does to memory, and the
instruction that a step runs. -/

namespace Sys2Proof.Machine

/-! ## Memory byte by byte (R72, R73) -/

/-- The more significant part of a concatenation counts in units of the less significant one. -/
theorem toNat_append_mul {n m : Nat} (x : BitVec n) (y : BitVec m) :
    (x ++ y).toNat = x.toNat * 2 ^ m + y.toNat := by
  rw [BitVec.toNat_append, ← Nat.shiftLeft_add_eq_or_of_lt y.isLt, Nat.shiftLeft_eq]

theorem Memory.read_byte_toNat (m : Memory) (a : Word) : (m.read .byte a).toNat = (m.byte a).toNat :=
  BitVec.toNat_setWidth_of_le (by decide)

theorem Memory.read_half_toNat (m : Memory) (a : Word) :
    (m.read .half a).toNat = (m.byte a).toNat * 2 ^ 8 + (m.byte (a + 1)).toNat := by
  rw [← toNat_append_mul]
  exact BitVec.toNat_setWidth_of_le (by decide)

theorem Memory.read_word_toNat (m : Memory) (a : Word) :
    (m.read .word a).toNat =
      (m.byte a).toNat * 2 ^ 24 + (m.byte (a + 1)).toNat * 2 ^ 16 + (m.byte (a + 2)).toNat * 2 ^ 8 +
        (m.byte (a + 3)).toNat := by
  simp only [Memory.read, toNat_append_mul]
  omega

/-- A byte taken out of a word is the word divided by the weight of its place. -/
theorem extract_byte_eq (v : Word) (k : Nat) : v.extractLsb' k 8 = BitVec.ofNat 8 (v.toNat / 2 ^ k) := by
  rw [BitVec.extractLsb', Nat.shiftRight_eq_div_pow]

/-- Settles O21: the reads as sums of weighted bytes, the writes by `Memory.byte_write`. -/
theorem memoryIsBigEndian : Obligations.MemoryIsBigEndian := by
  intro m a v b
  refine ⟨m.read_byte_toNat a, m.read_half_toNat a, m.read_word_toNat a, fun w => ?_⟩
  rw [m.byte_write w a v b, extract_byte_eq]

/-! ## Memory outside the stores (R70, R310) -/

theorem State.raise_mem (s : State) (n : BitVec 7) (ret : Word) : (s.raise n ret).mem = s.mem := by
  obtain ⟨-, -, hmem, -⟩ :=
    (s.saveContext (s.vectorTaken n false) ret false false).vectorFetch_frame (s.vectorTaken n false)
  exact hmem

theorem State.writeCtrl_mem (s : State) (v : Word) (c : CtrlReg) : (s.writeCtrl v c).mem = s.mem := by
  cases c <;> rfl

/-- Settles O60: of the ways an instruction ends, none writes memory after the state it has touched. -/
theorem onlyStoresChangeMemory : Obligations.OnlyStoresChangeMemory := by
  intro i s t hstores hx
  cases exec_ends i s t hx with
  | advanced u hu => exact hu.mem_same hstores
  | fell u hu => exact hu.mem_same hstores
  | jumped u p hu => exact hu.mem_same hstores
  | branched p => rfl
  | raised u n ret hu => exact (u.raise_mem n ret).trans (hu.mem_same hstores)
  | slept m => rfl
  | returned shadow ret => rfl
  | wrote v c => exact s.advance.writeCtrl_mem v c

/-! ## The instruction a step runs (R363) -/

/-- Where nothing stands between, a step is the fetch and what follows from it. -/
theorem step_undisturbed (s : State) (h : Undisturbed s.now) : step s = s.now.executeNext := by
  rw [step_boundary s h.1, s.now.boundary_undisturbed h]

/-- Where nothing arrives during an instruction, it is executed. -/
theorem State.execOrAbandon_none {s : State} {i : Instr} (h : s.midEvent i = none) :
    s.execOrAbandon i = exec i s := by
  rw [State.execOrAbandon, h]

theorem State.now_quiet (s : State) (hu : s.upcoming = []) (hw : s.windows = Windows.closed) :
    s.now = s := by
  rw [State.now, s.sample_quiet hu, s.settle_closed hw]

/-- Settles O47: the word is the one at PC where memory answers, else the free one that the fetch gives. -/
theorem stepRunsTheDecodedInstruction : Obligations.StepRunsTheDecodedInstruction := by
  refine ⟨fun s i hu hf hd hm => ?_, fun s hu hf _ => ?_, State.now_quiet⟩
  · rw [step_undisturbed s hu, s.now.executeNext_fetchable hf, hd]
    exact State.execOrAbandon_none hm
  · have hstep := (step_undisturbed s hu).trans (s.now.executeNext_made hf)
    refine ⟨s.now.fetchedWord, s.now.afterFetch, rfl, fun i hd hm => ?_, fun e hd => ?_⟩
    · rw [hstep, hd]
      exact State.execOrAbandon_none hm
    · rw [hstep, hd]
      rfl

end Sys2Proof.Machine
end

section
/-! The four multi-register transfers: what they come down to, the words that a part of one moves, and the
exceptions that end one. -/

namespace Sys2Proof.Machine

/-! ## The forms that have a meaning (R246 to R249, R392) -/

theorem firstRegOk_iff (rf : Reg) : firstRegOk rf = true ↔ 1 ≤ rf.toNat ∧ rf.toNat ≤ 14 := by
  revert rf; decide

theorem inQuad_iff (r : Reg) : inQuad r = true ↔ 4 ≤ r.toNat ∧ r.toNat ≤ 7 := by
  revert r; decide

theorem exec_ldm (s : State) {rf : Reg} (h1 : 1 ≤ rf.toNat) (h14 : rf.toNat ≤ 14) :
    exec (.ldm rf) s = (s.loadMultiple (s.reg r0) (regsFrom rf)).finish (fun _ t => t.advance) :=
  if_pos ((firstRegOk_iff rf).2 ⟨h1, h14⟩)

theorem exec_stm (s : State) {rf : Reg} (h1 : 1 ≤ rf.toNat) (h14 : rf.toNat ≤ 14) :
    exec (.stm rf) s =
      (s.storeMultiple (s.reg r0) ((regsFrom rf).map s.reg)).finish (fun _ t => t.advance) :=
  if_pos ((firstRegOk_iff rf).2 ⟨h1, h14⟩)

theorem exec_ldq (s : State) {rx : Reg} (h : ¬ (4 ≤ rx.toNat ∧ rx.toNat ≤ 7)) :
    exec (.ldq rx) s = (s.loadMultiple (s.reg rx) quadRegs).finish (fun _ t => t.advance) :=
  if_neg fun hq => h ((inQuad_iff rx).1 hq)

/-- `stq` stores from the state in which it has drawn the free values it needs. -/
theorem exec_stq (s : State) (rx : Reg) :
    ∃ m, exec (.stq rx) s =
      ((s.drawn m).storeMultiple (s.reg rx) (s.quadValues rx)).finish (fun _ t => t.advance) := by
  have hq : ∃ m, s.quadDrawn rx = s.drawn m := by
    unfold State.quadDrawn
    split
    · exact ⟨1, rfl⟩
    · exact ⟨0, rfl⟩
  obtain ⟨m, e⟩ := hq
  exact ⟨m, by rw [← e]; rfl⟩

/-! ## Exceptions of an instruction -/

/-- Where memory accesses end in an exception, the instruction raises it from the state they have reached. -/
theorem Access.finish_raised {α : Type} {r : Access α} {n : BitVec 7} {ret : Word} {u : State}
    (f : α → State → State) (h : r = .raised n ret u) : r.finish f = .next (u.raise n ret) := by
  rw [h]; rfl

/-- An exception that can be taken in `s` is taken so in any state with its PSR, windows, VBR and inputs. -/
theorem State.raise_entered {s u : State} {n : BitVec 7} (ret : Word) (h : CanTake s n false)
    (hpsr : u.psr = s.psr) (hwin : u.windows = s.windows) (hvbr : u.vbr = s.vbr)
    (hin : u.inputs = s.inputs) :
    HandlerEntered u (u.raise n ret) (vectorFor s n false) ret false false := by
  have hvec : vectorFor u n false = vectorFor s n false := by
    simp only [vectorFor, State.shadowsFree, hpsr, hwin]
  rw [← hvec]
  refine u.raise_spec n ret ?_
  rw [hvec, VectorReadable, State.vbrWord, hvbr, hin]
  exact h

/-! ## Alignment (R76, R317) -/

theorem State.loadMultiple_none {s : State} {base : Word} (rs : List Reg)
    (h : s.dataAddr .word base = none) : s.loadMultiple base rs = .raised vecMisaligned s.pc s := by
  simp only [State.loadMultiple, h]

theorem State.storeMultiple_none {s : State} {base : Word} (vs : List Word)
    (h : s.dataAddr .word base = none) : s.storeMultiple base vs = .raised vecMisaligned s.pc s := by
  simp only [State.storeMultiple, h]

/-- An instruction whose accesses raise an exception at once, free values apart, has no other effect. -/
theorem raises_of_finish {i : Instr} {s : State} {m : Nat} {r : Access Unit} {n : BitVec 7}
    (f : Unit → State → State) (hx : exec i s = r.finish f) (hr : r = .raised n s.pc (s.drawn m))
    (hc : CanTake s n false) : Raises i s n s.pc :=
  ⟨_, hx.trans (Access.finish_raised f hr), State.raise_entered (u := s.drawn m) s.pc hc rfl rfl rfl rfl⟩

/-- Settles O22: the addresses by `State.dataAddr_eq`; a transfer without an address raises before any access. -/
theorem alignmentOfDataAccesses : Obligations.AlignmentOfDataAccesses := by
  refine ⟨fun s w ea => ⟨fun h => ?_, fun h hm => ?_, fun h hm => ?_⟩,
    fun s r hc => ⟨fun ha h1 h14 => ⟨?_, ?_⟩, fun ha hq => ?_, fun ha => ?_⟩⟩
  · rw [s.dataAddr_eq, if_pos h]
  · rw [s.dataAddr_eq, if_neg h, hm]
    rfl
  · refine ⟨w.floor ea, ?_, w.floor_toNat ea⟩
    rw [State.dataAddr, if_neg (mt (w.aligned_iff ea).1 h), hm]
    rfl
  · exact raises_of_finish (m := 0) _ (exec_ldm s h1 h14) (State.loadMultiple_none _ ha) hc
  · exact raises_of_finish (m := 0) _ (exec_stm s h1 h14) (State.storeMultiple_none _ ha) hc
  · exact raises_of_finish (m := 0) _ (exec_ldq s hq) (State.loadMultiple_none _ ha) hc
  · obtain ⟨m, e⟩ := exec_stq s r
    exact raises_of_finish _ e (State.storeMultiple_none (s := s.drawn m) _ ha) hc

/-! ## Runs of registers (R111) -/

/-- The registers of the list are those from R`first` on, in order. -/
def Consecutive (rs : List Reg) (first : Nat) : Prop :=
  rs.map BitVec.toNat = List.range' first rs.length

theorem regsFrom_consecutive (rf : Reg) : Consecutive (regsFrom rf) rf.toNat := by
  unfold Consecutive; revert rf; decide

theorem quadRegs_consecutive : Consecutive quadRegs 4 := rfl

section

variable {rs : List Reg} {first : Nat}

theorem Consecutive.getElem_toNat (h : Consecutive rs first) {k : Nat} (hk : k < rs.length) :
    rs[k].toNat = first + k := by
  have e := List.getElem_of_eq h (i := k) (by simpa using hk)
  simpa using e

theorem Consecutive.getElem_eq (h : Consecutive rs first) {k : Nat} (hk : k < rs.length) :
    rs[k] = BitVec.ofNat 4 (first + k) := by
  rw [← h.getElem_toNat hk, BitVec.ofNat_toNat, BitVec.setWidth_eq]

theorem Consecutive.take (h : Consecutive rs first) (n : Nat) : Consecutive (rs.take n) first := by
  rw [Consecutive, List.map_take, h, List.length_take]
  exact List.ext_getElem (by simp) (by simp)

theorem Consecutive.mem_iff (h : Consecutive rs first) (r : Reg) :
    r ∈ rs ↔ first ≤ r.toNat ∧ r.toNat < first + rs.length := by
  rw [← List.mem_range'_1, ← h, List.mem_map_of_injective fun _ _ => BitVec.eq_of_toNat_eq]

theorem Consecutive.nodup (h : Consecutive rs first) : rs.Nodup :=
  List.Nodup.of_map _ (h ▸ List.nodup_range')

theorem Consecutive.idxOf_eq (h : Consecutive rs first) {r : Reg} (hr : r ∈ rs) :
    rs.idxOf r = r.toNat - first := by
  have e := h.getElem_toNat (List.idxOf_lt_length_of_mem hr)
  rw [List.getElem_idxOf] at e
  omega

end

/-! ## The words that a transfer moves -/

/-- Consecutive registers, loaded without a bus error, hold their words, and nothing else has changed but the
breakpoint flag and the count of free values. -/
theorem loadWords_loaded {rs : List Reg} {first : Nat} {a : Word} {s t : State}
    (hrs : Consecutive rs first) (ht : loadWords rs a s = .done () t)
    (hbus : ∀ k < rs.length, s.busError (a + BitVec.ofNat 32 (4 * k)) .word .read = false) :
    WordsLoaded s t first rs.length a ∧ t = { s with
      regs := t.regs, altRegs := t.altRegs
      brkPending := s.brkPending || s.marksWords a rs.length .read
      free := t.free } := by
  obtain ⟨u, e, hframe, hword, hrest⟩ := loadWords_spec rs a s hrs.nodup hbus
  obtain rfl : t = u := by rw [ht] at e; injection e
  refine ⟨⟨fun alt r hr => hframe alt r ?_, fun r h1 h2 hans => ?_⟩, hrest⟩
  · rwa [hrs.mem_iff]
  · have hr : r ∈ rs := (hrs.mem_iff r).2 ⟨h1, h2⟩
    rw [← hrs.idxOf_eq hr] at hans ⊢
    exact hword r hr hans

/-- The values of the list are those of the registers from R`first` on, but where `unsaid`. -/
def ValuesFrom (s : State) (first : Nat) (vs : List Word) (unsaid : Nat → Prop) : Prop :=
  ∀ (j : Nat) (h : j < vs.length), ¬ unsaid j → vs[j] = s.reg (BitVec.ofNat 4 (first + j))

theorem ValuesFrom.take {s : State} {first : Nat} {vs : List Word} {unsaid : Nat → Prop}
    (h : ValuesFrom s first vs unsaid) (n : Nat) : ValuesFrom s first (vs.take n) unsaid := by
  intro j hj hu
  rw [List.getElem_take]
  exact h j _ hu

theorem valuesFrom_map_reg (s : State) {rs : List Reg} {first : Nat} (h : Consecutive rs first) :
    ValuesFrom s first (rs.map s.reg) (fun _ => False) := by
  intro j hj _
  rw [List.getElem_map, h.getElem_eq (by simpa using hj)]

/-- `stq` stores the quadrant, but a value that is not said for the base register (R249, U25). -/
theorem valuesFrom_quadValues (s : State) (rx : Reg) :
    ValuesFrom s 4 (s.quadValues rx) (fun j => j + 4 = rx.toNat) := by
  intro j hj hu
  have hj : j < quadRegs.length := by simpa [State.quadValues] using hj
  have hne : quadRegs[j] ≠ rx := fun e =>
    hu (by rw [← e, quadRegs_consecutive.getElem_toNat hj, Nat.add_comm])
  simp only [State.quadValues, List.getElem_map, if_neg hne]
  rw [quadRegs_consecutive.getElem_eq hj]

/-- Values of consecutive registers, stored without a bus error, are in memory where RAM answers, and nothing
else has changed but the breakpoint flag and the list of stale bytes. -/
theorem storeWords_stored {vs : List Word} {first : Nat} {unsaid : Nat → Prop} {a : Word} {s t : State}
    (hvs : ValuesFrom s first vs unsaid) (hlen : vs.length ≤ 16) (ht : storeWords vs a s = .done () t)
    (hbus : ∀ k < vs.length, s.busError (a + BitVec.ofNat 32 (4 * k)) .word .write = false) :
    WordsStored s t first vs.length a unsaid ∧ t = { s with
      mem := t.mem, stale := t.stale
      brkPending := s.brkPending || s.marksWords a vs.length .write } := by
  obtain ⟨u, e, hbytes, hstale, hrest⟩ := storeWords_spec vs a s hlen hbus
  obtain rfl : t = u := by rw [ht] at e; injection e
  refine ⟨⟨fun b hb => ?_, hstale⟩, hrest⟩
  rw [hbytes b]
  refine if_ctx_congr Iff.rfl (fun hin => ?_) fun _ => rfl
  obtain ⟨hin, -⟩ := hin
  have hj : (b - a).toNat / 4 < vs.length := by omega
  rw [List.getD_eq_getElem vs 0 hj, hvs _ hj fun hu => hb ⟨hin, hu⟩]

/-! ## Transfers that meet a bus error (R83, R318, U28) -/

/-- A multi-register load that meets its first bus error at word `k` raises the exception of that access from a
state in which some number of the loads before it are made. -/
theorem faulting_load {i : Instr} {s : State} {base a : Word} {rs : List Reg} {first k : Nat}
    (hx : exec i s = (s.loadMultiple base rs).finish (fun _ t => t.advance))
    (hrs : Consecutive rs first) (ha : s.dataAddr .word base = some a) (hk : k < rs.length)
    (hlow : ∀ j < k, s.busError (a + BitVec.ofNat 32 (4 * j)) .word .read = false)
    (hf : s.busError (a + BitVec.ofNat 32 (4 * k)) .word .read = true)
    (hc : CanTake s (s.busFault (a + BitVec.ofNat 32 (4 * k)) .word .read) false) :
    ∃ u t n, (WordsLoaded s u first n a ∧ u = { s with
        regs := u.regs, altRegs := u.altRegs, brkPending := u.brkPending, free := u.free }) ∧
      n ≤ k ∧ exec i s = .next t ∧
      HandlerEntered u t (vectorFor s (s.busFault (a + BitVec.ofNat 32 (4 * k)) .word .read) false) s.pc
        false false := by
  obtain ⟨n, hn, u, hpart, hwhole⟩ := s.loadMultiple_fault base a rs k ha hk hlow hf
  have hlen : (rs.take n).length = n := by rw [List.length_take]; omega
  obtain ⟨hloaded, hu⟩ := loadWords_loaded (s := s.drawn 1) (hrs.take n) hpart
    fun j hj => hlow j (by omega)
  rw [hlen] at hloaded
  have hrest : u = { s with
      regs := u.regs, altRegs := u.altRegs, brkPending := u.brkPending, free := u.free } := by
    rw [congrArg State.brkPending hu]
    exact hu
  exact ⟨u, _, n, ⟨hloaded, hrest⟩, hn, hx.trans (Access.finish_raised _ hwhole),
    State.raise_entered s.pc hc (by rw [hrest]) (by rw [hrest]) (by rw [hrest]) (by rw [hrest])⟩

/-- A multi-register store that meets its first bus error at word `k` raises the exception of that access from a
state in which some number of the stores before it are made. -/
theorem faulting_store {i : Instr} {s : State} {m : Nat} {base a : Word} {vs : List Word} {first k : Nat}
    {unsaid : Nat → Prop}
    (hx : exec i s = ((s.drawn m).storeMultiple base vs).finish (fun _ t => t.advance))
    (hvs : ValuesFrom s first vs unsaid) (hvl : vs.length ≤ 16) (ha : s.dataAddr .word base = some a)
    (hk : k < vs.length)
    (hlow : ∀ j < k, s.busError (a + BitVec.ofNat 32 (4 * j)) .word .write = false)
    (hf : s.busError (a + BitVec.ofNat 32 (4 * k)) .word .write = true)
    (hc : CanTake s (s.busFault (a + BitVec.ofNat 32 (4 * k)) .word .write) false) :
    ∃ u t n, (WordsStored s u first n a unsaid ∧ u = { s with
        mem := u.mem, stale := u.stale, brkPending := u.brkPending, free := u.free }) ∧
      n ≤ k ∧ exec i s = .next t ∧
      HandlerEntered u t (vectorFor s (s.busFault (a + BitVec.ofNat 32 (4 * k)) .word .write) false) s.pc
        false false := by
  obtain ⟨n, hn, u, hpart, hwhole⟩ := (s.drawn m).storeMultiple_fault base a vs k ha hk hlow hf
  have hlen : (vs.take n).length = n := by rw [List.length_take]; omega
  obtain ⟨hstored, hu⟩ := storeWords_stored (s := (s.drawn m).drawn 1) (hvs.take n) (by omega) hpart
    fun j hj => hlow j (by omega)
  rw [hlen] at hstored
  have hrest : u = { s with
      mem := u.mem, stale := u.stale, brkPending := u.brkPending, free := u.free } := by
    rw [congrArg State.brkPending hu, congrArg State.free hu]
    exact hu
  exact ⟨u, _, n, ⟨hstored, hrest⟩, hn, hx.trans (Access.finish_raised _ hwhole),
    State.raise_entered s.pc hc (by rw [hrest]) (by rw [hrest]) (by rw [hrest]) (by rw [hrest])⟩

/-- Settles O27: the lists of the four transfers are runs of registers. -/
theorem faultingTransfersMakeAPrefix : Obligations.FaultingTransfersMakeAPrefix := by
  intro s a r k
  refine ⟨fun h1 h14 => ⟨?_, ?_⟩, fun hq => ?_, ?_⟩ <;> intro ha hk hlow hf hc
  · exact faulting_load (exec_ldm s h1 h14) (regsFrom_consecutive r) ha
      (by rwa [regsFrom_length]) hlow hf hc
  · exact faulting_store (m := 0) (exec_stm s h1 h14) (valuesFrom_map_reg s (regsFrom_consecutive r))
      (by rw [List.length_map, regsFrom_length]; omega) ha
      (by rwa [List.length_map, regsFrom_length]) hlow hf hc
  · exact faulting_load (exec_ldq s hq) quadRegs_consecutive ha hk hlow hf hc
  · obtain ⟨m, hx⟩ := exec_stq s r
    have hlen : (s.quadValues r).length = 4 := rfl
    exact faulting_store hx (valuesFrom_quadValues s r) (by omega) ha (by omega) hlow hf hc

end Sys2Proof.Machine
end

section
/-! Decoding and encoding: the round trip in both directions and the reserved slots of the opcode map. -/

namespace Sys2Proof

open Machine

/-! ## The opcode fields of a word (R102) -/

theorem op4_eq_op5 (w : Half) : op4 w = (op5 w).extractLsb' 1 4 := by
  rw [op4, op5]
  ext i hi
  simp [show 1 + i < 5 by omega, show 11 + (1 + i) = 12 + i by omega]

theorem op4_eq_op7 (w : Half) : op4 w = (op7 w).extractLsb' 3 4 := by
  rw [op4, op7]
  ext i hi
  simp [show 3 + i < 7 by omega, show 9 + (3 + i) = 12 + i by omega]

theorem op4_eq_op8 (w : Half) : op4 w = (op8 w).extractLsb' 4 4 := by
  rw [op4, op8]
  ext i hi
  simp [show 4 + i < 8 by omega, show 8 + (4 + i) = 12 + i by omega]

theorem op8_eq_op12 (w : Half) : op8 w = (op12 w).extractLsb' 4 8 := by
  rw [op8, op12]
  ext i hi
  simp [show 4 + i < 12 by omega, show 4 + (4 + i) = 8 + i by omega]

theorem op12_eq_op14 (w : Half) : op12 w = (op14 w).extractLsb' 2 12 := by
  rw [op12, op14]
  ext i hi
  simp [show 2 + i < 14 by omega, show 2 + (2 + i) = 4 + i by omega]

theorem op4_toNat (w : Half) : (op4 w).toNat = w.toNat / 2 ^ 12 := by
  rw [op4, BitVec.extractLsb'_toNat, Nat.shiftRight_eq_div_pow]; omega

theorem op5_toNat (w : Half) : (op5 w).toNat = w.toNat / 2 ^ 11 := by
  rw [op5, BitVec.extractLsb'_toNat, Nat.shiftRight_eq_div_pow]; omega

theorem op7_toNat (w : Half) : (op7 w).toNat = w.toNat / 2 ^ 9 := by
  rw [op7, BitVec.extractLsb'_toNat, Nat.shiftRight_eq_div_pow]; omega

theorem op8_toNat (w : Half) : (op8 w).toNat = w.toNat / 2 ^ 8 := by
  rw [op8, BitVec.extractLsb'_toNat, Nat.shiftRight_eq_div_pow]; omega

theorem op12_toNat (w : Half) : (op12 w).toNat = w.toNat / 2 ^ 4 := by
  rw [op12, BitVec.extractLsb'_toNat, Nat.shiftRight_eq_div_pow]; omega

theorem op14_toNat (w : Half) : (op14 w).toNat = w.toNat / 2 ^ 2 := by
  rw [op14, BitVec.extractLsb'_toNat, Nat.shiftRight_eq_div_pow]; omega

theorem fieldImm5_toNat (w : Half) : (fieldImm5 w).toNat = w.toNat / 2 ^ 4 % 2 ^ 5 := by
  rw [fieldImm5, BitVec.extractLsb'_toNat, Nat.shiftRight_eq_div_pow]

/-! ## The part of the decoder that a word reaches (R120) -/

theorem decode_eq_decode0 {w : Half} (h : op4 w = 0#4) : decode w = decode0 w := by
  simp [decode, h]

theorem decode_eq_decode1 {w : Half} (h : op4 w = 1#4) : decode w = decode1 w := by
  simp [decode, h]

theorem decode_eq_decode2 {w : Half} (h : op4 w = 2#4) : decode w = decode2 w := by
  simp [decode, h]

theorem decode_eq_decode3 {w : Half} (h : op4 w = 3#4) : decode w = decode3 w := by
  simp [decode, h]

theorem decode_eq_decode7 {w : Half} (h : op4 w = 7#4) : decode w = decode7 w := by
  simp [decode, h]

theorem decode_eq_decodeMonadic {w : Half} (h : op8 w = 0#8 ∨ op8 w = 1#8) :
    decode w = decodeMonadic w := by
  rw [decode_eq_decode0 (by rw [op4_eq_op8]; rcases h with h | h <;> rw [h] <;> rfl)]
  rcases h with h | h <;> simp [decode0, h]

theorem decode_eq_decodeFixed {w : Half} (h : op12 w = 0#12 ∨ op12 w = 1#12) :
    decode w = decodeFixed w := by
  have h8 : op8 w = 0#8 := by rw [op8_eq_op12]; rcases h with h | h <;> rw [h] <;> rfl
  rw [decode_eq_decodeMonadic (.inl h8)]
  rcases h with h | h <;> simp [decodeMonadic, h]

/-- The FIXED format takes the words below 8, so the bits above the TRAP field tell the others apart. -/
theorem decodeFixed_of_ge {w : Half} (h : 8 ≤ w.toNat) :
    decodeFixed w =
      if op14 w = 0x0002#14 then .ok (.trap (fieldVec2 w))
      else if op14 w = 0x0003#14 then .error .slot000C
      else .error .slot0010 := by
  have hne : ∀ k : Half, k.toNat < 8 → w ≠ k := by rintro k hk rfl; omega
  simp [decodeFixed, hne]

/-! ## Every well-formed instruction is decoded from its word -/

theorem decode_trapWord (v : BitVec 2) : decode (trapWord 2#14 v) = .ok (.trap v) := by
  have hge : 8 ≤ (trapWord 2#14 v).toNat := by
    have := congrArg BitVec.toNat (trapWord_op14 2#14 v)
    rw [op14_toNat] at this
    simp at this
    omega
  rw [decode_eq_decodeFixed (by simp), decodeFixed_of_ge hge]
  simp

theorem decode_bmaski {n : BitVec 5} (rx : Reg) (h : maskWidthOk n = true) :
    decode (imm5Word 0x16#7 n rx) = .ok (.bmaski n rx) := by
  have hn : n ≠ 1#5 := by rintro rfl; revert h; decide
  rw [decode_eq_decode2 (by simp)]
  simp [decode2, hn, h]

theorem decode_bgeni {n : BitVec 5} (rx : Reg) (h : bitNumberOk n = true) :
    decode (imm5Word 0x19#7 n rx) = .ok (.bgeni n rx) := by
  have hn : n ≠ 1#5 := by rintro rfl; revert h; decide
  rw [decode_eq_decode3 (by simp)]
  simp [decode3, hn, h]

theorem decode_lrw {rz : Reg} (d : BitVec 8) (h : literalDestOk rz = true) :
    decode (literalWord 0x7#4 rz d) = .ok (.lrw rz d) := by
  have hz : rz ≠ r0 ∧ rz ≠ r15 := by simpa [literalDestOk] using h
  rw [decode_eq_decode7 (by simp)]
  simp [decode7, hz]

/-- Settles O1, format by format: the opcode of the word leads to a part of the decoder, and there to the
instruction. -/
theorem decodeInvertsEncode : Obligations.DecodeInvertsEncode := by
  intro i h
  cases i with
  | bkpt | sync | rte | rfi | stop | wait | doze => rfl
  | trap v => exact decode_trapWord v
  | mvc rx | mvcv rx | ldq rx | stq rx | ldm rx | stm rx | dect rx | decf rx | inct rx | incf rx
  | jmp rx | jsr rx | ff1 rx | brev rx | xtrb3 rx | xtrb2 rx | xtrb1 rx | xtrb0 rx | zextb rx
  | sextb rx | zexth rx | sexth rx | declt rx | tstnbz rx | decgt rx | decne rx | clrt rx | clrf rx
  | abs rx | not rx =>
    rw [encode, decode_eq_decodeMonadic (by simp)]
    simp [decodeMonadic]
  | movt ry rx | mult ry rx | loopt ry b | subu ry rx | addc ry rx | subc ry rx | movf ry rx
  | lsr ry rx | cmphs ry rx | cmplt ry rx | tst ry rx | cmpne ry rx =>
    rw [encode, decode_eq_decode0 (by simp)]
    simp [decode0]
  | mfcr c rx | mov ry rx | bgenr ry rx | rsub ry rx | ixw ry rx | and ry rx | xor ry rx | mtcr c rx
  | asr ry rx | lsl ry rx | addu ry rx | ixh ry rx | or ry rx | andn ry rx =>
    rw [encode, decode_eq_decode1 (by simp)]
    simp [decode1]
  | addi n rx | cmplti n rx | subi n rx | rsubi n rx | cmpnei n rx | divu rx | andi n rx =>
    rw [encode, decode_eq_decode2 (by simp)]
    simp [decode2]
  | bclri n rx | divs rx | bseti n rx | btsti n rx =>
    rw [encode, decode_eq_decode3 (by simp)]
    simp [decode3]
  | rotli n rx | asri n rx | lsli n rx | lsri n rx =>
    have hn : shiftCountOk n = true := h
    rw [encode, decode_eq_decode3 (by simp)]
    simp [decode3, hn]
  | xsr rx | asrc rx | lslc rx | lsrc rx =>
    rw [encode, decode_eq_decode3 (by simp)]
    simp [decode3, shiftCountOk]
  | bmaski n rx => exact decode_bmaski rx h
  | bgeni n rx => exact decode_bgeni rx h
  | lrw rz d => exact decode_lrw d h
  | jmpi d | jsri d =>
    rw [encode, decode_eq_decode7 (by simp)]
    simp [decode7, r0]
  | hai uu x | movi n rx | ldW rz n rx | stW rz n rx | ldB rz n rx | stB rz n rx | ldH rz n rx
  | stH rz n rx => simp [encode, decode]
  | bt d | bf d | br d | bsr d => simp [encode, decode, decodeBranch]

/-- Settles O4, by evaluating the decoder on the twenty words. -/
theorem sampleWordsDecode : Obligations.SampleWordsDecode := by
  unfold Obligations.SampleWordsDecode
  decide

/-! ## The reserved slots of the opcode map (R122) -/

/-- The reserved slots as the decoder meets them: by the opcode fields. -/
theorem reservedWord_iff (w : Half) :
    reservedWord w ↔
      w = 0x0007#16 ∨ (op14 w = 0x0003#14 ∨ op12 w = 0x001#12) ∨ (op8 w = 0x08#8 ∨ op8 w = 0x09#8) ∨
      op7 w = 0x13#7 ∨ (op7 w = 0x16#7 ∧ fieldImm5 w ≠ 1#5 ∧ maskWidthOk (fieldImm5 w) = false) ∨
      (op7 w = 0x19#7 ∧ fieldImm5 w ≠ 1#5 ∧ bitNumberOk (fieldImm5 w) = false) ∨
      op4 w = 0x5#4 ∨ op5 w = 0x0D#5 := by
  simp only [reservedWord, maskWidthOk, bitNumberOk, BitVec.toNat_eq, BitVec.le_def, op4_toNat, op5_toNat,
    op7_toNat, op8_toNat, op12_toNat, op14_toNat, fieldImm5_toNat, BitVec.toNat_ofNat, ne_eq,
    Bool.or_eq_false_iff, decide_eq_false_iff_not, beq_eq_false_iff_ne]
  refine or_congr ?_ <| or_congr ?_ <| or_congr ?_ <| or_congr ?_ <| or_congr ?_ <|
    or_assoc.symm.trans <| or_congr ?_ <| or_congr ?_ ?_ <;> omega

/-! ## The words that the formats of R103 make -/

theorem trapWord_of_op14 {w : Half} {op : BitVec 14} (h : op14 w = op) :
    trapWord op (fieldVec2 w) = w := by
  rw [← h]; exact append_fields14 w

theorem monadicWord_of_op12 {w : Half} {op : BitVec 12} (h : op12 w = op) :
    monadicWord op (fieldRx w) = w := by
  rw [← h]; exact append_fields12 w

theorem dyadicWord_of_op8 {w : Half} {op : BitVec 8} (h : op8 w = op) :
    dyadicWord op (fieldRy w) (fieldRx w) = w := by
  rw [← h]; exact append_fields8 w

theorem imm5Word_of_op7 {w : Half} {op : BitVec 7} (h : op7 w = op) :
    imm5Word op (fieldImm5 w) (fieldRx w) = w := by
  rw [← h]; exact append_fields7 w

theorem imm7Word_of_op5 {w : Half} {op : BitVec 5} (h : op5 w = op) :
    imm7Word op (fieldImm7 w) (fieldRx w) = w := by
  rw [← h]; exact append_fields5 w

theorem haiWord_of_op4 {w : Half} {op : BitVec 4} (h : op4 w = op) :
    haiWord op (fieldUu w) (fieldHai w) = w := by
  rw [← h]; exact append_fields_hai w

theorem literalWord_of_op4 {w : Half} {op rz : BitVec 4} (h : op4 w = op) (hz : fieldRz w = rz) :
    literalWord op rz (fieldDisp8 w) = w := by
  rw [← h, ← hz]; exact append_fields_literal w

theorem loadStoreWord_of_op4 {w : Half} {op : BitVec 4} (h : op4 w = op) :
    loadStoreWord op (fieldRz w) (fieldRy w) (fieldRx w) = w := by
  rw [← h]; exact append_fields_loadStore w

theorem branchWord_of_op5 {w : Half} {op : BitVec 5} (h : op5 w = op) :
    branchWord op (fieldDisp11 w) = w := by
  rw [← h]; exact append_fields_branch w

/-- The word of an instruction that fixes the IMM5 field (R123). -/
theorem monadicWord_of_op7 {w : Half} {op : BitVec 7} {n : BitVec 5} {c : BitVec 12} (h : op7 w = op)
    (hn : fieldImm5 w = n) (hc : op ++ n = c) : monadicWord c (fieldRx w) = w := by
  rw [← hc, ← h, ← hn]; exact append_fields7 w

/-! ## What the decoder answers for a word -/

/-- The answer accounts for the whole word: the instruction whose word it is, or the rejection of a reserved
word. -/
def Accounts (w : Half) : Except Reject Instr → Prop
  | .ok i => i.wf = true ∧ encode i = w
  | .error _ => reservedWord w

/-- A test of the decoder: where it holds its answer accounts for the word, else the tests after it do. -/
theorem Accounts.ite {w : Half} {p : Prop} [Decidable p] {x y : Except Reject Instr}
    (hx : p → Accounts w x) (hy : ¬p → Accounts w y) : Accounts w (if p then x else y) := by
  split
  · exact hx ‹_›
  · exact hy ‹_›

theorem decodeFixed_accounts {w : Half} (h : op12 w = 0#12 ∨ op12 w = 1#12) :
    Accounts w (decodeFixed w) := by
  unfold decodeFixed
  iterate 7 refine .ite (fun h => ⟨rfl, h.symm⟩) fun _ => ?_
  refine .ite (fun h => (reservedWord_iff w).2 (.inl h)) fun _ => ?_
  refine .ite (fun h => ⟨rfl, trapWord_of_op14 h⟩) fun _ => ?_
  refine .ite (fun h => (reservedWord_iff w).2 (by simp [h])) fun _ => .inr (.inl ?_)
  simp only [BitVec.toNat_eq, op12_toNat, op14_toNat, BitVec.toNat_ofNat] at *
  omega

theorem decodeMonadic_accounts {w : Half} (h : op8 w = 0#8 ∨ op8 w = 1#8) :
    Accounts w (decodeMonadic w) := by
  unfold decodeMonadic
  iterate 30 refine .ite (fun h => ⟨rfl, monadicWord_of_op12 h⟩) fun _ => ?_
  apply decodeFixed_accounts
  simp only [BitVec.toNat_eq, op12_toNat, op8_toNat, BitVec.toNat_ofNat] at *
  omega

theorem decode0_accounts {w : Half} (h : op4 w = 0#4) : Accounts w (decode0 w) := by
  unfold decode0
  iterate 6 refine .ite (fun h => ⟨rfl, dyadicWord_of_op8 h⟩) fun _ => ?_
  iterate 2 refine .ite (fun h => (reservedWord_iff w).2 (by simp [h])) fun _ => ?_
  iterate 6 refine .ite (fun h => ⟨rfl, dyadicWord_of_op8 h⟩) fun _ => ?_
  apply decodeMonadic_accounts
  simp only [BitVec.toNat_eq, op4_toNat, op8_toNat, BitVec.toNat_ofNat] at *
  omega

theorem decode1_accounts {w : Half} (h : op4 w = 1#4) : Accounts w (decode1 w) := by
  unfold decode1
  iterate 2 refine .ite (fun h => ⟨rfl, imm5Word_of_op7 h⟩) fun _ => ?_
  iterate 11 refine .ite (fun h => ⟨rfl, dyadicWord_of_op8 h⟩) fun _ => ?_
  refine ⟨rfl, dyadicWord_of_op8 ?_⟩
  simp only [BitVec.toNat_eq, op4_toNat, op7_toNat, op8_toNat, BitVec.toNat_ofNat] at *
  omega

theorem decode2_accounts {w : Half} (h : op4 w = 2#4) : Accounts w (decode2 w) := by
  unfold decode2
  iterate 3 refine .ite (fun h => ⟨rfl, imm5Word_of_op7 h⟩) fun _ => ?_
  refine .ite (fun h => (reservedWord_iff w).2 (by simp [h])) fun _ => ?_
  iterate 2 refine .ite (fun h => ⟨rfl, imm5Word_of_op7 h⟩) fun _ => ?_
  refine .ite (fun h => ?_) fun _ => ⟨rfl, imm5Word_of_op7 ?_⟩
  · refine .ite (fun h1 => ⟨rfl, monadicWord_of_op7 h h1 rfl⟩) fun h1 => ?_
    exact .ite (fun hm => ⟨hm, imm5Word_of_op7 h⟩)
      fun hm => (reservedWord_iff w).2 (by simp [h, h1, hm])
  · simp only [BitVec.toNat_eq, op4_toNat, op7_toNat, BitVec.toNat_ofNat] at *
    omega

/-- An IMM5 field that is no shift count is zero. -/
theorem imm5_eq_zero {n : BitVec 5} (h : ¬shiftCountOk n = true) : n = 0#5 := by
  simpa [shiftCountOk] using h

/-- Two instructions share an opcode, the one with a count and the one that fixes the field at zero (R123). -/
theorem shift_accounts {w : Half} {op : BitVec 7} {c : BitVec 12} {i j : Instr} (h : op7 w = op)
    (hi : i.wf = shiftCountOk (fieldImm5 w)) (hiw : encode i = imm5Word op (fieldImm5 w) (fieldRx w))
    (hj : j.wf = true) (hjw : encode j = monadicWord c (fieldRx w)) (hc : op ++ 0#5 = c) :
    Accounts w (if shiftCountOk (fieldImm5 w) then .ok i else .ok j) :=
  .ite (fun hn => ⟨hi.trans hn, hiw.trans (imm5Word_of_op7 h)⟩)
    fun hn => ⟨hj, hjw.trans (monadicWord_of_op7 h (imm5_eq_zero hn) hc)⟩

theorem decode3_accounts {w : Half} (h : op4 w = 3#4) : Accounts w (decode3 w) := by
  unfold decode3
  refine .ite (fun h => ⟨rfl, imm5Word_of_op7 h⟩) fun _ => ?_
  refine .ite (fun h => ?_) fun _ => ?_
  · refine .ite (fun h1 => ⟨rfl, monadicWord_of_op7 h h1 rfl⟩) fun h1 => ?_
    exact .ite (fun hm => ⟨hm, imm5Word_of_op7 h⟩)
      fun hm => (reservedWord_iff w).2 (by simp [h, h1, hm])
  iterate 2 refine .ite (fun h => ⟨rfl, imm5Word_of_op7 h⟩) fun _ => ?_
  iterate 3 refine .ite (fun h => shift_accounts h rfl rfl rfl rfl rfl) fun _ => ?_
  refine shift_accounts (op := 0x1F#7) ?_ rfl rfl rfl rfl rfl
  simp only [BitVec.toNat_eq, op4_toNat, op7_toNat, BitVec.toNat_ofNat] at *
  omega

theorem decode7_accounts {w : Half} (h : op4 w = 7#4) : Accounts w (decode7 w) := by
  unfold decode7
  iterate 2 refine .ite (fun hz => ⟨rfl, literalWord_of_op4 h hz⟩) fun _ => ?_
  refine ⟨?_, literalWord_of_op4 h rfl⟩
  simp [Instr.wf, literalDestOk, *]

theorem decodeBranch_accounts {w : Half} (h : 14#4 ≤ op4 w) : Accounts w (decodeBranch w) := by
  unfold decodeBranch
  iterate 3 refine .ite (fun h => ⟨rfl, branchWord_of_op5 h⟩) fun _ => ?_
  refine ⟨rfl, branchWord_of_op5 ?_⟩
  simp only [BitVec.toNat_eq, BitVec.le_def, op4_toNat, op5_toNat, BitVec.toNat_ofNat] at *
  omega

/-- Of every word the decoder tells what it is, part by part of the opcode map (R120): each test of a part fixes
the opcode of a format, and the fields after it are the rest of the word. -/
theorem decode_accounts (w : Half) : Accounts w (decode w) := by
  unfold decode
  refine .ite decode0_accounts fun _ => ?_
  refine .ite decode1_accounts fun _ => ?_
  refine .ite decode2_accounts fun _ => ?_
  refine .ite decode3_accounts fun _ => ?_
  refine .ite (fun h => ⟨rfl, haiWord_of_op4 h⟩) fun _ => ?_
  refine .ite (fun h => (reservedWord_iff w).2 (by simp [h])) fun _ => ?_
  refine .ite (fun h => ?_) fun _ => ?_
  · refine .ite (fun h5 => ⟨rfl, imm7Word_of_op5 h5⟩) fun h5 => (reservedWord_iff w).2 ?_
    have h13 : op5 w = 0x0D#5 := by
      simp only [BitVec.toNat_eq, op4_toNat, op5_toNat, BitVec.toNat_ofNat] at *
      omega
    simp [h13]
  refine .ite decode7_accounts fun _ => ?_
  iterate 6 refine .ite (fun h => ⟨rfl, loadStoreWord_of_op4 h⟩) fun _ => ?_
  apply decodeBranch_accounts
  simp only [BitVec.toNat_eq, BitVec.le_def, op4_toNat, BitVec.toNat_ofNat] at *
  omega

/-- Settles O2: where the decoder's answer is an instruction, its word accounts for all bits of `w`. -/
theorem encodeInvertsDecode : Obligations.EncodeInvertsDecode := by
  intro w i h
  have ha := decode_accounts w
  rwa [h] at ha

/-! ## The rejected words (R122) -/

/-- A word of a reserved slot is rejected, whichever slot it is. -/
theorem decode_reserved {w : Half} (h : reservedWord w) : ∃ e, decode w = .error e := by
  obtain rfl | h | h | h | ⟨h, h1, hm⟩ | ⟨h, h1, hm⟩ | h | h := (reservedWord_iff w).1 h
  · exact ⟨_, rfl⟩
  · have h12 : op12 w = 0#12 ∨ op12 w = 1#12 := h.imp (fun h => by rw [op12_eq_op14, h]; rfl) id
    have hge : 8 ≤ w.toNat := by
      simp only [BitVec.toNat_eq, op12_toNat, op14_toNat, BitVec.toNat_ofNat] at h
      omega
    rw [decode_eq_decodeFixed h12, decodeFixed_of_ge hge]
    split_ifs with h2
    · rw [op12_eq_op14, h2] at h
      exact absurd h (by decide)
    · exact ⟨_, rfl⟩
    · exact ⟨_, rfl⟩
  · rw [decode_eq_decode0 (by rw [op4_eq_op8]; rcases h with h | h <;> rw [h] <;> rfl)]
    rcases h with h | h <;> simp [decode0, h]
  · rw [decode_eq_decode2 (by rw [op4_eq_op7, h]; rfl)]
    simp [decode2, h]
  · rw [decode_eq_decode2 (by rw [op4_eq_op7, h]; rfl)]
    simp [decode2, h, h1, hm]
  · rw [decode_eq_decode3 (by rw [op4_eq_op7, h]; rfl)]
    simp [decode3, h, h1, hm]
  · simp [decode, h]
  · have h4 : op4 w = 6#4 := by rw [op4_eq_op5, h]; rfl
    simp [decode, h4, h]

/-- Settles O3: `decode_accounts` one way, slot by slot the other. -/
theorem rejectedWordsAreTheReservedSlots : Obligations.RejectedWordsAreTheReservedSlots := by
  refine fun w => ⟨fun ⟨e, h⟩ => ?_, decode_reserved⟩
  have ha := decode_accounts w
  rwa [h] at ha

end Sys2Proof
end

section
/-! The step that meets a word it cannot run. -/

namespace Sys2Proof.Machine

/-! ## The step at a reserved or a stale word (R86, R122, R320) -/

theorem State.executeNext_stale {s : State} (hb : s.busError s.pc .half .fetch = false)
    (hs : s.fetchStale = true) : s.executeNext = .refused .staleFetch := by
  simp [State.executeNext, hb, hs]

/-- Settles O49: a reserved word does not decode, so the step raises vector 4; a stale byte stops the fetch. -/
theorem reservedAndStaleWords : Obligations.ReservedAndStaleWords := by
  refine fun s hu => ⟨fun hf hr hc => ?_, fun hb hs => ?_⟩
  · obtain ⟨e, he⟩ := decode_reserved hr
    refine ⟨s.now.raise vecIllegal s.now.pc, ?_, s.now.raise_spec _ _ hc⟩
    rw [step_undisturbed s hu, s.now.executeNext_fetchable hf, he]
  · have hstale : s.now.fetchStale = true := by simpa [State.fetchStale] using hs
    rw [step_undisturbed s hu, State.executeNext_stale hb hstale]

end Sys2Proof.Machine
end

section
/-! Integer arithmetic: the exact values of the results, their words, and what each instruction leaves alone. -/

namespace Sys2Proof.Machine

/-! ## The word of an instruction page (R121) -/

section

variable {i : Instr} {base : Half}

theorem HasWord.of_page {w : Half} (hwf : i.wf = true) (h : w = encode i) : HasWord i w :=
  ⟨h ▸ decodeInvertsEncode i hwf, h.symm⟩

theorem HasWord.of_pageRx {op : BitVec 12} {rx : Reg} (hwf : i.wf = true) (he : encode i = monadicWord op rx)
    (hb : base = op ++ 0#4) : HasWord i (pageRx base rx) :=
  .of_page hwf (by rw [hb, pageRx_eq, he])

theorem HasWord.of_pageRyRx {op : BitVec 8} {ry rx : Reg} (hwf : i.wf = true)
    (he : encode i = dyadicWord op ry rx) (hb : base = op ++ 0#8) : HasWord i (pageRyRx base ry rx) :=
  .of_page hwf (by rw [hb, pageRyRx_eq, he])

theorem HasWord.of_pageImm5Rx {op : BitVec 7} {n : BitVec 5} {rx : Reg} (hwf : i.wf = true)
    (he : encode i = imm5Word op n rx) (hb : base = op ++ 0#9) : HasWord i (pageImm5Rx base n rx) :=
  .of_page hwf (by rw [hb, pageImm5Rx_eq, he])

end

/-! ## Completions whose value is given in another form -/

section

variable {i : Instr} {s : State} {d : Reg} {v w : Word}

theorem WritesReg.of_complete_eq (h : exec i s = s.completeReg d v) (hv : v = w) : WritesReg i s d w :=
  hv ▸ .of_complete h

theorem WritesRegAndC.of_complete_eq {b c : Bool} (h : exec i s = s.completeRegC d v b) (hv : v = w)
    (hc : b = c) : WritesRegAndC i s d w c :=
  hv ▸ hc ▸ .of_complete h

/-- An instruction that acts where C is set. -/
theorem WritesReg.of_completeIf_eq {c : Bool} (h : exec i s = s.completeRegIf c d v) (hv : v = w) :
    WritesReg i s d (if c then w else s.reg d) :=
  hv ▸ .of_completeIf h

/-- An instruction that acts where C is clear. -/
theorem WritesReg.of_completeUnless_eq {c : Bool} (h : exec i s = s.completeRegIf (!c) d v) (hv : v = w) :
    WritesReg i s d (if c then s.reg d else w) := by
  have hw := WritesReg.of_completeIf_eq h hv
  cases c
  · exact hw
  · exact hw

/-- The count of free values is no part of the frame. -/
theorem WritesRegAndC.of_complete_drawn {c : Bool} {n : Nat}
    (h : exec i s = (s.drawn n).completeRegC d v c) : WritesRegAndC i s d v c := by
  obtain ⟨t, e, ht⟩ := (s.drawn n).completeRegC_spec d v c
  exact ⟨t, h.trans e, ht⟩

end

/-! ## Operands -/

theorem imm5Value_toNat (n : BitVec 5) : (imm5Value n).toNat = n.toNat :=
  BitVec.toNat_setWidth_of_le (by decide)

/-- OIMM5 is the field plus one (R107). -/
theorem oimm5Value_toNat (n : BitVec 5) : (oimm5Value n).toNat = n.toNat + 1 := by
  simp only [oimm5Value]
  bv_omega

/-! ## Results as exact integers, cut to 32 bits (R148) -/

section

variable (x y : Word)

theorem ofInt_sub {n : Nat} (a b : Int) : BitVec.ofInt n (a - b) = BitVec.ofInt n a - BitVec.ofInt n b := by
  rw [Int.sub_eq_add_neg, BitVec.ofInt_add, BitVec.ofInt_neg, BitVec.sub_eq_add_neg]

theorem ofInt_toNat : BitVec.ofInt 32 (x.toNat : Int) = x := by
  rw [BitVec.ofInt_natCast, BitVec.ofNat_toNat, BitVec.setWidth_eq]

theorem sub_eq_ofInt : x - y = BitVec.ofInt 32 ((x.toNat : Int) - y.toNat) := by
  rw [ofInt_sub, ofInt_toNat, ofInt_toNat]

theorem sub_one_eq_ofInt : x - 1 = BitVec.ofInt 32 (x.toInt - 1) := by
  rw [ofInt_sub, BitVec.ofInt_toInt]
  rfl

theorem add_one_eq_ofNat : x + 1 = BitVec.ofNat 32 (x.toNat + 1) := BitVec.add_def x 1

theorem add_oimm5Value (n : BitVec 5) : x + oimm5Value n = BitVec.ofNat 32 (x.toNat + (n.toNat + 1)) := by
  rw [BitVec.add_def, oimm5Value_toNat]

theorem sub_oimm5Value (n : BitVec 5) :
    x - oimm5Value n = BitVec.ofInt 32 ((x.toNat : Int) - (n.toNat + 1)) := by
  rw [sub_eq_ofInt, oimm5Value_toNat, Nat.cast_add_one]

theorem imm5Value_sub (n : BitVec 5) : imm5Value n - x = BitVec.ofInt 32 ((n.toNat : Int) - x.toNat) := by
  rw [sub_eq_ofInt, imm5Value_toNat]

/-- The low 32 bits of the unsigned product (R147). -/
theorem mul_eq_ofNat : x * y = BitVec.ofNat 32 (x.toNat * y.toNat) := by
  rw [BitVec.ofNat_mul, BitVec.ofNat_toNat, BitVec.ofNat_toNat, BitVec.setWidth_eq, BitVec.setWidth_eq]

/-- The low 32 bits of the signed product are the same (R147). -/
theorem mul_eq_ofInt : x * y = BitVec.ofInt 32 (x.toInt * y.toInt) := by
  rw [BitVec.ofInt_mul, BitVec.ofInt_toInt, BitVec.ofInt_toInt]

/-- Indexing adds a register scaled by a power of two (R154, R155). -/
theorem add_shiftLeft_eq_ofNat (k : Nat) : x + (y <<< k) = BitVec.ofNat 32 (x.toNat + 2 ^ k * y.toNat) := by
  apply BitVec.eq_of_toNat_eq
  simp [Nat.shiftLeft_eq, Nat.mul_comm]

end

/-! ## Signs and zero (R150, R160 to R162) -/

section

variable (x : Word)

theorem ltZero_eq : ltZero x = decide (x.toInt < 0) := by
  rw [ltZero, ← BitVec.msb_eq_toInt, BitVec.msb_eq_getLsbD_last]

theorem gtZero_eq : gtZero x = decide (0 < x.toInt) := by
  rw [gtZero, BitVec.slt_eq_decide, BitVec.toInt_zero]

theorem neZero_eq : neZero x = decide (x.toNat ≠ 0) := by
  rw [Bool.eq_iff_iff, decide_eq_true_iff, neZero, bne_iff_ne, ne_eq, BitVec.toNat_eq]
  rfl

/-- The most negative number is its own absolute value: 2^31 cut to 32 bits (R150). -/
theorem abs_eq_ofNat : (if ltZero x then 0#32 - x else x) = BitVec.ofNat 32 x.toInt.natAbs := by
  rw [← BitVec.ofInt_natCast 32 x.toInt.natAbs, ltZero_eq]
  by_cases h : x.toInt < 0
  · rw [if_pos (decide_eq_true h), Int.ofNat_natAbs_of_nonpos h.le, BitVec.ofInt_neg, BitVec.ofInt_toInt,
      BitVec.zero_sub]
  · rw [if_neg (by simpa using h), Int.natAbs_of_nonneg (not_lt.1 h), BitVec.ofInt_toInt]

end

/-! ## Sums and differences of 33 bits (R140, R144) -/

section

variable (x y : Word) (c : Bool)

theorem low32_eq (d : BitVec 33) : low32 d = BitVec.ofNat 32 d.toNat := by
  rw [low32, BitVec.extractLsb', Nat.shiftRight_zero]

theorem carryOut_eq (d : BitVec 33) : carryOut d = decide (2 ^ 32 ≤ d.toNat) :=
  (BitVec.msb_eq_getLsbD_last d).symm.trans (BitVec.msb_eq_decide d)

/-- A sum of two words and a carry fits 33 bits. -/
theorem add33_toNat : (add33 x y c).toNat = x.toNat + y.toNat + c.toNat := by
  have hc : c.toNat < 2 := c.toNat_lt
  simp only [add33, BitVec.toNat_add, BitVec.toNat_setWidth, BitVec.toNat_ofBool]
  omega

/-- The 33-bit difference exceeds the exact one by 2^32: it carries out where nothing is borrowed. -/
theorem sub33_toNat :
    ((sub33 x y c).toNat : Int) = (x.toNat : Int) - y.toNat - (1 - c.toNat : Nat) + 2 ^ 32 := by
  have hc : c.toNat < 2 := c.toNat_lt
  rw [sub33, add33_toNat, BitVec.toNat_not]
  omega

theorem low32_sub33 :
    low32 (sub33 x y c) = BitVec.ofInt 32 ((x.toNat : Int) - y.toNat - (1 - c.toNat : Nat)) := by
  rw [low32_eq, ← BitVec.ofInt_natCast, sub33_toNat, BitVec.ofInt_add]
  exact BitVec.add_zero _

theorem carryOut_sub33 : carryOut (sub33 x y c) = decide (y.toNat + (1 - c.toNat) ≤ x.toNat) := by
  have h := sub33_toNat x y c
  rw [carryOut_eq, decide_eq_decide]
  omega

end

/-! ## Completed divides (R151 to R153) -/

theorem State.divide_completes {s : State} (h : s.reg r1 ≠ 0) (rx : Reg) (q : Word) (n : Nat) :
    s.divide rx q n = (s.drawn (n + 1)).completeRegC rx q (Config.freeBit s.free) :=
  if_neg h

theorem signedOverflow_iff (x y : Word) :
    signedOverflow x y = true ↔ x = 0x80000000#32 ∧ y = 0xFFFFFFFF#32 := by
  simp [signedOverflow]

/-- A divide whose quotient is `q` completes with it where the divisor is not zero; C is a free value. -/
theorem WritesRegAndC.of_divide {i : Instr} {s : State} {rx : Reg} {q w : Word} {n : Nat}
    (h : s.reg r1 ≠ 0) (he : exec i s = s.divide rx q n) (hq : q = w) : ∃ c, WritesRegAndC i s rx w c :=
  ⟨_, .of_complete_drawn (by rw [he, hq, State.divide_completes h])⟩

theorem exec_divs_exact (rx : Reg) {s : State}
    (h : ¬ (s.reg rx = 0x80000000#32 ∧ s.reg r1 = 0xFFFFFFFF#32)) :
    exec (.divs rx) s = s.divide rx (signedQuotient (s.reg rx) (s.reg r1)) 0 :=
  if_neg (mt (signedOverflow_iff _ _).1 h)

theorem exec_divs_overflow (rx : Reg) {s : State}
    (h : s.reg rx = 0x80000000#32 ∧ s.reg r1 = 0xFFFFFFFF#32) :
    exec (.divs rx) s = s.divide rx (Config.freeWord s.free) 1 :=
  if_pos ((signedOverflow_iff _ _).2 h)

/-! ## The obligations -/

/-- Settles O5: each instruction is one completion with a value that is the exact integer, cut to 32 bits. -/
theorem addSubtractAbsResults : Obligations.AddSubtractAbsResults := by
  intro s ry rx n x y
  refine ⟨⟨?addu, .of_pageRyRx rfl rfl rfl⟩, ⟨?subu, .of_pageRyRx rfl rfl rfl⟩,
    ⟨?rsub, .of_pageRyRx rfl rfl rfl⟩, ⟨?addi, .of_pageImm5Rx rfl rfl rfl⟩,
    ⟨?subi, .of_pageImm5Rx rfl rfl rfl⟩, ⟨?rsubi, .of_pageImm5Rx rfl rfl rfl⟩,
    ⟨?abs, .of_pageRx rfl rfl rfl⟩⟩
  case addu => exact .of_complete_eq rfl (BitVec.add_def x y)
  case subu => exact .of_complete_eq rfl (sub_eq_ofInt x y)
  case rsub => exact .of_complete_eq rfl (sub_eq_ofInt y x)
  case addi => exact .of_complete_eq rfl (add_oimm5Value x n)
  case subi => exact .of_complete_eq rfl (sub_oimm5Value x n)
  case rsubi => exact .of_complete_eq rfl (imm5Value_sub x n)
  case abs => exact .of_complete_eq rfl (abs_eq_ofNat x)

/-- Settles O6: the sum of `addc` is the 33-bit one, and the tests are of the decremented register. -/
theorem addWithCarryAndDecrementTestResults : Obligations.AddWithCarryAndDecrementTestResults := by
  intro s ry rx x sum less
  have hsum : (add33 x (s.reg ry) s.psr.c).toNat = sum := add33_toNat ..
  have hless : x - 1 = less := sub_one_eq_ofInt x
  refine ⟨⟨?addc, .of_pageRyRx rfl rfl rfl⟩, ⟨?declt, .of_pageRx rfl rfl rfl⟩,
    ⟨?decne, .of_pageRx rfl rfl rfl⟩⟩
  case addc => exact .of_complete_eq rfl (hsum ▸ low32_eq _) (hsum ▸ carryOut_eq _)
  case declt => exact .of_complete_eq rfl hless (hless ▸ ltZero_eq _)
  case decne => exact .of_complete_eq rfl hless (hless ▸ neZero_eq _)

/-- Settles O7: the difference of `subc` is the 33-bit one, whose carry says that nothing is borrowed. -/
theorem subcDecgtMultiplyIndexResults : Obligations.SubcDecgtMultiplyIndexResults := by
  intro s ry rx x y borrow less
  have hless : x - 1 = less := sub_one_eq_ofInt x
  refine ⟨?subc, ?decgt, ?mult_unsigned, ?mult_signed, ?ixh, ?ixw⟩
  case subc => exact .of_complete_eq rfl (low32_sub33 x y _) (carryOut_sub33 x y _)
  case decgt => exact .of_complete_eq rfl hless (hless ▸ gtZero_eq _)
  case mult_unsigned => exact .of_complete_eq rfl (mul_eq_ofNat x y)
  case mult_signed => exact .of_complete_eq rfl (mul_eq_ofInt x y)
  case ixh => exact .of_complete_eq rfl (add_shiftLeft_eq_ofNat x y 1)
  case ixw => exact .of_complete_eq rfl (add_shiftLeft_eq_ofNat x y 2)

/-- Settles O8: with a divisor that is not zero both divides complete, the overflowing one with a free
quotient. -/
theorem divideResults : Obligations.DivideResults := by
  intro s rx hr1 x y
  refine ⟨?divu, fun hxy => ?divs, fun hxy => ?overflow⟩
  case divu => exact WritesRegAndC.of_divide hr1 rfl BitVec.udiv_def
  case divs => exact WritesRegAndC.of_divide hr1 (exec_divs_exact rx hxy) rfl
  case overflow => exact ⟨_, WritesRegAndC.of_divide hr1 (exec_divs_overflow rx hxy) rfl⟩

/-- Settles O10: four instructions act where C is set and four where it is clear. -/
theorem conditionalInstructionResults : Obligations.ConditionalInstructionResults := by
  intro s ry rx x c
  refine ⟨⟨?inct, .of_pageRx rfl rfl rfl⟩, ⟨?incf, .of_pageRx rfl rfl rfl⟩,
    ⟨?dect, .of_pageRx rfl rfl rfl⟩, ⟨?decf, .of_pageRx rfl rfl rfl⟩,
    ⟨?movt, .of_pageRyRx rfl rfl rfl⟩, ⟨?movf, .of_pageRyRx rfl rfl rfl⟩,
    ⟨?clrt, .of_pageRx rfl rfl rfl⟩, ⟨?clrf, .of_pageRx rfl rfl rfl⟩⟩
  case inct => exact .of_completeIf_eq rfl (add_one_eq_ofNat x)
  case incf => exact .of_completeUnless_eq rfl (add_one_eq_ofNat x)
  case dect => exact .of_completeIf_eq rfl (sub_one_eq_ofInt x)
  case decf => exact .of_completeUnless_eq rfl (sub_one_eq_ofInt x)
  case movt => exact .of_completeIf_eq rfl rfl
  case movf => exact .of_completeUnless_eq rfl rfl
  case clrt => exact .of_completeIf_eq rfl rfl
  case clrf => exact .of_completeUnless_eq rfl rfl

end Sys2Proof.Machine
end

section
/-! Logic and single bits: the results bit by bit, the counts of `ff1`, their words, and what each instruction
leaves alone. -/

namespace Sys2Proof.Machine

/-! ## The bits of a word, operation by operation -/

section

variable {v w : Word} {f g : Nat → Bool}

theorem hasBits_getLsbD (v : Word) : HasBits v v.getLsbD := fun _ _ => rfl

theorem HasBits.and (hv : HasBits v f) (hw : HasBits w g) : HasBits (v &&& w) (fun k => f k && g k) :=
  fun k hk => by rw [BitVec.getLsbD_and, hv k hk, hw k hk]

theorem HasBits.or (hv : HasBits v f) (hw : HasBits w g) : HasBits (v ||| w) (fun k => f k || g k) :=
  fun k hk => by rw [BitVec.getLsbD_or, hv k hk, hw k hk]

theorem HasBits.xor (hv : HasBits v f) (hw : HasBits w g) : HasBits (v ^^^ w) (fun k => f k != g k) :=
  fun k hk => by rw [BitVec.getLsbD_xor, hv k hk, hw k hk]

theorem HasBits.not (hv : HasBits v f) : HasBits (~~~v) (fun k => !f k) :=
  fun k hk => by rw [BitVec.getLsbD_not, hv k hk, decide_eq_true hk, Bool.true_and]

theorem HasBits.reverse (hv : HasBits v f) : HasBits v.reverse (fun k => f (31 - k)) := fun k hk => by
  rw [BitVec.getLsbD_reverse, BitVec.getMsbD_eq_getLsbD, decide_eq_true hk, Bool.true_and]
  exact hv _ (by omega)

theorem WritesBits.of_complete {i : Instr} {s : State} {d : Reg} (h : exec i s = s.completeReg d v)
    (hv : HasBits v f) : WritesBits i s d f :=
  ⟨v, hv, WritesReg.of_complete h⟩

end

/-! ## Immediates, single bits and masks (R106, R179 to R181) -/

theorem imm5Value_hasBits (n : BitVec 5) : HasBits (imm5Value n) (fun k => decide (k < 5) && n.getLsbD k) := by
  intro k hk
  rw [imm5Value, BitVec.getLsbD_setWidth, decide_eq_true hk, Bool.true_and]
  by_cases h : k < 5
  · simp [h]
  · simp [h, BitVec.getLsbD_of_ge n k (not_lt.1 h)]

theorem oneBit_eq_twoPow (n : BitVec 5) : oneBit n = BitVec.twoPow 32 n.toNat := (BitVec.twoPow_eq ..).symm

theorem oneBit_hasBits (n : BitVec 5) : HasBits (oneBit n) (fun k => k == n.toNat) := by
  intro k _
  have hn : n.toNat < 32 := n.isLt
  rw [oneBit_eq_twoPow, BitVec.getLsbD_twoPow, decide_eq_true hn, Bool.true_and]
  exact decide_eq_decide.2 eq_comm

theorem generatedBit_hasBits (y : Word) :
    HasBits (generatedBit y) (fun k => !y.getLsbD 5 && k == y.toNat % 32) := by
  intro k hk
  have hfield : (y.extractLsb' 0 5).toNat = y.toNat % 32 := BitVec.extractLsb'_toNat ..
  rw [generatedBit, ← hfield]
  cases y.getLsbD 5
  · exact oneBit_hasBits _ k hk
  · exact BitVec.getLsbD_zero

/-- One less than a power of two is a run of ones below it. -/
theorem oneBit_sub_one_hasBits (n : BitVec 5) : HasBits (oneBit n - 1#32) (fun k => decide (k < n.toNat)) := by
  intro k _
  have hpow : (oneBit n).toNat = 2 ^ n.toNat := by
    rw [oneBit_eq_twoPow, BitVec.toNat_twoPow_of_lt n.isLt]
  have hle : 1#32 ≤ oneBit n := by
    rw [BitVec.le_def, hpow]
    exact Nat.one_le_two_pow
  rw [← BitVec.testBit_toNat, BitVec.toNat_sub_of_le hle, hpow]
  exact Nat.testBit_two_pow_sub_one ..

theorem maskOf_hasBits (n : BitVec 5) :
    HasBits (maskOf n) (fun k => n.toNat == 0 || decide (k < n.toNat)) := by
  by_cases h : n = 0#5
  · subst h
    intro k hk
    exact (BitVec.getLsbD_allOnes (v := 32)).trans (decide_eq_true hk)
  · have hn : (n.toNat == 0) = false := beq_eq_false_iff_ne.2 fun h0 => h (BitVec.eq_of_toNat_eq h0)
    simpa only [maskOf, if_neg h, hn, Bool.false_or] using oneBit_sub_one_hasBits n

theorem bitNumberOk_iff (n : BitVec 5) : bitNumberOk n = true ↔ 7 ≤ n.toNat := by
  rw [bitNumberOk, decide_eq_true_iff, BitVec.le_def]
  rfl

theorem maskWidthOk_iff (n : BitVec 5) : maskWidthOk n = true ↔ n.toNat = 0 ∨ 8 ≤ n.toNat := by
  rw [maskWidthOk, Bool.or_eq_true, beq_iff_eq, decide_eq_true_iff, BitVec.le_def, BitVec.toNat_eq]
  rfl

/-! ## The bits above the highest set one (R183) -/

section

variable (x : Word)

theorem clearAbove_of_set {n : Nat} (h : x.getLsbD n = true) : clearAbove x (n + 1) = 0 := if_pos h

theorem clearAbove_of_clear {n : Nat} (h : x.getLsbD n = false) :
    clearAbove x (n + 1) = clearAbove x n + 1 := if_neg (by simp [h])

theorem clearAbove_le (n : Nat) : clearAbove x n ≤ n := by
  induction n with
  | zero => exact le_rfl
  | succ n ih =>
    cases h : x.getLsbD n
    · rw [clearAbove_of_clear x h]
      exact Nat.succ_le_succ ih
    · rw [clearAbove_of_set x h]
      exact Nat.zero_le _

/-- The bits that are counted are clear. -/
theorem getLsbD_of_lt_clearAbove {n k : Nat} (hk : k < clearAbove x n) : x.getLsbD (n - 1 - k) = false := by
  induction n generalizing k with
  | zero => exact absurd hk (Nat.not_lt_zero k)
  | succ n ih =>
    cases h : x.getLsbD n
    · rw [clearAbove_of_clear x h] at hk
      cases k with
      | zero => exact h
      | succ k =>
        have hsub : n + 1 - 1 - (k + 1) = n - 1 - k := by omega
        rw [hsub]
        exact ih (Nat.lt_of_succ_lt_succ hk)
    · rw [clearAbove_of_set x h] at hk
      exact absurd hk (Nat.not_lt_zero k)

/-- The count ends at a set bit, unless no bit is left. -/
theorem getLsbD_clearAbove {n : Nat} (hn : clearAbove x n < n) :
    x.getLsbD (n - 1 - clearAbove x n) = true := by
  induction n with
  | zero => exact absurd hn (Nat.not_lt_zero _)
  | succ n ih =>
    cases h : x.getLsbD n
    · rw [clearAbove_of_clear x h] at hn ⊢
      have hsub : n + 1 - 1 - (clearAbove x n + 1) = n - 1 - clearAbove x n := by omega
      rw [hsub]
      exact ih (Nat.lt_of_succ_lt_succ hn)
    · rw [clearAbove_of_set x h]
      exact h

end

/-! ## The obligations -/

/-- Settles O11: each instruction is one completion with the operation of its page, taken bit by bit. -/
theorem logicResults : Obligations.LogicResults := by
  intro s ry rx n x y
  have hx : HasBits (s.reg rx) x := hasBits_getLsbD _
  have hy : HasBits (s.reg ry) y := hasBits_getLsbD _
  refine ⟨⟨?andi, .of_pageImm5Rx rfl rfl rfl⟩, ⟨?andn, .of_pageRyRx rfl rfl rfl⟩,
    ⟨?or, .of_pageRyRx rfl rfl rfl⟩, ⟨?xor, .of_pageRyRx rfl rfl rfl⟩, ⟨?not, .of_pageRx rfl rfl rfl⟩⟩
  case andi =>
    simp only [Bool.and_assoc]
    exact .of_complete rfl (hx.and (imm5Value_hasBits n))
  case andn => exact .of_complete rfl (hx.and hy.not)
  case or => exact .of_complete rfl (hx.or hy)
  case xor => exact .of_complete rfl (hx.xor hy)
  case not => exact .of_complete rfl hx.not

/-- Settles O12, the operations of `and` and `brev` bit by bit. -/
theorem andMoveReverseResults : Obligations.AndMoveReverseResults := by
  intro s ry rx
  have hx : HasBits (s.reg rx) (s.reg rx).getLsbD := hasBits_getLsbD _
  refine ⟨?and, ?mov, ?brev⟩
  case and => exact .of_complete rfl (hx.and (hasBits_getLsbD _))
  case mov => exact .of_complete rfl
  case brev => exact .of_complete rfl hx.reverse

/-- Settles O13: the masks are made of the one bit that the field or register Y names; `bgeni` and `bmaski`
have a word of their own for the fields they exist for. -/
theorem singleBitResults : Obligations.SingleBitResults := by
  intro s ry rx n x y
  have hx : HasBits (s.reg rx) x := hasBits_getLsbD _
  refine ⟨⟨?bclri, .of_pageImm5Rx rfl rfl rfl⟩, ⟨?bseti, .of_pageImm5Rx rfl rfl rfl⟩,
    ⟨?btsti, .of_pageImm5Rx rfl rfl rfl⟩, ⟨?bgenr, .of_pageRyRx rfl rfl rfl⟩,
    fun hn => ⟨?bgeni, .of_pageImm5Rx ((bitNumberOk_iff n).2 hn) rfl rfl⟩,
    fun hn => ⟨?bmaski, .of_pageImm5Rx ((maskWidthOk_iff n).2 hn) rfl rfl⟩⟩
  case bclri => exact .of_complete rfl (hx.and (oneBit_hasBits n).not)
  case bseti => exact .of_complete rfl (hx.or (oneBit_hasBits n))
  case btsti => exact .of_complete rfl
  case bgenr => exact .of_complete rfl (generatedBit_hasBits y)
  case bgeni => exact .of_complete rfl (oneBit_hasBits n)
  case bmaski => exact .of_complete rfl (maskOf_hasBits n)

/-- Settles O14: the count from bit 31 down is the number of clear bits above the highest set one. -/
theorem findFirstOneCounts : Obligations.FindFirstOneCounts := by
  intro s rx
  let x := s.reg rx
  exact ⟨.of_pageRx rfl rfl rfl, clearAbove x 32, clearAbove_le x 32,
    fun _ => getLsbD_of_lt_clearAbove x, getLsbD_clearAbove x, .of_complete rfl⟩

end Sys2Proof.Machine
end

section
/-! Shifts and the rotate: where each bit of the result comes from, the words of the instructions, and what each
leaves alone. -/

namespace Sys2Proof.Machine

/-! ## The bits of a shifted word -/

section

variable {v : Word} {f g : Nat → Bool}

/-- Only the bits of the word count. -/
theorem HasBits.congr (hv : HasBits v f) (h : ∀ k < 32, f k = g k) : HasBits v g :=
  fun k hk => (hv k hk).trans (h k hk)

theorem HasBits.shiftLeft (hv : HasBits v f) (m : Nat) :
    HasBits (v <<< m) (fun k => decide (m ≤ k) && f (k - m)) := by
  intro k hk
  rw [BitVec.getLsbD_shiftLeft, decide_eq_true hk, Bool.true_and, hv _ (by omega : k - m < 32), ← decide_not,
    decide_eq_decide.2 not_lt]

theorem HasBits.ushiftRight (hv : HasBits v f) (m : Nat) :
    HasBits (v >>> m) (fun k => decide (k + m < 32) && f (k + m)) := by
  intro k _
  beta_reduce
  rw [BitVec.getLsbD_ushiftRight, Nat.add_comm m k]
  by_cases h : k + m < 32
  · rw [decide_eq_true h, Bool.true_and, hv _ h]
  · rw [decide_eq_false h, Bool.false_and, BitVec.getLsbD_of_ge v _ (not_lt.1 h)]

theorem HasBits.sshiftRight (hv : HasBits v f) (m : Nat) :
    HasBits (v.sshiftRight m) (fun k => if k + m < 32 then f (k + m) else f 31) := by
  intro k hk
  beta_reduce
  rw [BitVec.getLsbD_sshiftRight, decide_eq_false (not_le.2 hk), Bool.not_false, Bool.true_and, Nat.add_comm m k]
  by_cases h : k + m < 32
  · rw [if_pos h, if_pos h, hv _ h]
  · rw [if_neg h, if_neg h, BitVec.msb_eq_getLsbD_last, hv 31 (by decide)]

/-- A rotate is the union of the two shifts: the bits below the amount come from the top. -/
theorem HasBits.rotateLeft (hv : HasBits v f) {m : Nat} (hm : m < 32) :
    HasBits (v <<< m ||| v >>> (32 - m)) (fun k => f ((k + 32 - m) % 32)) := by
  refine ((hv.shiftLeft m).or (hv.ushiftRight (32 - m))).congr fun k hk => ?_
  by_cases h : m ≤ k
  · have hleft : (k + 32 - m) % 32 = k - m := by omega
    have hright : ¬ k + (32 - m) < 32 := by omega
    simp [h, hleft, hright]
  · have hright : (k + 32 - m) % 32 = k + (32 - m) := by omega
    have hlt : k + (32 - m) < 32 := by omega
    simp [h, hright, hlt]

/-- The bits move down by one and `c` enters at the top (R200). -/
theorem HasBits.shiftIn (hv : HasBits v f) (c : Bool) :
    HasBits (BitVec.ofBool c ++ v.extractLsb' 1 31) (fun k => if k = 31 then c else f (k + 1)) := by
  intro k hk
  beta_reduce
  rw [BitVec.getLsbD_append]
  by_cases h : k = 31
  · subst h
    exact BitVec.getLsbD_ofBool c 0
  · have hlt : k < 31 := by omega
    rw [if_pos hlt, if_neg h, BitVec.getLsbD_extractLsb', decide_eq_true hlt, Bool.true_and, Nat.add_comm 1 k,
      hv _ (by omega)]

theorem WritesBitsAndC.of_complete {i : Instr} {s : State} {d : Reg} {c : Bool}
    (h : exec i s = s.completeRegC d v c) (hv : HasBits v f) : WritesBitsAndC i s d f c :=
  ⟨v, hv, WritesRegAndC.of_complete h⟩

end

/-! ## Shift amounts -/

/-- The amount is bits 5:0 of register Y (R190, R193, R196). -/
theorem State.shiftCount_eq (s : State) (ry : Reg) : s.shiftCount ry = (s.reg ry).toNat % 64 :=
  BitVec.extractLsb'_toNat ..

theorem shiftCountOk_iff (n : BitVec 5) : shiftCountOk n = true ↔ 1 ≤ n.toNat := by
  rw [shiftCountOk, bne_iff_ne, ne_eq, BitVec.toNat_eq, Nat.one_le_iff_ne_zero]
  rfl

/-! ## The obligations -/

/-- Settles O15: each instruction is one completion with the shift of its page, taken bit by bit; the immediate
forms have a word of their own for the amounts they exist for. -/
theorem shiftResults : Obligations.ShiftResults := by
  intro s ry rx n x m
  have hx : HasBits (s.reg rx) x := hasBits_getLsbD _
  have hm : s.shiftCount ry = m := s.shiftCount_eq ry
  refine ⟨⟨?lsl, .of_pageRyRx rfl rfl rfl⟩, ⟨?lsr, .of_pageRyRx rfl rfl rfl⟩, ⟨?lslc, .of_pageRx rfl rfl rfl⟩,
    ⟨?xsr, .of_pageRx rfl rfl rfl⟩, fun hn => ?immediate⟩
  case lsl =>
    rw [← hm]
    exact .of_complete rfl (hx.shiftLeft _)
  case lsr =>
    rw [← hm]
    exact .of_complete rfl (hx.ushiftRight _)
  case lslc => exact .of_complete rfl (hx.shiftLeft 1)
  case xsr => exact .of_complete rfl (hx.shiftIn s.psr.c)
  case immediate =>
    have hwf : shiftCountOk n = true := (shiftCountOk_iff n).2 hn
    refine ⟨⟨?lsli, .of_pageImm5Rx hwf rfl rfl⟩, ⟨?lsri, .of_pageImm5Rx hwf rfl rfl⟩,
      ⟨?rotli, .of_pageImm5Rx hwf rfl rfl⟩⟩
    case lsli => exact .of_complete rfl (hx.shiftLeft _)
    case lsri => exact .of_complete rfl (hx.ushiftRight _)
    case rotli => exact .of_complete rfl (hx.rotateLeft n.isLt)

/-- Settles O16: each instruction is one completion with a right shift; `asrc` and `lsrc` shift by one and write
the bit shifted out to C. -/
theorem arithmeticShiftResults : Obligations.ArithmeticShiftResults := by
  intro s ry rx n x m
  have hx : HasBits (s.reg rx) x := hasBits_getLsbD _
  have hm : s.shiftCount ry = m := s.shiftCount_eq ry
  refine ⟨?asr, fun _ => ?asri, ?asrc, ?lsrc⟩
  case asr =>
    rw [← hm]
    exact .of_complete rfl (hx.sshiftRight _)
  case asri => exact .of_complete rfl (hx.sshiftRight _)
  case asrc =>
    refine .of_complete rfl ((hx.sshiftRight 1).congr fun k hk => ?_)
    by_cases h : k = 31
    · simp [h]
    · have hlt : k + 1 < 32 := by omega
      rw [if_pos hlt, if_neg h]
  case lsrc =>
    refine .of_complete rfl ((hx.ushiftRight 1).congr fun k _ => ?_)
    rw [decide_eq_decide.2 (Nat.add_lt_add_iff_right : k + 1 < 31 + 1 ↔ k < 31)]

end Sys2Proof.Machine
end

section
/-! Moves, extensions, byte extraction, compares and tests: the values as numbers, the words of the instructions,
and what each leaves alone. -/

namespace Sys2Proof.Machine

/-! ## The word of `movi` (R233) -/

/-- Each bit of the word lies in one of the three fields of the IMM7 format. -/
theorem pageImm7Rx_eq (op : BitVec 5) (n : BitVec 7) (rx : Reg) :
    (op ++ 0#11) ||| (n.setWidth 16 <<< 4) ||| rx.setWidth 16 = imm7Word op n rx := by
  refine BitVec.eq_of_getLsbD_eq fun i hi => ?_
  simp only [imm7Word, BitVec.getLsbD_or, BitVec.getLsbD_append, BitVec.getLsbD_setWidth,
    BitVec.getLsbD_shiftLeft]
  by_cases hrx : i < 4
  · have hlow : i < 11 := by omega
    simp [hrx, hlow, hi]
  have hx : rx.getLsbD i = false := BitVec.getLsbD_of_ge rx i (not_lt.1 hrx)
  by_cases hn : i < 11
  · have hmid : i - 4 < 7 := by omega
    have hfit : i - 4 < 16 := by omega
    simp [hrx, hx, hn, hmid, hfit, hi]
  · have hhigh : 7 ≤ i - 4 := by omega
    have hop : i - 4 - 7 = i - 11 := by omega
    simp [hrx, hx, hn, hhigh, hop]

/-! ## C and the low end of a register, extended (R215 to R220) -/

theorem setWidth_ofBool (c : Bool) : (BitVec.ofBool c).setWidth 32 = if c then 1#32 else 0#32 := by
  cases c
  · rfl
  · rfl

theorem setWidth_ofBool_not (c : Bool) : (BitVec.ofBool !c).setWidth 32 = if c then 0#32 else 1#32 := by
  cases c
  · rfl
  · rfl

theorem zeroExtend_low (x : Word) (m : Nat) :
    (x.extractLsb' 0 m).setWidth 32 = BitVec.ofNat 32 (x.toNat % 2 ^ m) := by
  rw [← BitVec.ofNat_toNat, BitVec.extractLsb'_toNat, Nat.shiftRight_zero]

theorem signExtend_low (x : Word) (m : Nat) :
    (x.extractLsb' 0 m).signExtend 32 = BitVec.ofInt 32 (BitVec.ofNat m x.toNat).toInt := by
  rw [BitVec.signExtend, BitVec.extractLsb', Nat.shiftRight_zero]

/-! ## Inequality of words and of bytes (R228, R229) -/

theorem bne_eq_decide_toNat {n : Nat} (x y : BitVec n) : (x != y) = decide (x.toNat ≠ y.toNat) := by
  rw [Bool.eq_iff_iff, bne_iff_ne, decide_eq_true_iff, BitVec.toNat_ne]

theorem bne_zero_eq {n : Nat} (x : BitVec n) : (x != 0#n) = decide (x.toNat ≠ 0) := by
  rw [bne_eq_decide_toNat, BitVec.toNat_zero]

/-! ## The bytes of a word, byte 0 the most significant (R221 to R224, R232) -/

theorem byteOf_toNat (x : Word) (k : Nat) :
    (byteOf x k).toNat = x.toNat / 2 ^ (8 * (3 - k)) % 2 ^ 8 := by
  rw [byteOf, BitVec.extractLsb'_toNat, Nat.shiftRight_eq_div_pow]

theorem noZeroByte_eq (x : Word) :
    noZeroByte x = decide ((byteOf x 0).toNat ≠ 0 ∧ (byteOf x 1).toNat ≠ 0 ∧ (byteOf x 2).toNat ≠ 0 ∧
      (byteOf x 3).toNat ≠ 0) := by
  simp only [noZeroByte, bne_zero_eq, Bool.decide_and, Bool.and_assoc]

/-- The byte goes to R1 as a number, and C says whether the number is zero. -/
theorem WritesRegAndC.of_extractByte {i : Instr} {s : State} {k b : Nat} {rx : Reg}
    (h : exec i s = s.extractByte k rx) (hb : (byteOf (s.reg rx) k).toNat = b) :
    WritesRegAndC i s r1 (BitVec.ofNat 32 b) (decide (b ≠ 0)) :=
  .of_complete_eq h (by rw [← hb, BitVec.ofNat_toNat]) (by rw [← hb, bne_zero_eq])

/-! ## Order, and bits in common (R225 to R227, R231) -/

theorem higherSame_eq (x y : Word) : higherSame x y = decide (y.toNat ≤ x.toNat) :=
  BitVec.ule_eq_decide

theorem signedLess_eq (x y : Word) : signedLess x y = decide (x.toInt < y.toInt) :=
  BitVec.slt_eq_decide

/-- The operand of `cmplti` is 1 to 32, so it is the same number signed and unsigned. -/
theorem oimm5Value_toInt (n : BitVec 5) : (oimm5Value n).toInt = n.toNat + 1 := by
  have hn : n.toNat < 32 := n.isLt
  have hv : (oimm5Value n).toNat = n.toNat + 1 := oimm5Value_toNat n
  rw [BitVec.toInt_eq_toNat_of_lt (by omega), hv, Nat.cast_add_one]

theorem commonBit_iff (x y : Word) :
    commonBit x y = true ↔ ∃ k, x.getLsbD k = true ∧ y.getLsbD k = true := by
  rw [commonBit, bne_iff_ne]
  constructor
  · intro hne
    by_contra hno
    refine hne (BitVec.eq_of_getLsbD_eq fun k _ => ?_)
    rw [BitVec.getLsbD_and, BitVec.getLsbD_zero, Bool.eq_false_iff, ne_eq, Bool.and_eq_true]
    exact fun hk => hno ⟨k, hk⟩
  · rintro ⟨k, hx, hy⟩ hzero
    have hk : (x &&& y).getLsbD k = true := by rw [BitVec.getLsbD_and, hx, hy, Bool.and_self]
    rw [hzero, BitVec.getLsbD_zero] at hk
    exact Bool.false_ne_true hk

/-- A compare or test that writes a flag given in another form. -/
theorem WritesC.of_complete_eq {i : Instr} {s : State} {b c : Bool} (h : exec i s = s.completeC b)
    (hc : b = c) : WritesC i s c :=
  hc ▸ .of_complete h

/-! ## The obligations -/

/-- Settles O17: each instruction is one completion with its value as a number. -/
theorem moveAndExtendResults : Obligations.MoveAndExtendResults := by
  intro s rx n x
  refine ⟨⟨?movi, .of_page rfl (pageImm7Rx_eq 0x0C#5 n rx)⟩, ⟨?mvc, .of_pageRx rfl rfl rfl⟩,
    ⟨?mvcv, .of_pageRx rfl rfl rfl⟩, ⟨?sextb, .of_pageRx rfl rfl rfl⟩, ⟨?sexth, .of_pageRx rfl rfl rfl⟩,
    ⟨?zextb, .of_pageRx rfl rfl rfl⟩, ⟨?zexth, .of_pageRx rfl rfl rfl⟩⟩
  case movi => exact .of_complete_eq rfl (BitVec.ofNat_toNat 32 n).symm
  case mvc => exact .of_complete_eq rfl (setWidth_ofBool s.psr.c)
  case mvcv => exact .of_complete_eq rfl (setWidth_ofBool_not s.psr.c)
  case sextb => exact .of_complete_eq rfl (signExtend_low x 8)
  case sexth => exact .of_complete_eq rfl (signExtend_low x 16)
  case zextb => exact .of_complete_eq rfl (zeroExtend_low x 8)
  case zexth => exact .of_complete_eq rfl (zeroExtend_low x 16)

/-- Settles O18: the four instructions extract the four bytes, the most significant first. -/
theorem byteExtractionResults : Obligations.ByteExtractionResults := by
  intro s rx byte
  have hbyte : ∀ k, (byteOf (s.reg rx) k).toNat = byte (3 - k) := byteOf_toNat (s.reg rx)
  exact ⟨⟨.of_extractByte rfl (hbyte 0), .of_pageRx rfl rfl rfl⟩,
    ⟨.of_extractByte rfl (hbyte 1), .of_pageRx rfl rfl rfl⟩,
    ⟨.of_extractByte rfl (hbyte 2), .of_pageRx rfl rfl rfl⟩,
    ⟨.of_extractByte rfl (hbyte 3), .of_pageRx rfl rfl rfl⟩⟩

/-- Settles O19: each instruction is one completion that writes C alone; the flag of `tst` is characterised by the
set bits that the registers share. -/
theorem notEqualAndTestResults : Obligations.NotEqualAndTestResults := by
  intro s ry rx x y byte
  have hbyte : ∀ k, (byteOf x k).toNat = byte (3 - k) := byteOf_toNat x
  refine ⟨⟨?cmpne, .of_pageRyRx rfl rfl rfl⟩,
    ⟨commonBit x y, commonBit_iff x y, .of_complete rfl, .of_pageRyRx rfl rfl rfl⟩,
    ⟨?tstnbz, .of_pageRx rfl rfl rfl⟩⟩
  case cmpne => exact .of_complete_eq rfl (bne_eq_decide_toNat x y)
  case tstnbz =>
    have hzero := noZeroByte_eq x
    simp only [hbyte] at hzero
    exact .of_complete_eq rfl hzero

/-- Settles O20: the immediates are small enough that each is one number, signed and unsigned. -/
theorem magnitudeCompareResults : Obligations.MagnitudeCompareResults := by
  intro s ry rx n x y
  refine ⟨?cmphs, ?cmplt, ?cmplti, ?cmpnei⟩
  case cmphs => exact .of_complete_eq rfl (higherSame_eq x y)
  case cmplt => exact .of_complete_eq rfl (signedLess_eq x y)
  case cmplti =>
    rw [← oimm5Value_toInt]
    exact .of_complete_eq rfl (signedLess_eq x _)
  case cmpnei =>
    rw [← imm5Value_toNat n]
    exact .of_complete_eq rfl (bne_eq_decide_toNat x _)

end Sys2Proof.Machine
end

section
/-! The data accesses of the load and store instructions: what completes where no access ends in a bus error, what
is raised where one does, and the words of the instructions. -/

namespace Sys2Proof.Machine

/-! ## Words of the LDST and LRW formats (R110, R112) -/

theorem HasWord.of_pageRzRx {i : Instr} {base : Half} {op : BitVec 4} {rz : Reg} {n : BitVec 4} {rx : Reg}
    (hwf : i.wf = true) (he : encode i = loadStoreWord op rz n rx) (hb : base = op ++ 0#12) :
    HasWord i (pageRzRx base rz n rx) :=
  .of_page hwf (by rw [hb, pageRzRx_eq, he])

/-- Each bit of the word lies in one of the three fields of the LRW format. -/
theorem pageLiteral_eq (op : BitVec 4) (rz : Reg) (d : BitVec 8) :
    (op ++ 0#12) ||| (rz.setWidth 16 <<< 8) ||| d.setWidth 16 = literalWord op rz d := by
  refine BitVec.eq_of_getLsbD_eq fun i hi => ?_
  simp only [literalWord, BitVec.getLsbD_or, BitVec.getLsbD_append, BitVec.getLsbD_setWidth,
    BitVec.getLsbD_shiftLeft]
  by_cases hd : i < 8
  · have hlow : i < 12 := by omega
    simp [hd, hlow, hi]
  have hx : d.getLsbD i = false := BitVec.getLsbD_of_ge d i (not_lt.1 hd)
  by_cases hz : i < 12
  · have hmid : i - 8 < 4 := by omega
    have hfit : i - 8 < 16 := by omega
    simp [hd, hx, hz, hmid, hfit, hi]
  · have hhigh : 4 ≤ i - 8 := by omega
    have hop : i - 8 - 4 = i - 12 := by omega
    simp [hd, hx, hz, hhigh, hop]

/-- The destinations of `lrw` are R1 to R14 (R116). -/
theorem literalDestOk_iff (rz : Reg) : literalDestOk rz = true ↔ 1 ≤ rz.toNat ∧ rz.toNat ≤ 14 :=
  firstRegOk_iff rz

/-! ## Addresses (R110, R112) -/

/-- A displacement shifted left by `k` is scaled by `2 ^ k`. -/
theorem shiftLeft_eq_ofNat_mul (x : Word) (k : Nat) : x <<< k = BitVec.ofNat 32 (2 ^ k) * x := by
  have hpow : BitVec.twoPow 32 k = BitVec.ofNat 32 (2 ^ k) := BitVec.eq_of_toNat_eq (BitVec.toNat_twoPow ..)
  rw [BitVec.shiftLeft_eq_mul_twoPow, hpow, BitVec.mul_comm]

theorem State.literalAddr_eq (s : State) (d : BitVec 8) :
    s.literalAddr d = (s.pc + 2 + 4 * d.setWidth 32) &&& 0xFFFFFFFC#32 := by
  rw [State.literalAddr, shiftLeft_eq_ofNat_mul]
  rfl

theorem State.scaledAddr_eq (s : State) (w : Width) (rx : Reg) (n : BitVec 4) :
    s.scaledAddr w rx n = s.reg rx + BitVec.ofNat 32 w.bytes * n.setWidth 32 := by
  have hsize : 2 ^ w.scale = w.bytes := by cases w <;> rfl
  rw [State.scaledAddr, shiftLeft_eq_ofNat_mul, hsize]

theorem State.scaledAddr_byte (s : State) (rx : Reg) (n : BitVec 4) :
    s.scaledAddr .byte rx n = s.reg rx + n.setWidth 32 :=
  (s.scaledAddr_eq .byte rx n).trans (congrArg _ (BitVec.one_mul _))

/-! ## Data accesses that end in an exception (R251, R318, R362) -/

section

variable {i : Instr} {s : State} {α : Type} {r : Access α} {f : α → State → State} {a : Word} {w : Width}
  {k : AccessKind}

/-- An instruction whose access raises an exception before anything is changed has no other effect. -/
theorem Raises.of_access {n : BitVec 7} (hx : exec i s = r.finish f) (hr : r = .raised n s.pc s)
    (hc : CanTake s n false) : Raises i s n s.pc :=
  ⟨_, hx.trans (Access.finish_raised f hr), s.raise_spec n s.pc hc⟩

/-- An access that TEA ends is an access error, or a breakpoint where BRKREQ marks it (R318, R362). -/
theorem raises_of_busFault (hx : exec i s = r.finish f) (hr : r = .raised (s.busFault a w k) s.pc s) :
    (s.brkReq a w k = false → CanTake s 2#7 false → Raises i s 2#7 s.pc) ∧
      (s.brkReq a w k = true → CanTake s 7#7 false → Raises i s 7#7 s.pc) := by
  refine ⟨fun hmark => .of_access hx ?accessError, fun hmark => .of_access hx ?breakpoint⟩
  case accessError =>
    rw [hr, State.busFault, hmark]
    rfl
  case breakpoint =>
    rw [hr, State.busFault, hmark]
    rfl

end

/-! ## Completion after data accesses -/

/-- `u` is `s` but for what data accesses change: registers, memory, the stale bytes, the count of free values, and
the breakpoint flag, which has taken up `marked`. -/
def OnlyAccessed (s u : State) (marked : Bool) : Prop :=
  u = { s with
    regs := u.regs, altRegs := u.altRegs, mem := u.mem, stale := u.stale
    brkPending := s.brkPending || marked, free := u.free }

/-- After its accesses an instruction completes with PSR and specials as before (R27, R325). -/
theorem OnlyAccessed.advance {s u : State} {marked : Bool} (h : OnlyAccessed s u marked) :
    u.advance.psr = s.psr ∧ SameSpecials s u.advance ∧ AdvancedMarked s u.advance marked := by
  rw [h]
  exact ⟨rfl, ⟨rfl, rfl, rfl, rfl, rfl, rfl, rfl, rfl, rfl, rfl, rfl⟩, rfl, s.traced_false, rfl, rfl⟩

/-! ## One load (R240 to R242, R250) -/

section

variable {i : Instr} {s : State} {w : Width} {d : Reg}

theorem LoadsReg.of_readAt {a : Word} {program : Bool}
    (hx : exec i s = (s.readAt w a program).finish (fun v t => (t.setReg d v).advance))
    (hbus : s.busError a w .read = false) : LoadsReg i s d w a program := by
  have hacc : OnlyAccessed s
      (((s.afterRead a program).noteAccess a w .read).setReg d (s.busRead w a program))
      (s.brkReq a w .read) := rfl
  obtain ⟨hpsr, hspecials, hadvanced⟩ := hacc.advance
  rw [s.readAt_done w a program hbus] at hx
  exact ⟨_, _, hx, s.busRead_given w a program, State.setReg_written _ d _, hpsr, hspecials, fun _ => rfl,
    hadvanced, rfl⟩

theorem LoadBehaves.of_loadData {ea : Word}
    (hx : exec i s = (s.loadData w ea).finish (fun v t => (t.setReg d v).advance)) :
    LoadBehaves i s w d ea := by
  refine ⟨fun a ha hbus => ?completes, fun ha => ?misaligned, fun a ha hbus => ?busError⟩
  case completes => exact .of_readAt (s.loadData_some w ea a ha ▸ hx) hbus
  case misaligned => exact .of_access hx (s.loadData_none w ea ha)
  case busError =>
    exact raises_of_busFault hx ((s.loadData_some w ea a ha).trans (s.readAt_raised w a false hbus))

end

/-! ## One store (R243 to R245) -/

section

variable {i : Instr} {s : State} {w : Width} {v : Word}

theorem StoresBytes.of_writeAt {a : Word}
    (hx : exec i s = (s.writeAt w a v).finish (fun _ t => t.advance))
    (hbus : s.busError a w .write = false) : StoresBytes i s w a v := by
  have hacc : OnlyAccessed s ((s.store w a v).noteAccess a w .write) (s.brkReq a w .write) := rfl
  obtain ⟨hpsr, hspecials, hadvanced⟩ := hacc.advance
  rw [s.writeAt_done w a v hbus] at hx
  exact ⟨_, hx, s.store_bytes w a v, fun _ _ => rfl, hpsr, hspecials, hadvanced,
    fun b => List.mem_append.trans (or_congr_left (w.mem_footprint a b))⟩

theorem StoreBehaves.of_storeData {ea : Word}
    (hx : exec i s = (s.storeData w ea v).finish (fun _ t => t.advance)) : StoreBehaves i s w ea v := by
  refine ⟨fun a ha hbus => ?completes, fun ha => ?misaligned, fun a ha hbus => ?busError⟩
  case completes => exact .of_writeAt (s.storeData_some w ea a v ha ▸ hx) hbus
  case misaligned => exact .of_access hx (s.storeData_none w ea v ha)
  case busError =>
    exact raises_of_busFault hx ((s.storeData_some w ea a v ha).trans (s.writeAt_raised w a v hbus))

end

/-! ## Transfers that no bus error ends (R246 to R249) -/

section

variable {i : Instr} {s : State} {base a : Word} {first n : Nat}

/-- A multi-register load that meets no bus error loads its run of registers and changes nothing else. -/
theorem completed_load {rs : List Reg}
    (hx : exec i s = (s.loadMultiple base rs).finish (fun _ t => t.advance))
    (hrs : Consecutive rs first) (hn : rs.length = n) (ha : s.dataAddr .word base = some a)
    (hbus : ∀ k < n, s.busError (a + BitVec.ofNat 32 (4 * k)) .word .read = false) :
    ∃ t, exec i s = .next t ∧ WordsLoaded s t first n a ∧ t.psr = s.psr ∧ SameSpecials s t ∧
      SameMemory s t ∧ t.stale = s.stale ∧ AdvancedMarked s t (s.marksWords a n .read) := by
  subst hn
  obtain ⟨u, hdone⟩ := loadWords_done rs a s hbus
  obtain ⟨hloaded, hu⟩ := loadWords_loaded hrs hdone hbus
  have hmem : u.mem = s.mem := by rw [hu]
  have hstale : u.stale = s.stale := by rw [hu]
  have hacc : OnlyAccessed s u (s.marksWords a rs.length .read) := by
    rw [OnlyAccessed, hmem, hstale]
    exact hu
  obtain ⟨hpsr, hspecials, hadvanced⟩ := hacc.advance
  rw [s.loadMultiple_done base a rs ha hbus, hdone] at hx
  exact ⟨u.advance, hx, hloaded, hpsr, hspecials, fun b => congrArg (Memory.byte · b) hmem, hstale, hadvanced⟩

/-- A multi-register store that meets no bus error stores its run of registers and changes nothing else, the `m`
free values drawn before it apart. -/
theorem completed_store {m : Nat} {vs : List Word} {unsaid : Nat → Prop}
    (hx : exec i s = ((s.drawn m).storeMultiple base vs).finish (fun _ t => t.advance))
    (hvs : ValuesFrom s first vs unsaid) (hn : vs.length = n) (hn16 : n ≤ 16)
    (ha : s.dataAddr .word base = some a)
    (hbus : ∀ k < n, s.busError (a + BitVec.ofNat 32 (4 * k)) .word .write = false) :
    ∃ t, exec i s = .next t ∧ WordsStored s t first n a unsaid ∧ SameRegs s t ∧ t.psr = s.psr ∧
      SameSpecials s t ∧ AdvancedMarked s t (s.marksWords a n .write) := by
  subst hn
  obtain ⟨u, hdone⟩ := storeWords_done vs a (s.drawn m) hbus
  obtain ⟨hstored, hu⟩ := storeWords_stored (s := s.drawn m) hvs hn16 hdone hbus
  have hregs : SameRegs s u := fun _ _ => by rw [hu]; rfl
  have hacc : OnlyAccessed s u (s.marksWords a vs.length .write) := by
    rw [OnlyAccessed, congrArg State.regs hu, congrArg State.altRegs hu, congrArg State.free hu]
    exact hu
  obtain ⟨hpsr, hspecials, hadvanced⟩ := hacc.advance
  rw [(s.drawn m).storeMultiple_done base a vs ha hbus, hdone] at hx
  exact ⟨u.advance, hx, hstored, hregs, hpsr, hspecials, hadvanced⟩

end

/-! ## The obligations -/

/-- Settles O23: each load is one data access from its scaled address, and then a register write. -/
theorem loadResults : Obligations.LoadResults := by
  intro s rz imm4 rx
  refine ⟨⟨?ldW, .of_pageRzRx rfl rfl rfl⟩, ⟨?ldB, .of_pageRzRx rfl rfl rfl⟩,
    ⟨?ldH, .of_pageRzRx rfl rfl rfl⟩⟩
  case ldW => exact s.scaledAddr_eq .word rx imm4 ▸ .of_loadData rfl
  case ldB => exact s.scaledAddr_byte rx imm4 ▸ .of_loadData rfl
  case ldH => exact s.scaledAddr_eq .half rx imm4 ▸ .of_loadData rfl

/-- Settles O24: each store is one data access to its scaled address. -/
theorem storeResults : Obligations.StoreResults := by
  intro s rz imm4 rx
  refine ⟨⟨?stW, .of_pageRzRx rfl rfl rfl⟩, ⟨?stB, .of_pageRzRx rfl rfl rfl⟩,
    ⟨?stH, .of_pageRzRx rfl rfl rfl⟩⟩
  case stW => exact s.scaledAddr_eq .word rx imm4 ▸ .of_storeData rfl
  case stB => exact s.scaledAddr_byte rx imm4 ▸ .of_storeData rfl
  case stH => exact s.scaledAddr_eq .half rx imm4 ▸ .of_storeData rfl

/-- Settles O25: the lists of both transfers are runs of registers. -/
theorem loadMultipleResults : Obligations.LoadMultipleResults := by
  refine fun s a r => ⟨fun h1 h14 => ?ldm, fun hq => ?ldq⟩
  case ldm => exact completed_load (exec_ldm s h1 h14) (regsFrom_consecutive r) (regsFrom_length r)
  case ldq => exact completed_load (exec_ldq s hq) quadRegs_consecutive rfl

/-- Settles O26: the values stored are those of a run of registers, but for the base of `stq` where it is one of
them. -/
theorem storeMultipleResults : Obligations.StoreMultipleResults := by
  refine fun s a r => ⟨fun h1 h14 => ?stm, ?stq⟩
  case stm =>
    have hlen : ((regsFrom r).map s.reg).length = 16 - r.toNat := by
      rw [List.length_map, regsFrom_length]
    exact completed_store (m := 0) (exec_stm s h1 h14) (valuesFrom_map_reg s (regsFrom_consecutive r)) hlen
      (Nat.sub_le 16 _)
  case stq =>
    obtain ⟨m, hx⟩ := exec_stq s r
    exact completed_store hx (valuesFrom_quadValues s r) rfl (by decide)

/-- Settles O28: `lrw` is one read at the literal address, and then a register write. -/
theorem loadRelativeWordResults : Obligations.LoadRelativeWordResults := by
  intro s rz d h1 h14 a
  have hx : exec (.lrw rz d) s =
      (s.readAt .word a Config.literalIsProgram).finish (fun v t => (t.setReg rz v).advance) := by
    have haddr : s.literalAddr d = a := s.literalAddr_eq d
    rw [← haddr]
    rfl
  have hfault (hbus : s.busError a .word .read = true) :=
    raises_of_busFault hx (s.readAt_raised .word a _ hbus)
  exact ⟨.of_page ((literalDestOk_iff rz).2 ⟨h1, h14⟩) (pageLiteral_eq 0x7#4 rz d), .of_readAt hx,
    fun hbus => (hfault hbus).1, fun hbus => (hfault hbus).2⟩

end Sys2Proof.Machine
end

section
/-! Flow control: the targets and the words of the branches, what a taken and an untaken change of flow leaves, and
what an indirect jump does with its literal. -/

namespace Sys2Proof.Machine

/-! ## The word of a branch (R113) -/

/-- Each bit of the word lies in one of the two fields of the BR format. -/
theorem pageBranch_eq (op : BitVec 5) (d : BitVec 11) :
    (op ++ 0#11) ||| d.setWidth 16 = branchWord op d := by
  refine BitVec.eq_of_getLsbD_eq fun i hi => ?_
  simp only [branchWord, BitVec.getLsbD_or, BitVec.getLsbD_append, BitVec.getLsbD_setWidth]
  by_cases hd : i < 11
  · simp [hd, hi]
  · have hx : d.getLsbD i = false := BitVec.getLsbD_of_ge d i (not_lt.1 hd)
    simp [hd, hx]

/-! ## Targets (R113, R114, R117) -/

/-- The displacement counts halfwords, as a signed number. -/
theorem State.branchTarget_eq (s : State) (d : BitVec 11) :
    s.branchTarget d = s.pc + 2 + BitVec.ofInt 32 (2 * d.toInt) := by
  rw [State.branchTarget, shiftLeft_eq_ofNat_mul, BitVec.ofInt_mul]
  rfl

/-- The field of `loopt` is extended with ones: it is the displacement plus 16, in halfwords. -/
theorem loopDisplacement_eq (b : BitVec 4) :
    ((0xFFFFFFF#28 ++ b : BitVec 32)) <<< 1 = BitVec.ofInt 32 (2 * (b.toNat : Int) - 32) := by
  revert b
  decide

theorem State.loopTarget_eq (s : State) (b : BitVec 4) :
    s.loopTarget b = s.pc + 2 + BitVec.ofInt 32 (2 * (b.toNat : Int) - 32) :=
  congrArg (s.pc + 2 + ·) (loopDisplacement_eq b)

/-- Bit 0 of the register is dropped. -/
theorem State.jumpTarget_eq (s : State) (rx : Reg) :
    s.jumpTarget rx = BitVec.ofNat 32 ((s.reg rx).toNat / 2 * 2) := by
  have hfloor : (s.jumpTarget rx).toNat = (s.reg rx).toNat - (s.reg rx).toNat % 2 :=
    Width.half.floor_toNat (s.reg rx)
  refine BitVec.eq_of_toNat_eq ?_
  rw [hfloor, BitVec.toNat_ofNat]
  omega

/-! ## Changes of flow, taken or not (R266, R341) -/

theorem State.flowTo_specials (s : State) (p : Word) : SameSpecials s (s.flowTo p) := by
  simp [SameSpecials]

theorem State.fallThrough_specials (s : State) : SameSpecials s s.fallThrough := by
  simp [SameSpecials]

/-- A conditional branch changes nothing but what goes with PC, and goes one of its two ways. -/
theorem State.branchIf_spec (s : State) (cond : Bool) (p : Word) :
    SameRegs s (s.branchIf cond p) ∧ (s.branchIf cond p).psr = s.psr ∧
      SameSpecials s (s.branchIf cond p) ∧ SameMemory s (s.branchIf cond p) ∧
      (cond = true → Jumped s (s.branchIf cond p) p false ∧ (s.branchIf cond p).windows = s.windows) ∧
      (cond = false → FellThrough s (s.branchIf cond p)) := by
  cases cond
  case true =>
    exact ⟨fun _ _ => rfl, rfl, s.flowTo_specials p, fun _ => rfl, fun _ => ⟨s.flowTo_jumped p, rfl⟩, nofun⟩
  case false =>
    exact ⟨fun _ _ => rfl, rfl, s.fallThrough_specials, fun _ => rfl, nofun, fun _ => s.fallThrough_fellThrough⟩

/-! ## Reads of an instruction -/

/-- `u` is `s` after reads: only the count of free values has changed, and the breakpoint flag, which has taken up
`marked`. -/
def OnlyRead (s u : State) (marked : Bool) : Prop :=
  ∃ n, u = { s with brkPending := s.brkPending || marked, free := s.free + n }

theorem OnlyRead.refl (s : State) : OnlyRead s s false :=
  ⟨0, by rw [Bool.or_false]; rfl⟩

theorem OnlyRead.afterRead (s : State) (a : Word) (w : Width) (program : Bool) :
    OnlyRead s ((s.afterRead a program).noteAccess a w .read) (s.brkReq a w .read) :=
  ⟨_, rfl⟩

/-! ## Jumps, calls and exceptions after reads -/

section

variable {i : Instr} {s u : State} {p : Word} {marked : Bool}

theorem JumpsTo.of_flowTo (hx : exec i s = .next (u.flowTo p)) (hu : OnlyRead s u marked) :
    JumpsTo i s p marked := by
  obtain ⟨n, rfl⟩ := hu
  exact ⟨_, hx, fun _ _ => rfl, rfl, State.flowTo_specials _ p, fun _ => rfl,
    ⟨rfl, s.traced_true, rfl, rfl⟩, rfl⟩

theorem CallsTo.of_flowTo (hx : exec i s = .next ((u.setReg r15 u.linkValue).flowTo p))
    (hu : OnlyRead s u marked) : CallsTo i s p marked := by
  obtain ⟨n, rfl⟩ := hu
  exact ⟨_, hx, s.setReg_written r15 s.linkValue, rfl, State.flowTo_specials _ p, fun _ => rfl,
    ⟨rfl, s.traced_true, rfl, rfl⟩, rfl⟩

/-- A branch on a condition goes to its target where the condition holds and falls through elsewhere. -/
theorem branches_of_branchIf {cond : Bool} (hx : exec i s = .next (s.branchIf cond p)) :
    (cond = true → JumpsTo i s p false) ∧ (cond = false → NotTaken i s) := by
  obtain ⟨hregs, hpsr, hspecials, hmem, htaken, hnot⟩ := s.branchIf_spec cond p
  exact ⟨fun hc => ⟨_, hx, hregs, hpsr, hspecials, hmem, htaken hc⟩,
    fun hc => ⟨_, hx, hregs, hpsr, hspecials, hmem, hnot hc⟩⟩

/-- Reads leave no trace in the state that an exception then leaves (R310). -/
theorem OnlyRead.raise_entered {n : BitVec 7} (ret : Word) (hu : OnlyRead s u marked)
    (hc : CanTake s n false) : HandlerEntered s (u.raise n ret) (vectorFor s n false) ret false false := by
  obtain ⟨m, hu⟩ := hu
  have hentered := State.raise_entered (u := u) ret hc (by rw [hu]) (by rw [hu]) (by rw [hu]) (by rw [hu])
  subst hu
  exact hentered

end

/-! ## Indirect jumps (R267, R268) -/

section

variable {s t : State} {d : BitVec 8} {v ret : Word} {n : BitVec 7}

theorem exec_jmpi_even (hr : s.readLiteral d = .done v t) (hv : v.getLsbD 0 = false) :
    exec (.jmpi d) s = .next (t.flowTo v) := by
  simp only [exec, execJmpi, hr, hv, Bool.false_eq_true, if_false]

theorem exec_jmpi_odd (hr : s.readLiteral d = .done v t) (hv : v.getLsbD 0 = true) :
    exec (.jmpi d) s = .next (t.raise vecMisaligned v) := by
  simp only [exec, execJmpi, hr, hv, if_true]

theorem exec_jmpi_raised (hr : s.readLiteral d = .raised n ret t) :
    exec (.jmpi d) s = .next (t.raise n ret) := by
  simp only [exec, execJmpi, hr]

theorem exec_jsri_even (hr : s.readLiteral d = .done v t) (hv : v.getLsbD 0 = false) :
    exec (.jsri d) s = .next ((t.setReg r15 t.linkValue).flowTo v) := by
  simp only [exec, execJsri, hr, hv, Bool.false_eq_true, if_false]

theorem exec_jsri_odd (hr : s.readLiteral d = .done v t) (hv : v.getLsbD 0 = true) :
    exec (.jsri d) s = .next (t.maybeLinked.raise vecMisaligned v) := by
  simp only [exec, execJsri, hr, hv, if_true]

theorem exec_jsri_raised (hr : s.readLiteral d = .raised n ret t) :
    exec (.jsri d) s = .next (t.maybeLinked.raise n ret) := by
  simp only [exec, execJsri, hr]

/-- When `jsri` raises, R15 holds its old value or the link value (R268, D16). -/
theorem OnlyRead.maybeLinked {marked : Bool} (ht : OnlyRead s t marked) :
    ∃ x, (x = s.reg r15 ∨ x = s.pc + 2) ∧ OnlyRead (s.setReg r15 x) t.maybeLinked marked := by
  obtain ⟨m, rfl⟩ := ht
  refine ⟨_, ?_, m + 1, rfl⟩
  split
  · exact .inr rfl
  · exact .inl rfl

/-- `jsri` raises exception `n` with return PC `ret`; what R15 holds is one of two values (R268, D16). -/
def CallRaises (d : BitVec 8) (s : State) (n : BitVec 7) (ret : Word) : Prop :=
  ∃ t, exec (.jsri d) s = .next t ∧
    ∃ x, (x = s.reg r15 ∨ x = s.pc + 2) ∧
      HandlerEntered (s.setReg r15 x) t (vectorFor s n false) ret false false

theorem CallRaises.of_raise {marked : Bool} (hx : exec (.jsri d) s = .next (t.maybeLinked.raise n ret))
    (ht : OnlyRead s t marked) (hc : CanTake s n false) : CallRaises d s n ret := by
  obtain ⟨x, hlink, hread⟩ := ht.maybeLinked
  exact ⟨_, hx, x, hlink, hread.raise_entered ret hc⟩

/-- Where the read of the literal raises, both instructions raise that exception. -/
theorem indirect_raises (hr : s.readLiteral d = .raised n s.pc s) (hc : CanTake s n false) :
    Raises (.jmpi d) s n s.pc ∧ CallRaises d s n s.pc :=
  ⟨⟨_, exec_jmpi_raised hr, s.raise_spec n s.pc hc⟩, .of_raise (exec_jsri_raised hr) (.refl s) hc⟩

end

/-! ## The obligations -/

/-- Settles O29: `br` and `bsr` always go to the target, `bt` and `bf` are branches on C and on its complement. -/
theorem branchResults : Obligations.BranchResults := by
  intro s d target
  have htarget : s.branchTarget d = target := s.branchTarget_eq d
  have hbt : exec (.bt d) s = .next (s.branchIf s.psr.c target) := htarget ▸ rfl
  have hbf : exec (.bf d) s = .next (s.branchIf (!s.psr.c) target) := htarget ▸ rfl
  obtain ⟨hbtTaken, hbtNot⟩ := branches_of_branchIf hbt
  obtain ⟨hbfTaken, hbfNot⟩ := branches_of_branchIf hbf
  refine ⟨⟨?br, .of_page rfl (pageBranch_eq 0x1E#5 d)⟩,
    ⟨hbtTaken, hbtNot, .of_page rfl (pageBranch_eq 0x1C#5 d)⟩,
    ⟨fun hc => hbfTaken (congrArg not hc), fun hc => hbfNot (congrArg not hc),
      .of_page rfl (pageBranch_eq 0x1D#5 d)⟩,
    ?bsr, .of_page rfl (pageBranch_eq 0x1F#5 d)⟩
  case br =>
    have hbr : exec (.br d) s = .next { s.flowTo target with windows := Windows.closed } := htarget ▸ rfl
    exact ⟨_, hbr, fun _ _ => rfl, rfl, s.flowTo_specials target, fun _ => rfl, s.flowTo_jumped target, rfl⟩
  case bsr => exact .of_flowTo (htarget ▸ rfl) (.refl s)

/-- Settles O30: the target is the register with bit 0 dropped, read before R15 is written. -/
theorem registerJumpResults : Obligations.RegisterJumpResults := by
  intro s rx target
  have htarget : s.jumpTarget rx = target := s.jumpTarget_eq rx
  refine ⟨⟨?jmp, .of_pageRx rfl rfl rfl⟩, fun hrx => ?jsr, .of_pageRx rfl rfl rfl⟩
  case jmp => exact .of_flowTo (htarget ▸ rfl) (.refl s)
  case jsr => exact .of_flowTo (htarget ▸ if_neg hrx) (.refl s)

/-- Settles O31: the read of the literal is done or raises, and a literal that is read is even or odd. -/
theorem indirectJumpResults : Obligations.IndirectJumpResults := by
  intro s d a v marked callRaises
  have hread : s.readLiteral d = s.readAt .word a Config.literalIsProgram :=
    congrArg (s.readAt .word · Config.literalIsProgram) (s.literalAddr_eq d)
  have hdone (hbus : s.busError a .word .read = false) := hread.trans (s.readAt_done .word a _ hbus)
  have hraised (hbus : s.busError a .word .read = true) := hread.trans (s.readAt_raised .word a _ hbus)
  have hreads : OnlyRead s _ marked := .afterRead s a .word Config.literalIsProgram
  refine ⟨.of_page rfl (pageLiteral_eq 0x7#4 0x0#4 d), .of_page rfl (pageLiteral_eq 0x7#4 0xF#4 d),
    s.busRead_given .word a _, fun hbus hv => ?even, fun hbus hv hc => ?odd, fun hbus hmark => ?accessError,
    fun hbus hmark => ?breakpoint⟩
  case even =>
    exact ⟨.of_flowTo (exec_jmpi_even (hdone hbus) hv) hreads,
      .of_flowTo (exec_jsri_even (hdone hbus) hv) hreads⟩
  case odd =>
    exact ⟨⟨_, exec_jmpi_odd (hdone hbus) hv, hreads.raise_entered v hc⟩,
      CallRaises.of_raise (exec_jsri_odd (hdone hbus) hv) hreads hc⟩
  case accessError =>
    have hfault : s.busFault a .word .read = vecAccessError := if_neg (Bool.eq_false_iff.1 hmark)
    exact indirect_raises (n := vecAccessError) (hfault ▸ hraised hbus)
  case breakpoint =>
    have hfault : s.busFault a .word .read = vecBreakpoint := if_pos hmark
    exact indirect_raises (n := vecBreakpoint) (hfault ▸ hraised hbus)

/-- Settles O32: after the count and C are written, the branch goes by the C that was there before. -/
theorem loopResults : Obligations.LoopResults := by
  intro s ry b less
  have hless : s.reg ry - 1 = less := sub_one_eq_ofInt (s.reg ry)
  have htarget := s.loopTarget_eq b
  have hx : exec (.loopt ry b) s =
      .next (((s.setReg ry less).setC (decide (0 < less.toInt))).branchIf s.psr.c (s.loopTarget b)) := by
    rw [← gtZero_eq, ← hless]
    rfl
  obtain ⟨hregs, hpsr, hspecials, hmem, htaken, hnot⟩ :=
    ((s.setReg ry less).setC (decide (0 < less.toInt))).branchIf_spec s.psr.c (s.loopTarget b)
  exact ⟨.of_pageRyRx rfl rfl rfl, _, hx, fun alt r => (hregs alt r).trans (s.setReg_written ry less alt r), hpsr,
    hspecials, hmem, htarget ▸ htaken, hnot⟩

end Sys2Proof.Machine
end

section
/-! System instructions: the privileged ones in user mode, moves to and from the control registers, return from
exception, software exceptions and accelerator opcodes, low power and the steps of a sleeping core. -/

namespace Sys2Proof.Machine

/-! ## Words of the TRAP and HAI formats (R103) -/

/-- A field stands in the low bits that the rest of the word leaves clear. -/
theorem append_zero_or {n m : Nat} (a : BitVec n) (b : BitVec m) :
    (a ++ 0#m) ||| b.setWidth (n + m) = a ++ b := by
  refine BitVec.eq_of_getLsbD_eq fun i hi => ?_
  simp only [BitVec.getLsbD_or, BitVec.getLsbD_append, BitVec.getLsbD_setWidth, hi, decide_true, Bool.true_and]
  by_cases hb : i < m
  · simp [hb]
  · simp [hb, BitVec.getLsbD_of_ge b i (not_lt.1 hb)]

theorem pageTrap_eq (n : BitVec 2) : 0x0008#16 ||| n.setWidth 16 = trapWord 0x0002#14 n :=
  append_zero_or 0x0002#14 n

theorem pageHai_eq (uu : BitVec 2) (x : BitVec 10) :
    0x4000#16 ||| (uu.setWidth 16 <<< 10) ||| x.setWidth 16 = haiWord 0x4#4 uu x := by
  have hunit : 0x4000#16 ||| (uu.setWidth 16 <<< 10) = (0x4#4 ++ uu) ++ 0#10 := by
    revert uu
    decide
  rw [hunit]
  exact append_zero_or (0x4#4 ++ uu) x

/-! ## Control registers (R30, R52) -/

/-- SS0 to SS4 are CR6 to CR10. -/
theorem ctrlReg_ss : ∀ k : Fin 5, ctrlReg (BitVec.ofNat 5 (6 + k)) = some (.ss k) := by
  decide

theorem State.vbrWord_toNat (s : State) : s.vbrWord.toNat = s.vbr.toNat * 1024 := by
  simp only [State.vbrWord, toNat_append_mul, BitVec.toNat_zero, Nat.add_zero, Nat.reducePow]

theorem extract_vbr_eq (v : Word) : v.extractLsb' 10 22 = BitVec.ofNat 22 (v.toNat / 1024) := by
  rw [BitVec.extractLsb', Nat.shiftRight_eq_div_pow]

theorem State.advance_specials (s : State) : SameSpecials s s.advance := by
  simp [SameSpecials]

theorem State.writePsr_specials (s : State) (v : Word) : SameSpecials s (s.writePsr v) := by
  simp [SameSpecials]

/-- In supervisor mode a `mtcr` to a register other than the PSR writes that register and completes (R287). -/
theorem mtcr_writes {s : State} {cr : CregField} {rx : Reg} (c : CtrlReg) (hsup : s.supervisor = true)
    (hc : ctrlReg cr = some c) (hr : ctrlWriteRefusal (s.reg rx) c = none) (hpsr : c ≠ .psr) :
    ∃ t, exec (.mtcr cr rx) s = .next t ∧ SameRegs s t ∧ t.psr = s.psr ∧
      SameSpecials (s.writeCtrl (s.reg rx) c) t ∧ SameMemory s t ∧ Advanced s t := by
  refine ⟨_, exec_mtcr_named hsup hc hr, State.writeCtrl_fileReg s.advance _ c, ?_⟩
  cases c with
  | psr => exact absurd rfl hpsr
  | vbr | epsr | fpsr | epc | fpc | ss k | gcr | gsr =>
    exact ⟨rfl, State.advance_specials _, fun _ => rfl, s.advance_advanced⟩

/-! ## Privileged instructions (R284) -/

theorem raises_of_privileged {i : Instr} {s : State} {run : Result} (hx : exec i s = s.privileged run)
    (huser : s.supervisor = false) (hc : CanTake s 5#7 false) : Raises i s 5#7 s.pc :=
  ⟨_, hx.trans (s.privileged_user run huser), s.raise_spec vecPrivilege s.pc hc⟩

/-- The return PC loses its bit 0 (R26). -/
theorem evenAddr_eq_ofNat (a : Word) : evenAddr a = BitVec.ofNat 32 (a.toNat / 2 * 2) := by
  have hfloor : (evenAddr a).toNat = a.toNat - a.toNat % 2 := Width.half.floor_toNat a
  refine BitVec.eq_of_toNat_eq ?_
  rw [hfloor, BitVec.toNat_ofNat]
  omega

/-- `rte` and `rfi` in supervisor mode, each through its own shadow pair (R282, R283). -/
theorem returns_of_privileged {i : Instr} {s : State} {shadow ret : Word}
    (hx : exec i s = s.privileged (s.returnThrough shadow ret)) (hsup : s.supervisor = true)
    (hbits : psrBitsOk shadow = true) (hmode : traceModeOk shadow = true) :
    ∃ t, exec i s = .next t ∧ t.psr = Psr.ofWord shadow ∧ t.pc = BitVec.ofNat 32 (ret.toNat / 2 * 2) ∧
      t.tracePending = shadow.getLsbD 13 ∧ t.windows = Windows.closed ∧ t.stale = [] ∧
      t.brkPending = s.brkPending ∧ SameRegs s t ∧ SameSpecials s t ∧ SameMemory s t := by
  obtain ⟨t, ht, hpsr, hpc, hrest⟩ := s.returnThrough_spec shadow ret hbits hmode
  exact ⟨t, (hx.trans (s.privileged_supervisor _ hsup)).trans ht, hpsr, hpc.trans (evenAddr_eq_ofNat ret), hrest⟩

/-- `stop`, `wait` and `doze` in supervisor mode complete untraced into their low-power state (R288 to R290). -/
theorem sleeps_of_privileged {i : Instr} {s : State} {m : LowPower}
    (hx : exec i s = s.privileged (.next (s.fallAsleep m))) (hsup : s.supervisor = true) :
    ∃ t, exec i s = .next t ∧ SameRegs s t ∧ t.psr = s.psr ∧
      SameSpecials { s with activity := .asleep m } t ∧ SameMemory s t ∧ t.pc = s.pc + 2 ∧
      t.tracePending = false ∧ t.brkPending = s.brkPending ∧ t.stale = s.stale ∧ t.windows = s.windows :=
  ⟨s.fallAsleep m, hx.trans (s.privileged_supervisor _ hsup), fun _ _ => rfl, rfl, by simp [SameSpecials],
    fun _ => rfl, rfl, rfl, rfl, rfl, rfl⟩

/-! ## Software exceptions and accelerator opcodes (R281, R292) -/

theorem vecTrap_eq (n : BitVec 2) : vecTrap n = BitVec.ofNat 7 (16 + n.toNat) := by
  revert n
  decide

/-- Bit 24 + k of the PSR word enables accelerator unit k (R35, D15). -/
theorem Psr.toWord_unit (p : Psr) (uu : BitVec 2) : p.toWord.getLsbD (24 + uu.toNat) = p.u.getLsbD uu.toNat := by
  have huu : uu.toNat < 4 := uu.isLt
  rw [p.toWord_getLsbD (by omega)]
  interval_cases uu.toNat <;> rfl

theorem exec_hai_disabled {s : State} {uu : BitVec 2} (x : BitVec 10) (h : s.psr.u.getLsbD uu.toNat = false) :
    exec (.hai uu x) s = .next (s.raise vecAccelerator s.pc) :=
  if_neg (Bool.eq_false_iff.1 h)

theorem exec_hai_enabled {s : State} {uu : BitVec 2} (x : BitVec 10) (h : s.psr.u.getLsbD uu.toNat = true) :
    exec (.hai uu x) s = .refused .acceleratorUnit :=
  if_pos h

/-! ## The step of a core in a low-power state (R293) -/

theorem noBreak_iff (s : State) : NoBreak s ↔ (s.brkPending || s.brkReq s.pc .half .fetch) = false :=
  Bool.or_eq_false_iff.symm

theorem State.accepted_quiet (s : State) {inp : Inputs} (hint : inp.int = none) (hfint : inp.fint = none) :
    s.accepted inp = none := by
  simp only [State.accepted, hfint, State.acceptedInt, hint]

/-- Where no request is accepted the core wakes at most, and only for a request that is masked. -/
theorem State.sleepStep_unaccepted {s : State} (h : s.accepted s.inputs = none) :
    s.sleepStep =
      if (s.inputs.int.isSome || s.inputs.fint.isSome) && Config.wakeOnMasked then .next s.awake else .next s := by
  simp only [State.sleepStep, h]

/-! ## The obligations -/

/-- Settles O33: each of the seven asks for supervisor mode before it looks at anything else. -/
theorem privilegedInstructionsRaiseInUserMode : Obligations.PrivilegedInstructionsRaiseInUserMode := by
  intro s cr rx huser hc
  have raises {i : Instr} {run : Result} (hx : exec i s = s.privileged run) : Raises i s 5#7 s.pc :=
    raises_of_privileged hx huser hc
  exact ⟨raises rfl, raises rfl, raises rfl, raises rfl, raises rfl, raises rfl, raises rfl⟩

/-- Settles O34: each number names its register, whose value a register write completes with. -/
theorem moveFromControlRegisterResults : Obligations.MoveFromControlRegisterResults := by
  intro s rx hsup
  have reads (c : CtrlReg) {cr : CregField} (hc : ctrlReg cr = some c) :
      WritesReg (.mfcr cr rx) s rx (s.readCtrl c) := .of_complete (exec_mfcr_named rx hsup hc)
  exact ⟨reads .psr rfl, ⟨s.vbrWord, s.vbrWord_toNat, reads .vbr rfl⟩, reads .epsr rfl, reads .fpsr rfl,
    reads .epc rfl, reads .fpc rfl, fun k => reads (.ss k) (ctrlReg_ss k), reads .gcr rfl, reads .gsr rfl⟩

/-- Settles O36: each number names its register, and only a PSR image can be refused. -/
theorem moveToControlRegisterResults : Obligations.MoveToControlRegisterResults := by
  intro s rx hsup v writes
  have hvbr : v.extractLsb' 10 22 = BitVec.ofNat 22 (v.toNat / 1024) := extract_vbr_eq v
  exact ⟨hvbr ▸ mtcr_writes .vbr hsup rfl rfl nofun,
    fun hbits => ⟨mtcr_writes .epsr hsup rfl (if_pos hbits) nofun,
      mtcr_writes .fpsr hsup rfl (if_pos hbits) nofun⟩,
    mtcr_writes .epc hsup rfl rfl nofun, mtcr_writes .fpc hsup rfl rfl nofun,
    fun k => mtcr_writes (.ss k) hsup (ctrlReg_ss k) rfl nofun,
    mtcr_writes .gcr hsup rfl rfl nofun, mtcr_writes .gsr hsup rfl rfl nofun⟩

/-- Settles O37: the image is accepted, and each windowed field that it changes keeps its old value behind. -/
theorem moveToPsrOpensWindows : Obligations.MoveToPsrOpensWindows := by
  intro s rx hsup hbits hmode
  have hx := exec_mtcr_named (cr := 0) hsup rfl ((ctrlWriteRefusal_psr (s.reg rx)).2 ⟨hbits, hmode⟩)
  exact ⟨_, hx, fun _ _ => rfl, rfl, s.advance.writePsr_specials _, fun _ => rfl, rfl, s.traced_false, rfl, rfl,
    pushOld_eq .., pushOld_eq .., pushOld_eq .., pushOld_eq .., pushOld_eq ..⟩

/-- Settles O40: `rte` returns through EPSR and EPC, `rfi` through FPSR and FPC. -/
theorem returnFromExceptionRestores : Obligations.ReturnFromExceptionRestores := by
  intro s hsup returns
  exact ⟨⟨returns_of_privileged rfl hsup, .of_page rfl rfl⟩, returns_of_privileged rfl hsup, .of_page rfl rfl⟩

/-- Settles O41: both instructions are an exception entry and nothing else. -/
theorem softwareExceptionsRaise : Obligations.SoftwareExceptionsRaise := by
  intro s n
  refine ⟨fun hc => ⟨_, rfl, s.raise_spec vecBreakpoint s.pc hc⟩, .of_page rfl rfl, ?_,
    .of_page rfl (pageTrap_eq n)⟩
  rw [← vecTrap_eq]
  exact fun hc => ⟨_, rfl, s.raise_spec (vecTrap n) s.pc hc⟩

/-- Settles O42: the three differ in the low-power state they enter. -/
theorem lowPowerEntry : Obligations.LowPowerEntry := by
  intro s hsup sleeps
  exact ⟨sleeps_of_privileged rfl hsup, sleeps_of_privileged rfl hsup, sleeps_of_privileged rfl hsup⟩

/-- Settles O43: `sync` is the completion of an instruction with no effect. -/
theorem syncChangesNothing : Obligations.SyncChangesNothing :=
  ⟨.of_page rfl rfl, State.advance_spec⟩

/-- Settles O44: the PSR bit of the unit decides between vector 12 and the stop. -/
theorem acceleratorOpcodes : Obligations.AcceleratorOpcodes := by
  intro s uu x
  rw [s.psr.toWord_unit uu]
  exact ⟨.of_page rfl (pageHai_eq uu x),
    fun hoff hc => ⟨_, exec_hai_disabled x hoff, s.raise_spec vecAccelerator s.pc hc⟩, exec_hai_enabled x⟩

/-- Settles O51: an accepted request ends the sleep at a boundary; else the core sleeps on or merely wakes. -/
theorem lowPowerSteps : Obligations.LowPowerSteps := by
  intro s m hasleep hhard hsrst hsoft
  rw [step_asleep s m hasleep hhard hsrst hsoft]
  refine ⟨fun n fast hacc => ?accepted, fun hint hfint => ?quiet, fun hnone => ?unaccepted⟩
  case accepted =>
    rw [s.now.sleepStep_accepted n fast hacc, noBreak_iff]
    exact ⟨fun hbreak => if_pos (Bool.eq_true_of_not_eq_false hbreak), fun hno => if_neg (Bool.eq_false_iff.1 hno)⟩
  case quiet =>
    rw [State.sleepStep_unaccepted (s.now.accepted_quiet hint hfint), hint, hfint]
    rfl
  case unaccepted =>
    rw [State.sleepStep_unaccepted hnone]
    split
    · exact .inr rfl
    · exact .inl rfl

end Sys2Proof.Machine
end

section
/-! Exception entries and the soft reset: what a vector fetch ends in, the state it leaves after the saving of
context and after the clearing of a reset, and the order of events at a boundary. -/

namespace Sys2Proof.Machine

/-! ## The copy of the PSR that an exception saves (R310, R344) -/

/-- TP stands at bit 13, where the PSR itself has no storage. -/
theorem Psr.toShadow_getLsbD (p : Psr) (tp : Bool) (k : Nat) :
    (p.toShadow tp).getLsbD k = (p.toWord.getLsbD k || (tp && decide (13 = k))) := by
  have hbit : (0x00002000#32).getLsbD k = decide (13 = k) :=
    (BitVec.getLsbD_twoPow (w := 32) 13 k).trans (Bool.true_and _)
  rw [Psr.toShadow, BitVec.getLsbD_or]
  cases tp
  · simp
  · simp [hbit]

/-! ## What a vector fetch ends in (R313, R314) -/

/-- `t` is `s` after a vector fetch that ended with VEC `v` and AF `af`: EPSR and EPC are not said, PC and the
activity are the outcome's. -/
def VectorFetched (s t : State) (v : BitVec 7) (af : Bool) : Prop :=
  t = { s with
    pc := t.pc, psr := { s.psr with vec := v, af := af }, epsr := t.epsr, epc := t.epc
    activity := t.activity, free := t.free }

/-- The fetch reached the word of vector `v`, from which PC and AF come (R313). -/
def Dispatched (s t : State) (v : BitVec 7) : Prop :=
  ∃ x, GivenByVector s (s.vbrWord + 4 * v.setWidth 32) x ∧ t.pc = x &&& 0xFFFFFFFE#32 ∧
    VectorFetched s t v (x.getLsbD 0) ∧ t.activity = s.activity

/-- The fetch met a bus error on vector 8 and left the core stuck (R314). -/
def Halted (s t : State) : Prop :=
  VectorFetched s t 8#7 s.psr.af ∧ t.pc = s.pc ∧ t.activity = .stuck

section

variable {s : State} {n : BitVec 7}

/-- In supervisor mode the vector read is the access that `VectorReadable` speaks of (R71). -/
theorem busError_vector (hsup : s.supervisor = true) (n : BitVec 7) :
    s.busError (s.vectorAddr n) .word .vector = false ↔ VectorReadable s n := by
  rw [vectorAddr_eq, State.busError, hsup]
  rfl

theorem busError_vector_unreadable (hsup : s.supervisor = true) (h : ¬ VectorReadable s n) :
    s.busError (s.vectorAddr n) .word .vector = true := by
  rwa [← busError_vector hsup, Bool.not_eq_false] at h

/-- The read of a vector in supervisor mode gives its word where memory answers (R313). -/
theorem busRead_vector (hsup : s.supervisor = true) (n : BitVec 7) :
    GivenByVector s (s.vbrWord + 4 * n.setWidth 32) (s.busRead .word (s.vectorAddr n) true) := by
  rw [vectorAddr_eq]
  intro hans
  exact s.busRead_memory _ _ _ (by rwa [State.answer, hsup])

theorem goToHandler_dispatched (hsup : s.supervisor = true) (hvec : s.psr.vec = n) :
    Dispatched s (s.goToHandler n) n := by
  subst hvec
  exact ⟨_, busRead_vector hsup _, rfl, rfl, rfl⟩

/-- Where its vector can be read, the fetch goes to its handler. -/
theorem vectorFetch_dispatched (hsup : s.supervisor = true) (hvec : s.psr.vec = n)
    (h : VectorReadable s n) : Dispatched s (s.vectorFetch n) n := by
  rw [s.vectorFetch_readable n ((busError_vector hsup n).2 h)]
  exact goToHandler_dispatched hsup hvec

/-- Where it cannot be read and vector 8 can, the fetch goes to the handler of vector 8. -/
theorem vectorFetch_dispatched_unrecoverable (hsup : s.supervisor = true) (h : ¬ VectorReadable s n)
    (hn : n ≠ 8#7) (h8 : VectorReadable s 8#7) : Dispatched s (s.vectorFetch n) 8#7 := by
  have h8 : s.unrecoverable.busError (s.vectorAddr 8#7) .word .vector = false := (busError_vector hsup _).2 h8
  rw [s.vectorFetch_unrecoverable n (busError_vector_unreadable hsup h) hn h8]
  exact ⟨_, busRead_vector (s := s.unrecoverable) hsup _, rfl, rfl, rfl⟩

/-- Where vector 8 cannot be read either, the core is stuck; VEC is 8 whichever read failed first. -/
theorem vectorFetch_halted (hsup : s.supervisor = true) (hvec : s.psr.vec = n) (h : ¬ VectorReadable s n)
    (h8 : n = 8#7 ∨ ¬ VectorReadable s 8#7) : Halted s (s.vectorFetch n) := by
  have hbus := busError_vector_unreadable hsup h
  by_cases hn : n = 8#7
  · subst hn
    have hstuck : s.vectorFetch 8#7 = s.getStuck := by
      rw [State.vectorFetch, if_pos hbus]
      rfl
    have hpsr : s.psr = { s.psr with vec := 8#7 } := by rw [← hvec]
    rw [hstuck]
    refine ⟨?_, rfl, rfl⟩
    rw [VectorFetched, ← hpsr]
    rfl
  · have hbus8 : s.unrecoverable.busError (s.vectorAddr 8#7) .word .vector = true :=
      busError_vector_unreadable hsup (h8.resolve_left hn)
    have hstuck : s.vectorFetch n = s.unrecoverable.getStuck := by
      rw [State.vectorFetch, if_pos hbus, if_neg (c := n = vecUnrecoverable) hn]
      exact if_pos hbus8
    rw [hstuck]
    exact ⟨rfl, rfl, rfl⟩

end

/-! ## Exception entries (R310) -/

theorem State.enter_eq (s : State) (n : BitVec 7) (ret : Word) (fast tp : Bool) :
    s.enter n ret fast tp =
      (s.saveContext (vectorFor s n fast) ret fast tp).vectorFetch (vectorFor s n fast) := by
  rw [State.enter, vectorTaken_eq]

section

variable {s t : State} {n v : BitVec 7} {ret : Word} {fast tp af : Bool}

/-- After the saving of context a vector fetch leaves what every exception entry leaves. -/
theorem VectorFetched.entry (h : VectorFetched (s.saveContext n ret fast tp) t v af) :
    EntryPsr s t fast v af ∧ EntryFrame s t ret fast tp := by
  rw [h]
  refine ⟨?_, rfl, rfl, fun _ _ => rfl, fun _ => rfl, rfl, rfl, rfl, rfl, rfl, rfl, rfl, rfl, rfl, rfl⟩
  cases fast <;> simp [EntryPsr]

theorem Dispatched.inHandler (h : Dispatched (s.saveContext n ret fast tp) t v) :
    InHandler s t v ret fast tp := by
  obtain ⟨x, hx, hpc, hfetched, hrun⟩ := h
  obtain ⟨hpsr, hframe⟩ := hfetched.entry
  exact ⟨⟨x, hx, hpc, hpsr⟩, hframe, hrun⟩

end

/-- Settles O45: the entry by `State.enter_spec`, and the saved PSR bit by bit. -/
theorem exceptionEntryState : Obligations.ExceptionEntryState := by
  intro s n ret fast tp hc
  refine ⟨s.enter_spec n ret fast tp hc, fun k hk => ?_, ?_⟩
  · simp [Psr.toShadow_getLsbD, Ne.symm hk]
  · have htp : s.psr.toWord.getLsbD 13 = false := s.psr.toWord_getLsbD (by decide)
    rw [Psr.toShadow_getLsbD, htp]
    simp

/-- Settles O46: the entry is a vector fetch after the saving of context, and the fetch has these two outcomes where
its vector cannot be read. -/
theorem vectorFetchFaults : Obligations.VectorFetchFaults := by
  intro s n ret fast tp v t
  have ht : t = (s.saveContext v ret fast tp).vectorFetch v := s.enter_eq n ret fast tp
  rw [ht]
  refine ⟨fun hv hne h8 => ?unrecoverable, fun hv h8 => ?stuck⟩
  case unrecoverable =>
    exact (vectorFetch_dispatched_unrecoverable (s := s.saveContext v ret fast tp) rfl hv hne h8).inHandler
  case stuck =>
    obtain ⟨hfetched, hpc, hstuck⟩ :=
      vectorFetch_halted (s := s.saveContext v ret fast tp) rfl rfl hv h8
    obtain ⟨hpsr, hframe⟩ := hfetched.entry
    exact ⟨hpsr, hpc, hframe, hstuck⟩

/-! ## Exceptions of the instruction in execution (R319, R322) -/

theorem State.divide_zero {s : State} (h : s.reg r1 = 0) (rx : Reg) (q : Word) (n : Nat) :
    s.divide rx q n = .next (s.raise vecDivideByZero s.pc) :=
  if_pos h

/-- Settles O9: both divides look at the divisor before anything is written, and a zero divisor is not the one of
the overflowing quotient. -/
theorem divideByZeroRaises : Obligations.DivideByZeroRaises := by
  intro s rx hr1 hc
  have hexact : ¬ (s.reg rx = 0x80000000#32 ∧ s.reg r1 = 0xFFFFFFFF#32) := by simp [hr1]
  have hraised := s.raise_spec vecDivideByZero s.pc hc
  exact ⟨⟨_, State.divide_zero hr1 rx _ 0, hraised⟩,
    ⟨_, (exec_divs_exact rx hexact).trans (State.divide_zero hr1 rx _ 0), hraised⟩⟩

theorem State.executeNext_busError {s : State} (h : s.busError s.pc .half .fetch = true) :
    s.executeNext = .next (s.raise vecAccessError s.pc) :=
  if_pos h

/-- Settles O48: the bus error is looked at before the word is decoded. -/
theorem fetchBusErrorRaises : Obligations.FetchBusErrorRaises := by
  intro s hu hbus hc
  exact ⟨_, (step_undisturbed s hu).trans (State.executeNext_busError hbus),
    s.now.raise_spec vecAccessError s.now.pc hc⟩

/-! ## The order of events at a boundary (R360, R363) -/

section

variable {s : State} {inp : Inputs}

theorem State.acceptedInt_some {v : VectorSource} (hint : inp.int = some v) (hie : s.psr.ie = true)
    (hee : s.shadowsFree = true) : s.acceptedInt inp = some (v.vector vecInt, false) := by
  simp only [State.acceptedInt, hint, hie, hee, Bool.and_self, if_true]

theorem State.acceptedInt_none (h : inp.int = none ∨ s.psr.ie = false ∨ s.shadowsFree = false) :
    s.acceptedInt inp = none := by
  rcases h with h | h | h
  · simp only [State.acceptedInt, h]
  · cases hint : inp.int <;> simp [State.acceptedInt, hint, h]
  · cases hint : inp.int <;> simp [State.acceptedInt, hint, h]

/-- FINT comes before INT (R332). -/
theorem State.accepted_fast {v : VectorSource} (hfint : inp.fint = some v) (hfe : s.psr.fe = true) :
    s.accepted inp = some (v.vector vecFint, true) := by
  simp only [State.accepted, hfint, hfe, if_true]

/-- With no FINT or FE clear, the request accepted is INT, if any. -/
theorem State.accepted_slow (h : inp.fint = none ∨ s.psr.fe = false) :
    s.accepted inp = s.acceptedInt inp := by
  rcases h with h | h
  · simp only [State.accepted, h]
  · cases hfint : inp.fint <;> simp [State.accepted, hfint, h]

theorem State.boundary_break (h : ¬ NoBreak s) :
    s.boundary = .next (s.enter vecBreakpoint s.pc false s.tracePending) := by
  rw [noBreak_iff, Bool.not_eq_false] at h
  exact if_pos h

theorem State.boundary_accepted {n : BitVec 7} {fast : Bool} (hb : NoBreak s)
    (h : s.accepted s.inputs = some (n, fast)) :
    s.boundary = .next (s.enter n s.pc fast s.tracePending) := by
  rw [noBreak_iff] at hb
  simp [State.boundary, hb, h]

theorem State.boundary_trace (hb : NoBreak s) (h : s.accepted s.inputs = none)
    (ht : s.tracePending = true) : s.boundary = .next (s.enter vecTrace s.pc false false) := by
  rw [noBreak_iff] at hb
  simp [State.boundary, hb, h, ht]

end

/-- Settles O50: what is accepted at the boundary is FINT where FE is set, else INT, else nothing. -/
theorem boundaryEventOrder : Obligations.BoundaryEventOrder := by
  intro s hb
  rw [step_boundary s hb]
  refine ⟨State.boundary_break, fun hno v hfint hfe => ?fint, fun hno hslow v hint hie hee => ?int,
    fun hno hslow hmasked htrace => ?trace⟩
  case fint => exact State.boundary_accepted hno (State.accepted_fast hfint hfe)
  case int =>
    exact State.boundary_accepted hno
      ((State.accepted_slow hslow).trans (State.acceptedInt_some hint hie hee))
  case trace =>
    exact State.boundary_trace hno ((State.accepted_slow hslow).trans (State.acceptedInt_none hmasked)) htrace

/-! ## Soft reset (R351, R382, R383) -/

section

variable {s : State}

/-- While SRST is asserted a step only notes it. -/
theorem step_srst (hhard : s.now.inputs.hardReset = none) (hrun : s.now.activity ≠ .stuck)
    (hsrst : s.now.inputs.srst = true) : step s = .next { s.sample with softResetSeen := true } := by
  have hhard : s.sample.inputs.hardReset = none := hhard
  have hrun : s.sample.activity ≠ .stuck := hrun
  have hsrst : s.sample.inputs.srst = true := hsrst
  simp only [step, State.sampledStep, hhard, hrun, hsrst, if_true, if_false]

/-- The first step without SRST resets. -/
theorem step_softReset (hhard : s.now.inputs.hardReset = none) (hrun : s.now.activity ≠ .stuck)
    (hsrst : s.now.inputs.srst = false) (hseen : s.now.softResetSeen = true) :
    step s = .next s.sample.softReset := by
  have hhard : s.sample.inputs.hardReset = none := hhard
  have hrun : s.sample.activity ≠ .stuck := hrun
  have hsrst : s.sample.inputs.srst = false := hsrst
  have hseen : s.sample.softResetSeen = true := hseen
  simp only [step, State.sampledStep, hhard, hrun, hsrst, hseen, Bool.false_eq_true, if_true, if_false]

end

/-- With VBR zero the word of vector `n` is at `4 n` (R301). -/
theorem vectorWord_of_vbr_zero {s : State} (h : s.vbr = 0) (n : BitVec 7) :
    s.vbrWord + 4 * n.setWidth 32 = 4 * n.setWidth 32 := by
  have hzero : s.vbrWord = 0#32 := by
    rw [State.vbrWord, h]
    rfl
  rw [hzero, BitVec.zero_add]

/-- What soft reset leaves besides PC and the activity: the fields it clears, with VEC `n` and AF `af`, and what it
keeps of `v`. -/
def SoftReset (v t : State) (n : BitVec 7) (af : Bool) : Prop :=
  t.psr =
    { v.psr with
      s := true, sp := 0, vec := n, tm := 0, tc := false, sc := false, ee := false, ic := false
      ie := false, fe := false, af := af
      u := t.psr.u, mm := t.psr.mm, c := t.psr.c } ∧
  t.vbr = 0 ∧ t.tracePending = false ∧ t.brkPending = false ∧ t.softResetSeen = false ∧
  t.windows = Windows.closed ∧ t.stale = [] ∧ SameRegs v t ∧ SameMemory v t ∧
  t.fpsr = v.fpsr ∧ t.fpc = v.fpc ∧ t.ss = v.ss ∧ t.gcr = v.gcr

theorem VectorFetched.softReset {s t : State} {n : BitVec 7} {af : Bool}
    (h : VectorFetched s.softCleared t n af) : SoftReset s t n af := by
  rw [h]
  exact ⟨rfl, rfl, rfl, rfl, rfl, rfl, rfl, fun _ _ => rfl, fun _ => rfl, rfl, rfl, rfl, rfl⟩

/-- A soft reset that reaches the word of vector `n` starts there. -/
theorem Dispatched.softReset {s t : State} {n : BitVec 7} (h : Dispatched s.softCleared t n) :
    ∃ x, GivenByVector s (4 * n.setWidth 32) x ∧ t.pc = x &&& 0xFFFFFFFE#32 ∧
      SoftReset s t n (x.getLsbD 0) ∧ t.activity = .running := by
  obtain ⟨x, hx, hpc, hfetched, hrun⟩ := h
  rw [vectorWord_of_vbr_zero rfl] at hx
  exact ⟨x, hx, hpc, hfetched.softReset, hrun⟩

/-- Settles O55: the reset is a vector fetch in the cleared state, with the three outcomes of one. -/
theorem softResetState : Obligations.SoftResetState := by
  intro s hhard hrun
  refine ⟨step_srst hhard hrun, fun hsrst hseen => ?_⟩
  have hstep := step_softReset hhard hrun hsrst hseen
  refine ⟨fun h9 => ?vector, fun h9 h8 => ?unrecoverable, fun h9 h8 => ?stuck⟩
  case vector =>
    obtain ⟨x, hx⟩ := (vectorFetch_dispatched (s := s.sample.softCleared) rfl rfl h9).softReset
    exact ⟨_, x, hstep, hx⟩
  case unrecoverable =>
    obtain ⟨x, hx⟩ :=
      (vectorFetch_dispatched_unrecoverable (s := s.sample.softCleared) rfl h9 (by decide) h8).softReset
    exact ⟨_, x, hstep, hx⟩
  case stuck =>
    obtain ⟨hfetched, hpc, hstuck⟩ :=
      vectorFetch_halted (s := s.sample.softCleared) rfl rfl h9 (.inr h8)
    exact ⟨_, hstep, hfetched.softReset, hpc, hstuck⟩

end Sys2Proof.Machine
end

section
/-! Instructions that something ends early (R335, R382): when a step runs the instruction and when it gives it up,
and the transfers that a part of a multi-register instruction has made. -/

namespace Sys2Proof.Machine

/-! ## The step at an instruction that something may end early -/

theorem Undisturbed.brkPending {s : State} (h : Undisturbed s) : s.brkPending = false := by
  obtain ⟨-, ⟨hbrk, -⟩, -⟩ := h
  exact hbrk

/-- Where the fetch gives a word of an instruction, the step executes it or abandons it. -/
theorem step_fetched {s : State} {i : Instr} (hu : Undisturbed s.now) (hf : Fetchable s.now)
    (hd : decode s.now.wordAtPc = .ok i) : step s = s.now.execOrAbandon i := by
  rw [step_undisturbed s hu, s.now.executeNext_fetchable hf, hd]

section

variable {s : State} {i : Instr} {e : MidEvent}

theorem State.midEvent_softReset (hsrst : s.nextInputs.srst = true) (hi : transfers i = true) :
    s.midEvent i = some .softReset := by
  simp only [State.midEvent, hsrst, hi, Bool.and_self, if_true]

theorem State.midEvent_interrupt {n : BitVec 7} {fast : Bool} (hsrst : (s.nextInputs.srst && transfers i) = false)
    (hic : s.psr.ic = true) (hi : interruptible i = true) (hacc : s.accepted s.nextInputs = some (n, fast)) :
    s.midEvent i = some (.interrupt n fast) := by
  simp only [State.midEvent, hsrst, hic, hi, hacc, Bool.and_self, Bool.false_eq_true, if_true, if_false]

/-- A free bit decides between the two (U29). -/
theorem State.execOrAbandon_cases (h : s.midEvent i = some e) :
    s.execOrAbandon i = exec i (s.drawn 1) ∨ s.execOrAbandon i = .next ((s.drawn 1).abandon i e) := by
  simp only [State.execOrAbandon, h]
  split
  · exact .inr rfl
  · exact .inl rfl

/-- The instruction runs in `s`, free values apart, and leaves `t`. -/
def Runs (i : Instr) (s t : State) : Prop := ∃ u, u = { s with free := u.free } ∧ exec i u = .next t

/-- A step that something at hand may end early runs the instruction or abandons it. -/
theorem step_runs_or_abandons (hu : Undisturbed s.now) (hf : Fetchable s.now)
    (hd : decode s.now.wordAtPc = .ok i) (he : s.now.midEvent i = some e)
    (hx : ∃ t, exec i (s.now.drawn 1) = .next t) :
    ∃ t, step s = .next t ∧ (Runs i s.now t ∨ t = (s.now.drawn 1).abandon i e) := by
  rw [step_fetched hu hf hd]
  rcases State.execOrAbandon_cases he with hrun | habandon
  · obtain ⟨t, ht⟩ := hx
    exact ⟨t, hrun.trans ht, .inl ⟨_, rfl, ht⟩⟩
  · exact ⟨_, habandon, .inr rfl⟩

/-! ## What an abandoned instruction leaves (R335, R362) -/

/-- The part of its transfers that an abandoned instruction makes, a free number of them. -/
def State.transfersMade (s : State) (i : Instr) : Access Unit :=
  (s.drawn 1).partialTransfer i (Config.freeWord s.free).toNat

theorem State.abandon_softReset : s.abandon i .softReset = (s.transfersMade i).reached := rfl

theorem State.abandon_interrupt (n : BitVec 7) (fast : Bool) :
    s.abandon i (.interrupt n fast) =
      if (s.transfersMade i).breaks then (s.transfersMade i).reached.enter vecBreakpoint s.pc false false
      else (s.transfersMade i).reached.enter n s.pc fast false := rfl

/-- What an instruction touches before it completes has no part in which exceptions can be taken. -/
theorem Touched.enter_entered {b fast : Bool} {u : State} {n : BitVec 7} (h : Touched b s u) (ret : Word)
    (tp : Bool) (hc : CanTake s n fast) :
    HandlerEntered u (u.enter n ret fast tp) (vectorFor s n fast) ret fast tp := by
  have hvec : vectorFor u n fast = vectorFor s n fast := by
    rw [h.rest]
    rfl
  have hread : VectorReadable u (vectorFor s n fast) := by
    rw [h.rest]
    exact hc
  rw [← hvec] at hread ⊢
  exact u.enter_spec n ret fast tp hread

/-- The state that an abandoned instruction has reached takes an exception as the state before it would. -/
theorem State.transfersMade_entered {fast : Bool} {n : BitVec 7} (s : State) (i : Instr) (ret : Word)
    (hc : CanTake s n fast) :
    HandlerEntered (s.transfersMade i).reached ((s.transfersMade i).reached.enter n ret fast false)
      (vectorFor s n fast) ret fast false :=
  ((Touched.refl true s).drawn 1 |>.trans (touched_partialTransfer _ i _)).enter_entered ret false hc

end

/-! ## `mult`, `divu` and `divs` under IC (R335) -/

theorem State.divide_next (s : State) (rx : Reg) (q : Word) (n : Nat) : ∃ t, s.divide rx q n = .next t := by
  unfold State.divide
  split
  · exact ⟨_, rfl⟩
  · exact ⟨_, rfl⟩

theorem exec_divs_next (rx : Reg) (s : State) : ∃ t, exec (.divs rx) s = .next t := by
  by_cases h : s.reg rx = 0x80000000#32 ∧ s.reg r1 = 0xFFFFFFFF#32
  · rw [exec_divs_overflow rx h]
    exact s.divide_next rx _ 1
  · rw [exec_divs_exact rx h]
    exact s.divide_next rx _ 0

/-- An instruction that an interrupt may abandon and that makes no transfers, of which nothing can be half done. -/
structure AllOrNothing (i : Instr) : Prop where
  interruptible : interruptible i = true
  not_transfers : transfers i = false
  nothing_made (s : State) : s.transfersMade i = .done () (s.drawn 1)
  next (s : State) : ∃ t, exec i s = .next t

theorem allOrNothing_mult (ry rx : Reg) : AllOrNothing (.mult ry rx) :=
  ⟨rfl, rfl, fun _ => rfl, fun _ => ⟨_, rfl⟩⟩

theorem allOrNothing_divu (rx : Reg) : AllOrNothing (.divu rx) :=
  ⟨rfl, rfl, fun _ => rfl, fun s => s.divide_next rx _ 0⟩

theorem allOrNothing_divs (rx : Reg) : AllOrNothing (.divs rx) :=
  ⟨rfl, rfl, fun _ => rfl, exec_divs_next rx⟩

/-- Settles O52: with no transfer made there is no mark to break on, and the interrupt is entered from the state
before the instruction. -/
theorem abandonedArithmeticRestarts : Obligations.AbandonedArithmeticRestarts := by
  intro s i n fast hform hu hf hd hic hacc hc
  have hi : AllOrNothing i := by
    rcases hform with ⟨ry, rx, rfl⟩ | ⟨rx, rfl⟩ | ⟨rx, rfl⟩
    · exact allOrNothing_mult ry rx
    · exact allOrNothing_divu rx
    · exact allOrNothing_divs rx
  have he : s.now.midEvent i = some (.interrupt n fast) :=
    State.midEvent_interrupt (by rw [hi.not_transfers, Bool.and_false]) hic hi.interruptible hacc
  obtain ⟨t, hstep, hrun | habandon⟩ := step_runs_or_abandons hu hf hd he (hi.next _)
  · exact ⟨t, hstep, .inl hrun⟩
  · have hno : Access.breaks (.done () ((s.now.drawn 1).drawn 1)) = false := hu.brkPending
    have hentered := (s.now.drawn 1).transfersMade_entered i s.now.pc hc
    rw [State.abandon_interrupt, hi.nothing_made, if_neg (Bool.eq_false_iff.1 hno)] at habandon
    rw [hi.nothing_made] at hentered
    exact ⟨t, hstep, .inr (habandon ▸ hentered)⟩

/-! ## The first transfers of `ldm`, `ldq`, `stm` and `stq` (R83, D25) -/

/-- The address of word `j` of a transfer to or from `a`. -/
def wordAt (a : Word) (j : Nat) : Word := a + BitVec.ofNat 32 (4 * j)

theorem State.marksWords_iff (s : State) (a : Word) (n : Nat) (kind : AccessKind) :
    s.marksWords a n kind = true ↔ ∃ j < n, s.brkReq (wordAt a j) .word kind = true := by
  simp only [State.marksWords, wordAt, List.any_eq_true, List.mem_range]

/-- Of a transfer of up to `len` words at `base` the first `k`, from `a` on, have been made; it asks for a
breakpoint exactly where BRKREQ marked one of them or a later one that TEA ended (R362). -/
structure CutAt (s : State) (r : Access Unit) (base : Word) (len : Nat) (kind : AccessKind) (a : Word)
    (k : Nat) : Prop where
  le : k ≤ len
  addr : s.dataAddr .word base = some a ∨ k = 0
  unmarked : r.breaks = false → ∀ j < k, s.brkReq (wordAt a j) .word kind = false
  marked : r.breaks = true → s.dataAddr .word base = some a ∧
    ∃ j < len, s.brkReq (wordAt a j) .word kind = true ∧
      (k ≤ j → s.busError (wordAt a j) .word kind = true)

section

variable {s t : State} {r : Access Unit} {base a ret : Word} {len j k : Nat} {kind : AccessKind}

theorem CutAt.of_misaligned (hr : r = .raised vecMisaligned ret t) (ht : t.brkPending = false) :
    CutAt s r base len kind a 0 := by
  have hno : r.breaks = false := by
    rw [hr, Access.breaks, ht]
    rfl
  exact ⟨Nat.zero_le _, .inr rfl, fun _ => nofun, fun h => by rw [hno] at h; cases h⟩

theorem CutAt.of_done (ha : s.dataAddr .word base = some a) (hk : k ≤ len) (hr : r = .done () t)
    (ht : t.brkPending = s.marksWords a k kind) : CutAt s r base len kind a k := by
  have hbreaks : r.breaks = s.marksWords a k kind := by
    rw [hr]
    exact ht
  refine ⟨hk, .inl ha, fun h j hj => ?_, fun h => ?_⟩
  · rw [hbreaks, Bool.eq_false_iff, ne_eq, State.marksWords_iff] at h
    exact Bool.eq_false_iff.2 fun hmark => h ⟨j, hj, hmark⟩
  · obtain ⟨j, hj, hmark⟩ := (s.marksWords_iff a k kind).1 (hbreaks ▸ h)
    exact ⟨ha, j, by omega, hmark, fun hkj => by omega⟩

theorem busFault_eq_breakpoint (s : State) (a : Word) (w : Width) (kind : AccessKind) :
    (s.busFault a w kind == vecBreakpoint) = s.brkReq a w kind := by
  unfold State.busFault
  cases s.brkReq a w kind <;> rfl

theorem CutAt.of_fault (ha : s.dataAddr .word base = some a) (hk : k ≤ j) (hj : j < len)
    (hf : s.busError (wordAt a j) .word kind = true)
    (hr : r = .raised (s.busFault (wordAt a j) .word kind) ret t)
    (ht : t.brkPending = s.marksWords a k kind) : CutAt s r base len kind a k := by
  have hbreaks : r.breaks = (s.marksWords a k kind || s.brkReq (wordAt a j) .word kind) := by
    rw [hr, ← busFault_eq_breakpoint, ← ht]
    rfl
  have hdone : CutAt s (.done () t) base len kind a k := .of_done ha (by omega) rfl ht
  refine ⟨hdone.le, hdone.addr, fun h => ?_, fun h => ?_⟩
  · rw [hbreaks, Bool.or_eq_false_iff] at h
    obtain ⟨hmarks, -⟩ := h
    exact hdone.unmarked (ht.trans hmarks)
  · rw [hbreaks, Bool.or_eq_true] at h
    rcases h with h | h
    · exact hdone.marked (ht.trans h)
    · exact ⟨ha, j, hj, h, fun _ => hf⟩

end

/-- The first `k` registers from R`first` on are loaded, and nothing else is done. -/
def LoadsMade (s : State) (first : Nat) (u : State) (a : Word) (k : Nat) : Prop :=
  WordsLoaded s u first k a ∧
    u = { s with regs := u.regs, altRegs := u.altRegs, brkPending := u.brkPending, free := u.free }

/-- The first `k` registers from R`first` on are stored, and nothing else is done. -/
def StoresMade (s : State) (first : Nat) (unsaid : Nat → Prop) (u : State) (a : Word) (k : Nat) : Prop :=
  WordsStored s u first k a unsaid ∧
    u = { s with mem := u.mem, stale := u.stale, brkPending := u.brkPending, free := u.free }

section

variable {s : State} {first len m : Nat} {base : Word}

theorem loadsMade_zero (a : Word) : LoadsMade s first (s.drawn m) a 0 :=
  ⟨⟨fun _ _ _ => rfl, fun r h1 h2 => absurd h2 (by omega)⟩, rfl⟩

theorem storesMade_zero {unsaid : Nat → Prop} (a : Word) : StoresMade s first unsaid (s.drawn m) a 0 :=
  ⟨⟨fun b _ => by simp, fun b => by simp⟩, rfl⟩

/-- Words loaded without a bus error, with no mark pending before, are the transfers made; a breakpoint is due where
BRKREQ marked one of them. -/
theorem loadsMade_of_loadWords {rs : List Reg} {a : Word} {t : State} {k : Nat} (hbrk : s.brkPending = false)
    (hrs : Consecutive rs first) (hk : rs.length = k) (ht : loadWords rs a (s.drawn m) = .done () t)
    (hbus : ∀ j < k, s.busError (wordAt a j) .word .read = false) :
    LoadsMade s first t a k ∧ t.brkPending = s.marksWords a k .read := by
  subst hk
  obtain ⟨hloaded, hrest⟩ := loadWords_loaded (s := s.drawn m) hrs ht hbus
  have hmarks : t.brkPending = (s.brkPending || s.marksWords a rs.length .read) := by
    rw [hrest]
    rfl
  refine ⟨⟨hloaded, ?_⟩, by rw [hmarks, hbrk, Bool.false_or]⟩
  rw [hmarks]
  exact hrest

/-- Words stored without a bus error, likewise. -/
theorem storesMade_of_storeWords {vs : List Word} {unsaid : Nat → Prop} {a : Word} {t : State} {k : Nat}
    (hbrk : s.brkPending = false) (hvs : ValuesFrom s first vs unsaid) (hk : vs.length = k) (h16 : k ≤ 16)
    (ht : storeWords vs a (s.drawn m) = .done () t)
    (hbus : ∀ j < k, s.busError (wordAt a j) .word .write = false) :
    StoresMade s first unsaid t a k ∧ t.brkPending = s.marksWords a k .write := by
  subst hk
  obtain ⟨hstored, hrest⟩ := storeWords_stored (s := s.drawn m) hvs h16 ht hbus
  have hmarks : t.brkPending = (s.brkPending || s.marksWords a vs.length .write) := by
    rw [hrest]
    rfl
  have hfree : t.free = (s.drawn m).free := by rw [hrest]
  refine ⟨⟨hstored, ?_⟩, by rw [hmarks, hbrk, Bool.false_or]⟩
  rw [hmarks, hfree]
  exact hrest

/-- A transfer of `n` words has no address, or completes, or raises at its first bus error. -/
theorem transfer_cut {kind : AccessKind} {r : Access Unit} {made : State → Word → Nat → Prop} {n : Nat}
    (hlen : n ≤ len)
    (hnone : s.dataAddr .word base = none →
      ∃ ret t, r = .raised vecMisaligned ret t ∧ (∀ a, made t a 0) ∧ t.brkPending = false)
    (hdone : ∀ a, s.dataAddr .word base = some a →
      (∀ j < n, s.busError (wordAt a j) .word kind = false) →
      ∃ t, r = .done () t ∧ made t a n ∧ t.brkPending = s.marksWords a n kind)
    (hfault : ∀ a j, s.dataAddr .word base = some a → j < n →
      (∀ i < j, s.busError (wordAt a i) .word kind = false) →
      s.busError (wordAt a j) .word kind = true →
      ∃ k ≤ j, ∃ ret t, r = .raised (s.busFault (wordAt a j) .word kind) ret t ∧ made t a k ∧
        t.brkPending = s.marksWords a k kind) :
    ∃ a k, CutAt s r base len kind a k ∧ made r.reached a k := by
  cases haddr : s.dataAddr .word base with
  | none =>
    obtain ⟨ret, t, rfl, hmade, hbrk⟩ := hnone haddr
    exact ⟨0, 0, .of_misaligned rfl hbrk, hmade 0⟩
  | some a =>
    obtain ⟨j, -, hlow, rfl | ⟨hj, hf⟩⟩ := s.first_fault a kind n
    · obtain ⟨t, rfl, hmade, hmarks⟩ := hdone a haddr hlow
      exact ⟨a, j, .of_done haddr hlen rfl hmarks, hmade⟩
    · obtain ⟨k, hk, ret, t, rfl, hmade, hmarks⟩ := hfault a j haddr hj hlow hf
      exact ⟨a, k, .of_fault haddr hk (hj.trans_le hlen) hf rfl hmarks, hmade⟩

/-- A multi-register load, begun with no mark pending, has made its first transfers however it ends. -/
theorem loadMultiple_cut {rs : List Reg} (hbrk : s.brkPending = false) (hrs : Consecutive rs first)
    (hlen : rs.length ≤ len) :
    ∃ a k, CutAt s ((s.drawn m).loadMultiple base rs) base len .read a k ∧
      LoadsMade s first ((s.drawn m).loadMultiple base rs).reached a k := by
  refine transfer_cut hlen (fun haddr => ?none) (fun a haddr hlow => ?done) fun a j haddr hj hlow hf => ?fault
  case none => exact ⟨_, _, State.loadMultiple_none rs haddr, loadsMade_zero, hbrk⟩
  case done =>
    obtain ⟨t, ht⟩ := loadWords_done rs a (s.drawn m) hlow
    exact ⟨t, ((s.drawn m).loadMultiple_done base a rs haddr hlow).trans ht,
      loadsMade_of_loadWords hbrk hrs rfl ht hlow⟩
  case fault =>
    obtain ⟨k, hk, t, ht, hr⟩ := (s.drawn m).loadMultiple_fault base a rs j haddr hj hlow hf
    exact ⟨k, hk, _, t, hr, loadsMade_of_loadWords (m := m + 1) hbrk (hrs.take k)
      (List.length_take_of_le (hk.trans hj.le)) ht fun i hi => hlow i (hi.trans_le hk)⟩

/-- A multi-register store, begun with no mark pending, has made its first transfers however it ends. -/
theorem storeMultiple_cut {vs : List Word} {unsaid : Nat → Prop} (hbrk : s.brkPending = false)
    (hvs : ValuesFrom s first vs unsaid) (hlen : vs.length ≤ len) (h16 : len ≤ 16) :
    ∃ a k, CutAt s ((s.drawn m).storeMultiple base vs) base len .write a k ∧
      StoresMade s first unsaid ((s.drawn m).storeMultiple base vs).reached a k := by
  refine transfer_cut hlen (fun haddr => ?none) (fun a haddr hlow => ?done) fun a j haddr hj hlow hf => ?fault
  case none => exact ⟨_, _, State.storeMultiple_none vs haddr, storesMade_zero, hbrk⟩
  case done =>
    obtain ⟨t, ht⟩ := storeWords_done vs a (s.drawn m) hlow
    exact ⟨t, ((s.drawn m).storeMultiple_done base a vs haddr hlow).trans ht,
      storesMade_of_storeWords hbrk hvs rfl (hlen.trans h16) ht hlow⟩
  case fault =>
    obtain ⟨k, hk, t, ht, hr⟩ := (s.drawn m).storeMultiple_fault base a vs j haddr hj hlow hf
    exact ⟨k, hk, _, t, hr, storesMade_of_storeWords (m := m + 1) hbrk (hvs.take k)
      (List.length_take_of_le (hk.trans hj.le)) (by omega) ht fun i hi => hlow i (hi.trans_le hk)⟩

end

/-! ## A transfer that something ends early (R335, R382) -/

/-- Instruction `i` is one of the four in a form that has a meaning: it completes or raises, and a part of it has
made the first transfers of `len` words at `base`, in the sense of `made`. -/
structure TransfersPrefix (s : State) (i : Instr) (base : Word) (len : Nat) (kind : AccessKind)
    (made : State → Word → Nat → Prop) : Prop where
  transfers : transfers i = true
  interruptible : interruptible i = true
  next (u : State) : ∃ t, exec i u = .next t
  cut (m k : Nat) : ∃ a j, CutAt s ((s.drawn m).partialTransfer i k) base len kind a j ∧
    made ((s.drawn m).partialTransfer i k).reached a j

theorem Access.finish_next {α : Type} (r : Access α) (f : α → State → State) : ∃ t, r.finish f = .next t := by
  cases r
  · exact ⟨_, rfl⟩
  · exact ⟨_, rfl⟩

section

variable {s : State} {r : Reg}

theorem transfersPrefix_ldm (hbrk : s.brkPending = false) (h1 : 1 ≤ r.toNat) (h14 : r.toNat ≤ 14) :
    TransfersPrefix s (.ldm r) (s.reg r0) (16 - r.toNat) .read (LoadsMade s r.toNat) where
  transfers := (firstRegOk_iff r).2 ⟨h1, h14⟩
  interruptible := (firstRegOk_iff r).2 ⟨h1, h14⟩
  next u := exec_ldm u h1 h14 ▸ Access.finish_next _ _
  cut _ k := loadMultiple_cut hbrk ((regsFrom_consecutive r).take k)
    ((List.length_take_le' k _).trans_eq (regsFrom_length r))

theorem transfersPrefix_stm (hbrk : s.brkPending = false) (h1 : 1 ≤ r.toNat) (h14 : r.toNat ≤ 14) :
    TransfersPrefix s (.stm r) (s.reg r0) (16 - r.toNat) .write
      (StoresMade s r.toNat fun _ => False) where
  transfers := (firstRegOk_iff r).2 ⟨h1, h14⟩
  interruptible := (firstRegOk_iff r).2 ⟨h1, h14⟩
  next u := exec_stm u h1 h14 ▸ Access.finish_next _ _
  cut _ k := storeMultiple_cut hbrk ((valuesFrom_map_reg s (regsFrom_consecutive r)).take k)
    ((List.length_take_le' k _).trans_eq ((List.length_map _).trans (regsFrom_length r))) (Nat.sub_le 16 _)

theorem transfersPrefix_ldq (hbrk : s.brkPending = false) (h : ¬ (4 ≤ r.toNat ∧ r.toNat ≤ 7)) :
    TransfersPrefix s (.ldq r) (s.reg r) 4 .read (LoadsMade s 4) := by
  have hform : (!inQuad r) = true := by rwa [Bool.not_eq_true', Bool.eq_false_iff, ne_eq, inQuad_iff]
  exact {
    transfers := hform
    interruptible := hform
    next := fun u => exec_ldq u h ▸ Access.finish_next _ _
    cut := fun m k => loadMultiple_cut hbrk (quadRegs_consecutive.take k) (List.length_take_le' k _) }

theorem State.quadDrawn_eq (s : State) (r : Reg) : ∃ n, s.quadDrawn r = s.drawn n := by
  unfold State.quadDrawn
  split
  · exact ⟨1, rfl⟩
  · exact ⟨0, rfl⟩

theorem transfersPrefix_stq (hbrk : s.brkPending = false) :
    TransfersPrefix s (.stq r) (s.reg r) 4 .write (StoresMade s 4 fun j => j + 4 = r.toNat) where
  transfers := rfl
  interruptible := rfl
  next u := Access.finish_next _ _
  cut m k := by
    obtain ⟨n, hn⟩ := (s.drawn m).quadDrawn_eq r
    have hpart : (s.drawn m).partialTransfer (.stq r) k =
        (s.drawn (m + n)).storeMultiple (s.reg r) (((s.drawn m).quadValues r).take k) := by
      rw [State.partialTransfer, hn, State.drawn, State.drawn, Nat.add_assoc]
      rfl
    rw [hpart]
    exact storeMultiple_cut hbrk ((valuesFrom_quadValues (s.drawn m) r).take k) (List.length_take_le' k _)
      (by decide)

/-- What a step leaves that has made `k` transfers of `i` from `a` on and then takes an interrupt, or the breakpoint
in its place (R335, R362). -/
def InterruptedAt (s t u : State) (base : Word) (len : Nat) (kind : AccessKind) (n : BitVec 7) (fast : Bool)
    (a : Word) (k : Nat) : Prop :=
  (∀ j < k, s.brkReq (wordAt a j) .word kind = false) ∧
      HandlerEntered u t (vectorFor s n fast) s.pc fast false ∨
    (s.dataAddr .word base = some a ∧
        ∃ j < len, s.brkReq (wordAt a j) .word kind = true ∧
          (k ≤ j → s.busError (wordAt a j) .word kind = true)) ∧
      HandlerEntered u t (vectorFor s 7#7 false) s.pc false false

/-- `k` of at most `len` transfers are made from `a` on, the address of `base` where any is. -/
def PartlyMade (s : State) (base : Word) (len : Nat) (made : State → Word → Nat → Prop) (u : State) (a : Word)
    (k : Nat) : Prop :=
  made u a k ∧ k ≤ len ∧ (s.dataAddr .word base = some a ∨ k = 0)

end

section

variable {s : State} {i : Instr} {base : Word} {len : Nat} {kind : AccessKind}
  {made : State → Word → Nat → Prop}

/-- With SRST at hand the step runs the instruction or leaves its first transfers made. -/
theorem softReset_cuts_transfer (hi : TransfersPrefix s.now i base len kind made) (hu : Undisturbed s.now)
    (hf : Fetchable s.now) (hd : decode s.now.wordAtPc = .ok i) (hsrst : s.now.nextInputs.srst = true) :
    ∃ t, step s = .next t ∧ (Runs i s.now t ∨ ∃ a k, PartlyMade s.now base len made t a k) := by
  obtain ⟨t, hstep, hrun | rfl⟩ :=
    step_runs_or_abandons hu hf hd (State.midEvent_softReset hsrst hi.transfers) (hi.next _)
  · exact ⟨t, hstep, .inl hrun⟩
  · obtain ⟨a, k, hcut, hmade⟩ := hi.cut 2 (Config.freeWord (s.now.drawn 1).free).toNat
    exact ⟨_, hstep, .inr ⟨a, k, hmade, hcut.le, hcut.addr⟩⟩

/-- With an interrupt at hand the step runs the instruction or makes its first transfers and takes the interrupt, or
the breakpoint that they ask for. -/
theorem interrupt_cuts_transfer {n : BitVec 7} {fast : Bool}
    (hi : TransfersPrefix s.now i base len kind made) (hu : Undisturbed s.now) (hf : Fetchable s.now)
    (hd : decode s.now.wordAtPc = .ok i) (hsrst : s.now.nextInputs.srst = false) (hic : s.now.psr.ic = true)
    (hacc : s.now.accepted s.now.nextInputs = some (n, fast)) (hc : CanTake s.now n fast)
    (hc7 : CanTake s.now 7#7 false) :
    ∃ t, step s = .next t ∧ (Runs i s.now t ∨
      ∃ u a k, PartlyMade s.now base len made u a k ∧ InterruptedAt s.now t u base len kind n fast a k) := by
  have he : s.now.midEvent i = some (.interrupt n fast) :=
    State.midEvent_interrupt (by rw [hsrst, Bool.false_and]) hic hi.interruptible hacc
  obtain ⟨t, hstep, hrun | habandon⟩ := step_runs_or_abandons hu hf hd he (hi.next _)
  · exact ⟨t, hstep, .inl hrun⟩
  · obtain ⟨a, k, hcut, hmade⟩ := hi.cut 2 (Config.freeWord (s.now.drawn 1).free).toNat
    refine ⟨t, hstep, .inr ⟨_, a, k, ⟨hmade, hcut.le, hcut.addr⟩, ?_⟩⟩
    rw [State.abandon_interrupt] at habandon
    split at habandon
    next hbreaks =>
      exact .inr ⟨hcut.marked hbreaks, habandon ▸ (s.now.drawn 1).transfersMade_entered i s.now.pc hc7⟩
    next hbreaks =>
      exact .inl ⟨hcut.unmarked (Bool.eq_false_iff.2 hbreaks),
        habandon ▸ (s.now.drawn 1).transfersMade_entered i s.now.pc hc⟩

end

/-- Settles O53: each of the four has made its first transfers when it is cut short, and SRST or an interrupt is
what can cut it short. -/
theorem abandonedTransfersMakeAPrefix : Obligations.AbandonedTransfersMakeAPrefix := by
  intro s r hu hf v word abandons loads stores
  have hbrk : v.brkPending = false := hu.brkPending
  have ends {i : Instr} {base : Word} {len : Nat} {kind : AccessKind} {made : State → Word → Nat → Prop}
      (hi : TransfersPrefix v i base len kind made) : abandons i base len kind made := fun hd =>
    ⟨softReset_cuts_transfer hi hu hf hd, fun _ _ => interrupt_cuts_transfer hi hu hf hd⟩
  exact ⟨fun h1 h14 => ⟨ends (transfersPrefix_ldm hbrk h1 h14), ends (transfersPrefix_stm hbrk h1 h14)⟩,
    fun hq => ends (transfersPrefix_ldq hbrk hq), ends (transfersPrefix_stq hbrk)⟩

end Sys2Proof.Machine
end

section
/-! Hard reset, the windows of a `mtcr`, and what the spec gives no meaning: the state that the reset leaves, the
values in effect while a window is open, and the refusals, each under its own name. -/

namespace Sys2Proof.Machine

/-! ## Hard reset (R380, R381, R384) -/

/-- Hard reset is looked at first, whatever the core is doing. -/
theorem step_hardReset {s : State} {cells : List Host.Cell} (h : s.now.inputs.hardReset = some cells) :
    step s = .next (s.sample.hardReset cells) := by
  have h : s.sample.inputs.hardReset = some cells := h
  simp only [step, State.sampledStep, h]

/-- Whether a vector can be read depends on the platform and VBR alone. -/
theorem vectorReadable_congr {u v : State} (hin : u.inputs = v.inputs) (hvbr : u.vbr = v.vbr) {n : BitVec 7} :
    VectorReadable u n ↔ VectorReadable v n := by
  rw [VectorReadable, VectorReadable, State.vbrWord, State.vbrWord, hin, hvbr]

/-- What it gives depends on the platform and memory alone. -/
theorem givenByVector_congr {u v : State} (hin : u.inputs = v.inputs) (hmem : u.mem = v.mem) {a x : Word} :
    GivenByVector u a x ↔ GivenByVector v a x := by
  rw [GivenByVector, GivenByVector, hin, hmem]

/-- What hard reset leaves besides PC and the activity: the platform's memory `m`, and the fields it clears, with VEC
`n` and AF `af`. -/
def HardReset (m : Memory) (t : State) (n : BitVec 7) (af : Bool) : Prop :=
  t.mem = m ∧ t.psr = { Psr.reset with vec := n, af := af, c := t.psr.c } ∧ t.vbr = 0 ∧
  t.tracePending = false ∧ t.brkPending = false ∧ t.softResetSeen = false ∧
  t.windows = Windows.closed ∧ t.stale = []

section

variable {s t : State} {cells : List Host.Cell} {n : BitVec 7} {af : Bool}

theorem VectorFetched.hardReset (h : VectorFetched (s.hardCleared cells) t n af) :
    HardReset (Memory.ofCells cells) t n af := by
  rw [h]
  exact ⟨rfl, rfl, rfl, rfl, rfl, rfl, rfl, rfl⟩

/-- Whatever AF the fetch ended with, hard reset says the rest of what it leaves. -/
theorem VectorFetched.hardReset_own (h : VectorFetched (s.hardCleared cells) t n af) :
    HardReset (Memory.ofCells cells) t n t.psr.af := by
  have haf : t.psr.af = af := by rw [h]
  subst haf
  exact h.hardReset

/-- A hard reset that reaches the word of vector `n` starts there; `v` has the inputs and the memory of the read. -/
theorem Dispatched.hardReset {v : State} (h : Dispatched (s.hardCleared cells) t n) (hin : v.inputs = s.inputs)
    (hmem : v.mem = Memory.ofCells cells) :
    ∃ x, GivenByVector v (4 * n.setWidth 32) x ∧ t.pc = x &&& 0xFFFFFFFE#32 ∧
      HardReset (Memory.ofCells cells) t n (x.getLsbD 0) ∧ t.activity = .running := by
  obtain ⟨x, hx, hpc, hfetched, hrun⟩ := h
  rw [vectorWord_of_vbr_zero rfl] at hx
  have hin : v.inputs = (s.hardCleared cells).inputs := hin.trans (s.hardCleared_inputs cells).symm
  have hmem : v.mem = (s.hardCleared cells).mem := hmem.trans (s.hardCleared_mem cells).symm
  exact ⟨x, (givenByVector_congr hin hmem).2 hx, hpc, hfetched.hardReset, hrun⟩

end

/-- Settles O54: the reset is a vector fetch in the cleared state, with the three outcomes of one. -/
theorem hardResetState : Obligations.HardResetState := by
  intro s cells hhard v cleared starts
  have hstep := step_hardReset hhard
  have hin : v.inputs = s.sample.inputs := rfl
  have hmem : v.mem = Memory.ofCells cells := rfl
  have readable (n : BitVec 7) : VectorReadable v n ↔ VectorReadable (s.sample.hardCleared cells) n :=
    vectorReadable_congr (hin.trans (s.sample.hardCleared_inputs cells).symm) (s.sample.hardCleared_vbr cells).symm
  simp only [readable]
  refine ⟨fun h0 => ?vector, fun h0 h8 => ?unrecoverable, fun h0 h8 => ?stuck⟩
  case vector =>
    obtain ⟨x, hx⟩ := (vectorFetch_dispatched rfl rfl h0).hardReset hin hmem
    exact ⟨_, x, hstep, hx⟩
  case unrecoverable =>
    obtain ⟨x, hx⟩ := (vectorFetch_dispatched_unrecoverable rfl h0 (by decide) h8).hardReset hin hmem
    exact ⟨_, x, hstep, hx⟩
  case stuck =>
    obtain ⟨hfetched, -, hstuck⟩ := vectorFetch_halted rfl rfl h0 (.inr h8)
    exact ⟨_, hstep, hfetched.hardReset_own, hstuck⟩

/-! ## Values in effect (R390) -/

/-- The value in effect is the new one where the window is closed, else the oldest that the window holds. -/
theorem headD_eq_or_mem {α : Type} (older : List α) (new : α) :
    older.headD new = new ∨ older.headD new ∈ older := by
  cases older with
  | nil => exact .inl rfl
  | cons oldest rest => exact .inr List.mem_cons_self

/-- Settles O38: each window is decided on its own, whatever count of free values it starts from. -/
theorem windowsOnlyShrink : Obligations.WindowsOnlyShrink := by
  intro s
  exact ⟨settleWindow_suffix .., settleWindow_suffix .., settleWindow_suffix .., settleWindow_suffix ..,
    settleWindow_suffix .., s.settle_eq, headD_eq_or_mem .., headD_eq_or_mem ..⟩

/-! ## What has no meaning (R34, R48, R60, R340, R392) -/

section

variable {s : State}

theorem exec_ldm_refused {rf : Reg} (h : firstRegOk rf = false) :
    exec (.ldm rf) s = .refused .multipleFirstRegister :=
  if_neg (Bool.eq_false_iff.1 h)

theorem exec_stm_refused {rf : Reg} (h : firstRegOk rf = false) :
    exec (.stm rf) s = .refused .multipleFirstRegister :=
  if_neg (Bool.eq_false_iff.1 h)

theorem firstRegOk_eq_false {rf : Reg} (h : rf.toNat = 0 ∨ rf.toNat = 15) : firstRegOk rf = false := by
  rw [Bool.eq_false_iff, Ne, firstRegOk_iff]
  omega

/-- CR13 to CR31 have no name (R60). -/
theorem ctrlReg_eq_none {cr : CregField} (h : 13 ≤ cr.toNat) : ctrlReg cr = none := by
  revert cr
  decide

/-- SP or a reserved bit is looked at before TM in a shadow PSR (R34, R48). -/
theorem State.returnThrough_reservedBits {shadow : Word} (ret : Word) (h : psrBitsOk shadow = false) :
    s.returnThrough shadow ret = .refused .reservedPsrBits := by
  simp [State.returnThrough, h]

theorem State.returnThrough_reservedMode {shadow : Word} (ret : Word) (hbits : psrBitsOk shadow = true)
    (hmode : traceModeOk shadow = false) : s.returnThrough shadow ret = .refused .reservedTraceMode := by
  simp [State.returnThrough, hbits, hmode]

theorem ctrlWriteRefusal_psr_reservedBits {v : Word} (h : psrBitsOk v = false) :
    ctrlWriteRefusal v .psr = some .reservedPsrBits := by
  simp [ctrlWriteRefusal, h]

theorem ctrlWriteRefusal_psr_reservedMode {v : Word} (hbits : psrBitsOk v = true)
    (hmode : traceModeOk v = false) : ctrlWriteRefusal v .psr = some .reservedTraceMode := by
  simp [ctrlWriteRefusal, hbits, hmode]

/-- In supervisor mode an image of the PSR with SP or a reserved bit set is refused by `mtcr` to CR0, CR2 and CR3
(R34, R48). -/
theorem mtcr_reservedBits {rx : Reg} (hsup : s.supervisor = true) (h : psrBitsOk (s.reg rx) = false) :
    exec (.mtcr 0 rx) s = .refused .reservedPsrBits ∧ exec (.mtcr 2 rx) s = .refused .reservedPsrBits ∧
      exec (.mtcr 3 rx) s = .refused .reservedPsrBits :=
  have hneg : ¬ psrBitsOk (s.reg rx) = true := Bool.eq_false_iff.1 h
  ⟨exec_mtcr_refused hsup rfl (ctrlWriteRefusal_psr_reservedBits h),
    exec_mtcr_refused (c := .epsr) hsup rfl (if_neg hneg), exec_mtcr_refused (c := .fpsr) hsup rfl (if_neg hneg)⟩

/-- `rte` and `rfi` in supervisor mode, each with the image in its own shadow PSR. -/
theorem returns_refused {i : Instr} {shadow ret : Word}
    (hx : exec i s = s.privileged (s.returnThrough shadow ret)) (hsup : s.supervisor = true) :
    (psrBitsOk shadow = false → exec i s = .refused .reservedPsrBits) ∧
      (psrBitsOk shadow = true → traceModeOk shadow = false → exec i s = .refused .reservedTraceMode) := by
  rw [hx, s.privileged_supervisor _ hsup]
  exact ⟨State.returnThrough_reservedBits ret, State.returnThrough_reservedMode ret⟩

end

/-- Settles O39: the register forms by their own checks, the control registers by their number, the PSR images by
the check of a write and by that of a return. -/
theorem formsWithoutMeaningStop : Obligations.FormsWithoutMeaningStop := by
  intro s rx
  refine ⟨rfl, fun hrx => ?multiple, fun hrx => if_pos ((inQuad_iff rx).2 hrx), fun hsup => ?supervisor⟩
  case multiple =>
    have hform := firstRegOk_eq_false hrx
    exact ⟨exec_ldm_refused hform, exec_stm_refused hform⟩
  case supervisor =>
    obtain ⟨hrteBits, hrteMode⟩ := returns_refused (s := s) (i := .rte) rfl hsup
    obtain ⟨hrfiBits, hrfiMode⟩ := returns_refused (s := s) (i := .rfi) rfl hsup
    refine ⟨fun cr hcr => ?unnamed, mtcr_reservedBits hsup, fun hbits hmode => ?mode, hrteBits, hrteMode,
      hrfiBits, hrfiMode⟩
    case unnamed =>
      have hname := ctrlReg_eq_none hcr
      exact ⟨exec_mtcr_unnamed rx hsup hname, exec_mfcr_unnamed rx hsup hname⟩
    case mode => exact exec_mtcr_refused hsup rfl (ctrlWriteRefusal_psr_reservedMode hbits hmode)

end Sys2Proof.Machine
end
